-- ==== Sys2Proof/Word.lean ====
section
/-! DEFINITION. The data words of HUFFCORE: one abbreviation per width that spec/00_scope.md rule R6 fixes. -/

namespace Sys2Proof

/-- A command word and a response data word: `CMD_W = 32` bits, bit 0 least significant (R6, R90, R97). -/
abbrev Word := BitVec 32

/-- A symbol: `SYM_W = 8` bits, compared by value (R6, R14). -/
abbrev Symbol := BitVec 8

/-- One element of a bit string (R11, R30): 0 is left, 1 is right (R64). -/
abbrev Bit := BitVec 1

/-- A node index: `NODE_W = 9` bits (R6, R23). -/
abbrev NodeIx := BitVec 9

end Sys2Proof
end

