-- ==== Sys2Proof/Syntax.lean ====
section
/-! DEFINITION. The sixteen commands of HUFFCORE as abstract syntax (spec/30_encoding.md rules R91 to R93), one
constructor per row of spec/opcode_table.json, and the script form of a command (rule R101): a mnemonic with operands
that are numbers, which need not fit. -/

namespace Sys2Proof

/-- A command with its operands at the widths of R92. -/
inductive Instr where
  /-- `NOP` (R186). -/
  | nop
  /-- `RESET` (R187). -/
  | reset
  /-- `SYM_CLR` (R188). -/
  | symClr
  /-- `SYM_PUSH v` (R189). -/
  | symPush (v : Symbol)
  /-- `BIT_CLR` (R190). -/
  | bitClr
  /-- `BIT_PUSH b` (R191). -/
  | bitPush (b : Bit)
  /-- `COMPRESS` (R192). -/
  | compress
  /-- `DECOMPRESS` (R193). -/
  | decompress
  /-- `RD_REG r` (R194). -/
  | rdReg (r : BitVec 4)
  /-- `RD_FREQ s` (R195). -/
  | rdFreq (s : Symbol)
  /-- `RD_CODELEN s` (R196). -/
  | rdCodelen (s : Symbol)
  /-- `RD_CODEBIT s, k` (R197). -/
  | rdCodebit (s : Symbol) (k : BitVec 8)
  /-- `RD_NODE_FREQ i` (R198). -/
  | rdNodeFreq (i : NodeIx)
  /-- `RD_NODE_LINK i` (R199). -/
  | rdNodeLink (i : NodeIx)
  /-- `RD_BIT i` (R200). -/
  | rdBit (i : BitVec 28)
  /-- `RD_SYM i` (R201). -/
  | rdSym (i : BitVec 28)
  deriving DecidableEq, Repr

/-- The sixteen mnemonics of R93. -/
inductive Mnemonic where
  | nop | reset | symClr | symPush | bitClr | bitPush | compress | decompress
  | rdReg | rdFreq | rdCodelen | rdCodebit | rdNodeFreq | rdNodeLink | rdBit | rdSym
  deriving DecidableEq, Repr

/-- The eight formats of R91. -/
inductive Format where
  | n | v8 | v1 | r4 | s8 | sk | i9 | i28
  deriving DecidableEq, Repr

/-- The format of each mnemonic (R91, R93). -/
def Mnemonic.format : Mnemonic → Format
  | .nop => .n
  | .reset => .n
  | .symClr => .n
  | .symPush => .v8
  | .bitClr => .n
  | .bitPush => .v1
  | .compress => .n
  | .decompress => .n
  | .rdReg => .r4
  | .rdFreq => .s8
  | .rdCodelen => .s8
  | .rdCodebit => .sk
  | .rdNodeFreq => .i9
  | .rdNodeLink => .i9
  | .rdBit => .i28
  | .rdSym => .i28

/-- The operand widths of a format, in the order a script writes the operands (R91, R101). -/
def Format.widths : Format → List Nat
  | .n => []
  | .v8 => [8]
  | .v1 => [1]
  | .r4 => [4]
  | .s8 => [8]
  | .sk => [8, 8]
  | .i9 => [9]
  | .i28 => [28]

/-- A line of a command script (R101): a mnemonic and numeric operands, of which nothing is checked yet. -/
structure RawCommand where
  mnemonic : Mnemonic
  operands : List Nat
  deriving DecidableEq, Repr

/-- The mnemonic of a command. -/
def Instr.mnemonic : Instr → Mnemonic
  | .nop => .nop
  | .reset => .reset
  | .symClr => .symClr
  | .symPush _ => .symPush
  | .bitClr => .bitClr
  | .bitPush _ => .bitPush
  | .compress => .compress
  | .decompress => .decompress
  | .rdReg _ => .rdReg
  | .rdFreq _ => .rdFreq
  | .rdCodelen _ => .rdCodelen
  | .rdCodebit _ _ => .rdCodebit
  | .rdNodeFreq _ => .rdNodeFreq
  | .rdNodeLink _ => .rdNodeLink
  | .rdBit _ => .rdBit
  | .rdSym _ => .rdSym

/-- The operands of a command as numbers, in script order (R92, R101). -/
def Instr.operands : Instr → List Nat
  | .nop => []
  | .reset => []
  | .symClr => []
  | .symPush v => [v.toNat]
  | .bitClr => []
  | .bitPush b => [b.toNat]
  | .compress => []
  | .decompress => []
  | .rdReg r => [r.toNat]
  | .rdFreq s => [s.toNat]
  | .rdCodelen s => [s.toNat]
  | .rdCodebit s k => [s.toNat, k.toNat]
  | .rdNodeFreq i => [i.toNat]
  | .rdNodeLink i => [i.toNat]
  | .rdBit i => [i.toNat]
  | .rdSym i => [i.toNat]

/-- The script form of a command. -/
def Instr.raw (i : Instr) : RawCommand := ⟨i.mnemonic, i.operands⟩

end Sys2Proof
end

