-- ==== Sys2Proof/WellFormed.lean ====
section
/-! DEFINITION. When a command of a script is well formed (spec/30_encoding.md rule R101): it has the operands its
format names and each fits its subfield. A term of `Instr` carries its operands at their widths, so it is always well
formed (`Laws/WellFormed.lean`). -/

namespace Sys2Proof

/-- Every operand fits the subfield of its position, and there are as many operands as subfields (R91, R92). -/
def operandsFit : List Nat → List Nat → Bool
  | [], [] => true
  | w :: ws, v :: vs => decide (v < 2 ^ w) && operandsFit ws vs
  | [], _ :: _ => false
  | _ :: _, [] => false

/-- The check of R101: "it refuses an operand that does not fit its subfield". -/
def RawCommand.wellFormed (c : RawCommand) : Bool := operandsFit c.mnemonic.format.widths c.operands

/-- A command is well formed when its script form is. -/
def Instr.wellFormed (i : Instr) : Bool := i.raw.wellFormed

/-- The command a well-formed script line stands for; `none` where the check of R101 refuses. -/
def RawCommand.toInstr? (c : RawCommand) : Option Instr :=
  if c.wellFormed then
    match c.mnemonic, c.operands with
    | .nop, [] => some .nop
    | .reset, [] => some .reset
    | .symClr, [] => some .symClr
    | .symPush, [v] => some (.symPush (BitVec.ofNat 8 v))
    | .bitClr, [] => some .bitClr
    | .bitPush, [b] => some (.bitPush (BitVec.ofNat 1 b))
    | .compress, [] => some .compress
    | .decompress, [] => some .decompress
    | .rdReg, [r] => some (.rdReg (BitVec.ofNat 4 r))
    | .rdFreq, [s] => some (.rdFreq (BitVec.ofNat 8 s))
    | .rdCodelen, [s] => some (.rdCodelen (BitVec.ofNat 8 s))
    | .rdCodebit, [s, k] => some (.rdCodebit (BitVec.ofNat 8 s) (BitVec.ofNat 8 k))
    | .rdNodeFreq, [i] => some (.rdNodeFreq (BitVec.ofNat 9 i))
    | .rdNodeLink, [i] => some (.rdNodeLink (BitVec.ofNat 9 i))
    | .rdBit, [i] => some (.rdBit (BitVec.ofNat 28 i))
    | .rdSym, [i] => some (.rdSym (BitVec.ofNat 28 i))
    | _, _ => none
  else none

end Sys2Proof
end

