-- ==== Sys2Proof/Decode.lean ====
section
/-! DEFINITION. The command word (spec/30_encoding.md rules R90 to R96): its fields, the opcode map of R93, the total
decoder of R94 and, after it, the encoder. A word that matches no row is refused by `none`, which the step answers
with `ERR_ILLEGAL_CMD` (R94, R232). -/

namespace Sys2Proof

/-- The opcode, bits 31:28 (R90). -/
def opField (w : Word) : BitVec 4 := w.extractLsb' 28 4

/-- The argument, bits 27:0 (R90). -/
def argField (w : Word) : BitVec 28 := w.extractLsb' 0 28

/-- `v = arg[7:0]` of format V8 and `s = arg[7:0]` of formats S8 and SK (R91). -/
def symField (w : Word) : Symbol := w.extractLsb' 0 8

/-- `b = arg[0]` of format V1 (R91). -/
def bitField (w : Word) : Bit := w.extractLsb' 0 1

/-- `r = arg[3:0]` of format R4 (R91). -/
def regField (w : Word) : BitVec 4 := w.extractLsb' 0 4

/-- `k = arg[15:8]` of format SK (R91). -/
def posField (w : Word) : BitVec 8 := w.extractLsb' 8 8

/-- `i = arg[8:0]` of format I9 (R91). -/
def nodeField (w : Word) : NodeIx := w.extractLsb' 0 9

/-- The mnemonic each value of `op` is assigned to: "all sixteen values of `op` are assigned" (R93). -/
def opMnemonic (op : BitVec 4) : Mnemonic :=
  match op.toNat with
  | 0x0 => .nop
  | 0x1 => .reset
  | 0x2 => .symClr
  | 0x3 => .symPush
  | 0x4 => .bitClr
  | 0x5 => .bitPush
  | 0x6 => .compress
  | 0x7 => .decompress
  | 0x8 => .rdReg
  | 0x9 => .rdFreq
  | 0xA => .rdCodelen
  | 0xB => .rdCodebit
  | 0xC => .rdNodeFreq
  | 0xD => .rdNodeLink
  | 0xE => .rdBit
  | _ => .rdSym

/-- The column "match" of R93. -/
def Mnemonic.matchWord : Mnemonic → Word
  | .nop => 0x00000000
  | .reset => 0x10000000
  | .symClr => 0x20000000
  | .symPush => 0x30000000
  | .bitClr => 0x40000000
  | .bitPush => 0x50000000
  | .compress => 0x60000000
  | .decompress => 0x70000000
  | .rdReg => 0x80000000
  | .rdFreq => 0x90000000
  | .rdCodelen => 0xA0000000
  | .rdCodebit => 0xB0000000
  | .rdNodeFreq => 0xC0000000
  | .rdNodeLink => 0xD0000000
  | .rdBit => 0xE0000000
  | .rdSym => 0xF0000000

/-- The column "mask" of R93: a 1 for every bit that is not an operand bit. -/
def Mnemonic.mask : Mnemonic → Word
  | .nop => 0xFFFFFFFF
  | .reset => 0xFFFFFFFF
  | .symClr => 0xFFFFFFFF
  | .symPush => 0xFFFFFF00
  | .bitClr => 0xFFFFFFFF
  | .bitPush => 0xFFFFFFFE
  | .compress => 0xFFFFFFFF
  | .decompress => 0xFFFFFFFF
  | .rdReg => 0xFFFFFFF0
  | .rdFreq => 0xFFFFFF00
  | .rdCodelen => 0xFFFFFF00
  | .rdCodebit => 0xFFFF0000
  | .rdNodeFreq => 0xFFFFFE00
  | .rdNodeLink => 0xFFFFFE00
  | .rdBit => 0xF0000000
  | .rdSym => 0xF0000000

/-- The command of a mnemonic with the operands the word's subfields hold (R92). -/
def Mnemonic.withOperands (m : Mnemonic) (w : Word) : Instr :=
  match m with
  | .nop => .nop
  | .reset => .reset
  | .symClr => .symClr
  | .symPush => .symPush (symField w)
  | .bitClr => .bitClr
  | .bitPush => .bitPush (bitField w)
  | .compress => .compress
  | .decompress => .decompress
  | .rdReg => .rdReg (regField w)
  | .rdFreq => .rdFreq (symField w)
  | .rdCodelen => .rdCodelen (symField w)
  | .rdCodebit => .rdCodebit (symField w) (posField w)
  | .rdNodeFreq => .rdNodeFreq (nodeField w)
  | .rdNodeLink => .rdNodeLink (nodeField w)
  | .rdBit => .rdBit (argField w)
  | .rdSym => .rdSym (argField w)

/-- A word selects a row of R93 with `(w & mask) == match`. -/
abbrev Mnemonic.selects (m : Mnemonic) (w : Word) : Prop := w &&& m.mask = m.matchWord

/-- The decoder of R94: take `op`, find its row, test `(w & mask) == match`; a word that fails the test is illegal. -/
def decode (w : Word) : Option Instr :=
  if (opMnemonic (opField w)).selects w then some ((opMnemonic (opField w)).withOperands w) else none

/-- The word of a command: `op` in bits 31:28, each operand in its subfield, every mbz bit 0 (R91, R93, R101). -/
def encode : Instr → Word
  | .nop => 0x0#4 ++ 0#28
  | .reset => 0x1#4 ++ 0#28
  | .symClr => 0x2#4 ++ 0#28
  | .symPush v => 0x3#4 ++ 0#20 ++ v
  | .bitClr => 0x4#4 ++ 0#28
  | .bitPush b => 0x5#4 ++ 0#27 ++ b
  | .compress => 0x6#4 ++ 0#28
  | .decompress => 0x7#4 ++ 0#28
  | .rdReg r => 0x8#4 ++ 0#24 ++ r
  | .rdFreq s => 0x9#4 ++ 0#20 ++ s
  | .rdCodelen s => 0xA#4 ++ 0#20 ++ s
  | .rdCodebit s k => 0xB#4 ++ 0#12 ++ k ++ s
  | .rdNodeFreq i => 0xC#4 ++ 0#19 ++ i
  | .rdNodeLink i => 0xD#4 ++ 0#19 ++ i
  | .rdBit i => 0xE#4 ++ i
  | .rdSym i => 0xF#4 ++ i

/-- The low `nbits` bits of a number as a command word: the bits above `nbits` are 0 (log 14). -/
def tableWord (nbits w : Nat) : Word := BitVec.ofNat 32 (w % 2 ^ nbits)

/-- The instruction the decoder reads from a row of spec/opcode_table.json whose bits are `w`. -/
def decodeTableWord (nbits w : Nat) : Option Instr := decode (tableWord nbits w)

end Sys2Proof
end

