-- ==== Sys2Proof/Config.lean ====
section
/-! DEFINITION. The parameters of HUFFCORE (spec/00_scope.md rules R6 and R7): the fixed ones as constants, the three
argument parameters as a record that cannot be built outside the constraints of R7 (log 1). -/

namespace Sys2Proof

/-- `NSYM = 2^SYM_W`: the number of symbol values (R6). -/
def nsym : Nat := 256

/-- `NODE_CAP = 2*NSYM`: cells of NODE memory; at most 511 are used (R6, R24). -/
def nodeCap : Nat := 512

/-- `HEAP_CAP = NSYM`: cells of the heap array (R6, R34). -/
def heapCap : Nat := 256

/-- `STACK_CAP = NSYM`: cells of the code generator's stack (R6, R35). -/
def stackCap : Nat := 256

/-- `CODE_MAX = NSYM-1`: the greatest code length (R6, R27). -/
def codeMax : Nat := 255

/-- The constraints of R7 on the argument parameters. -/
abbrev ConfigLegal (cntW textCap bitCap : Nat) : Prop :=
  (1 ≤ cntW ∧ cntW ≤ 32) ∧ (1 ≤ textCap ∧ textCap ≤ 2 ^ cntW - 1 ∧ textCap ≤ 2 ^ 28) ∧ (1 ≤ bitCap ∧ bitCap ≤ 2 ^ 28)

/-- The argument parameters of R6 with their default values. A record that breaks R7 cannot be built: "a
configuration that breaks a constraint is not a HUFFCORE and a model must refuse it" (R7, U19). -/
structure Config where
  /-- `CNT_W`: width of a frequency count. -/
  cntW : Nat := 32
  /-- `TEXT_CAP`: cells of SYM_IN. -/
  textCap : Nat := 65536
  /-- `BIT_CAP`: cells of BITBUF and of SYM_OUT. -/
  bitCap : Nat := 524288
  /-- The constraints of R7. -/
  legal : ConfigLegal cntW textCap bitCap := by decide
  deriving DecidableEq, Repr

/-- The default configuration of R6. -/
def Config.standard : Config := {}

/-- Three numbers taken as a configuration, refused (`none`) when they break R7. -/
def Config.ofNats? (cntW textCap bitCap : Nat) : Option Config :=
  if h : ConfigLegal cntW textCap bitCap then some ⟨cntW, textCap, bitCap, h⟩ else none

end Sys2Proof
end

