-- ==== Sys2Proof/Machine/State.lean ====
section
/-! DEFINITION. The state of HUFFCORE as plain data (spec/10_state.md rules R20 to R44), the reasons a step of the
model can stop, and the state after reset (R43). A buffer is the list of its cells that hold a value, so its length
register is the list's length and no cell beyond it can be read or named (R42, log 5). -/

namespace Sys2Proof.Machine

/-- A table with one cell for each of the 256 symbol values (R21, R27). -/
abbrev Table (α : Type) := Vector α 256

/-- A node record, one of three kinds (R23). A frequency is a number: no count and no sum overflows (R123, R141,
log 6). -/
inductive Node where
  /-- "holds exactly one Symbol and its frequency". -/
  | leaf (freq : Nat) (sym : Symbol)
  /-- An internal node: frequency and two children, left and right. -/
  | internal (freq : Nat) (left right : NodeIx)
  /-- The synthetic root of the degenerate case: one child, at the left position. -/
  | synth (freq : Nat) (left : NodeIx)
  deriving DecidableEq, Repr

/-- The status of a response (R98). Values 6 to 15 are never produced, so they are not in the type (U23). -/
inductive Status where
  | ok | illegalCmd | range | capacity | noCode | badStream
  deriving DecidableEq, Repr

/-- A response: the pair of status and data word (R97). -/
structure Response where
  status : Status
  data : Word
  deriving DecidableEq, Repr

/-- What the host does on the ports of R106: present a command word, or assert `rst`. -/
inductive HostAction where
  | command (w : Word)
  | rst
  deriving DecidableEq, Repr

/-- The eight address spaces of R60, and the decoder's walk registers of R36. -/
inductive Space where
  | symIn | bitBuf | symOut | freq | node | code | heap | cgStack | walk
  deriving DecidableEq, Repr

/-- A stack record of the code generator (R35): a node and the path to it; the record's `len` is the path's length. -/
structure StackRec where
  node : NodeIx
  path : List Bit
  deriving DecidableEq, Repr

/-- The decoder's state (R36, R172). -/
inductive DState where
  | atRoot | inPath
  deriving DecidableEq, Repr

/-- The decoder's scratch registers `cur`, `dstate` and `j` (R36). -/
structure Walk where
  cur : NodeIx
  dstate : DState
  j : Nat
  deriving DecidableEq, Repr

/-- The session of R41. -/
structure Session where
  /-- FREQ: the frequency table; 0 means "not a key" (R21). -/
  freq : Table Nat
  /-- NSYMS: the number of keys (R22). -/
  nsyms : BitVec 9
  /-- NODE: the cells that hold a record; NNODES is the list's length (R23, R24). -/
  node : List Node
  /-- ROOT (R25). -/
  root : NodeIx
  /-- TREE_VALID (R25). -/
  treeValid : Bool
  /-- CODE: each record is the list of its `len` bits; the empty list is "no entry" (R27). -/
  code : Table (List Bit)
  deriving DecidableEq, Repr

/-- The state of HUFFCORE (R20), with the model's own fields `cfg` (log 1), `host` and `rsp` (log 2). -/
structure State where
  /-- The parameters of R6: fixed for an instance, changed by no step. -/
  cfg : Config
  /-- FREQ, NSYMS, NODE, NNODES, ROOT, TREE_VALID, CODE (R41). -/
  session : Session
  /-- SYM_IN; SLEN_IN is its length (R29). -/
  symIn : List Symbol
  /-- BITBUF; BLEN is its length (R30). -/
  bitBuf : List Bit
  /-- SYM_OUT; SLEN_OUT is its length (R31). -/
  symOut : List Symbol
  /-- LAST_ERR: the status of the most recent failing command, `ok` (0) if none (R32). -/
  lastErr : Status
  /-- HEAP; HEAP_N is its length (R34). Empty between commands (log 4). -/
  heap : List NodeIx
  /-- CGSTACK, top first; CG_SP is its length (R35). Empty between commands (log 4). -/
  cgStack : List StackRec
  /-- `cur`, `dstate`, `j`; absent between commands (R36, log 4). -/
  walk : Option Walk
  /-- What the host will do on the ports, oldest first (R106, log 2). -/
  host : List HostAction
  /-- What the response port presents after the last step (R97, R106, log 2). -/
  rsp : Option Response
  deriving DecidableEq, Repr

/-- Why a step of the model stops with a fault. No state that a run from reset reaches raises one. -/
inductive Fault where
  /-- Raised by a unit (heap, builder, code generator, decoder) that would read a cell holding no value: the access
  primitive "is defined only when cell `i` holds a value" (R63, R42, U20). Safe: the model stops where the spec
  defines nothing. -/
  | noValue (space : Space)
  /-- Raised by the code generator when its loop has made the `NNODES` pops of R281 and records are left, so that
  NODE is no tree (R26). Safe: the model stops where the spec's bound does not hold. -/
  | loopBound
  deriving DecidableEq, Repr

/-- Why a step of the model is refused. -/
inductive Refusal where
  /-- Raised by an arm of `exec` for an instruction without a meaning; no arm does so now. Safe. -/
  | notModelled (mnemonic : String)
  /-- Raised by the builder given an empty frequency table: "this spec defines no behaviour for it" (R142, U1). No
  command reaches it. Safe. -/
  | emptyTable
  /-- Raised by the decoder when it stands on a leaf before it moves, which R171 says cannot occur (U15). No state
  that a run from reset reaches raises it. Safe. -/
  | walkAtLeaf
  deriving DecidableEq, Repr

/-- The session condition "nothing built" (R41, R43). -/
def Session.nothing : Session where
  freq := Vector.replicate 256 0
  nsyms := 0
  node := []
  root := 0
  treeValid := false
  code := Vector.replicate 256 []

/-- The state of R43 in the default configuration of R6, with nothing presented by the host yet (log 2). -/
def State.reset : State where
  cfg := Config.standard
  session := Session.nothing
  symIn := []
  bitBuf := []
  symOut := []
  lastErr := .ok
  heap := []
  cgStack := []
  walk := none
  host := []
  rsp := none

/-- Every buffer keeps within the cells its space has (R60, R20): the model's canonical form of memory. -/
abbrev Memory.wf (s : State) : Prop :=
  s.symIn.length ≤ s.cfg.textCap ∧ s.bitBuf.length ≤ s.cfg.bitCap ∧ s.symOut.length ≤ s.cfg.bitCap ∧
    s.session.node.length < nodeCap ∧ s.heap.length ≤ heapCap ∧ s.cgStack.length ≤ stackCap

end Sys2Proof.Machine
end

