-- ==== Sys2Proof/Machine/Ops.lean ====
section
/-! DEFINITION. The shared operations of HUFFCORE: table cells, `NAME <- v` for each register and buffer
(spec/00_scope.md rule R12), the two ends of a command (spec/45_host_commands.md rule R185), how a unit ends, the reset
state, and taking a host action from the ports (spec/30_encoding.md rule R106). -/

namespace Sys2Proof.Machine

/-! ### Table cells (R60, R63) -/

/-- `SPACE[s]` for FREQ and CODE: cell `s`, which always holds a value. -/
def Table.read {α : Type} (t : Table α) (s : Symbol) : α := t[s.toNat]'s.isLt

/-- `SPACE[s] <- v` for FREQ and CODE. -/
def Table.write {α : Type} (t : Table α) (s : Symbol) (v : α) : Table α := t.set s.toNat v s.isLt

/-- The 256 symbol values in ascending order: the scan `for s in 0 .. 255` (R65, R131). -/
def allSymbols : List Symbol := (List.range 256).map (BitVec.ofNat 8)

/-- The keys of a frequency table in ascending order (R21). -/
def keys (freq : Table Nat) : List Symbol := allSymbols.filter fun s => freq.read s != 0

/-! ### Register and buffer updates (R12) -/

/-- `FREQ <- f`. -/
def Session.setFreq (x : Session) (f : Table Nat) : Session := { x with freq := f }
/-- `NSYMS <- n`. -/
def Session.setNsyms (x : Session) (n : BitVec 9) : Session := { x with nsyms := n }
/-- `NODE` and `NNODES` become the list `n` and its length. -/
def Session.setNode (x : Session) (n : List Node) : Session := { x with node := n }
/-- `ROOT <- r`. -/
def Session.setRoot (x : Session) (r : NodeIx) : Session := { x with root := r }
/-- `TREE_VALID <- b`. -/
def Session.setTreeValid (x : Session) (b : Bool) : Session := { x with treeValid := b }
/-- `CODE <- c`. -/
def Session.setCode (x : Session) (c : Table (List Bit)) : Session := { x with code := c }

/-- The session becomes `x`. -/
def State.setSession (s : State) (x : Session) : State := { s with session := x }
/-- `SYM_IN` and `SLEN_IN` become the list `l` and its length. -/
def State.setSymIn (s : State) (l : List Symbol) : State := { s with symIn := l }
/-- `BITBUF` and `BLEN` become the list `l` and its length. -/
def State.setBitBuf (s : State) (l : List Bit) : State := { s with bitBuf := l }
/-- `SYM_OUT` and `SLEN_OUT` become the list `l` and its length. -/
def State.setSymOut (s : State) (l : List Symbol) : State := { s with symOut := l }
/-- `LAST_ERR <- e`. -/
def State.setLastErr (s : State) (e : Status) : State := { s with lastErr := e }
/-- `HEAP` and `HEAP_N` become the list `h` and its length. -/
def State.setHeap (s : State) (h : List NodeIx) : State := { s with heap := h }
/-- `CGSTACK` and `CG_SP` become the list `k` and its length. -/
def State.setCgStack (s : State) (k : List StackRec) : State := { s with cgStack := k }
/-- `cur`, `dstate` and `j` take values, or hold none. -/
def State.setWalk (s : State) (w : Option Walk) : State := { s with walk := w }
/-- What the host will present. -/
def State.setHost (s : State) (l : List HostAction) : State := { s with host := l }
/-- What the response port presents. -/
def State.setRsp (s : State) (r : Option Response) : State := { s with rsp := r }

/-- `zext_32(n)` of a length or a count (R10). -/
def countWord (n : Nat) : Word := BitVec.ofNat 32 n

/-! ### The two ends of a command -/

/-- `respond(OK, d)`: the command ends with response `(OK, d)`; LAST_ERR is unchanged (R12, R185). -/
def respond (d : Word) (s : State) : Host.Outcome State Fault Refusal := .next (s.setRsp (some ⟨.ok, d⟩))

/-- `raise ERR_X`: error entry, the whole of what HUFFCORE has for taking an exception (R239). LAST_ERR takes the
status, the response is `(ERR_X, 0)`, no state is saved and control goes nowhere; there is nothing to return from
(R240), so no operation for a return stands beside it. -/
def raise (e : Status) (s : State) : Host.Outcome State Fault Refusal :=
  .next ((s.setLastErr e).setRsp (some ⟨e, 0⟩))

/-- The answer to a word that is no command (R94, R185, R232). -/
def illegal (s : State) : Host.Outcome State Fault Refusal := raise .illegalCmd s

/-! ### How a unit ends -/

/-- The end of a unit operation inside a command: done, an error raised, or a stop of the model. -/
inductive UnitEnd where
  | done (s : State)
  | raised (e : Status) (s : State)
  | fault (f : Fault)
  | refused (r : Refusal)
  deriving DecidableEq, Repr

/-- The next unit runs only where this one is done (R72, R192, R239 (a)). -/
def UnitEnd.andThen (u : UnitEnd) (k : State → UnitEnd) : UnitEnd :=
  match u with
  | .done s => k s
  | .raised e s => .raised e s
  | .fault f => .fault f
  | .refused r => .refused r

/-- A unit whose only other end is a read of a cell that holds no value. -/
def UnitEnd.ofExcept (r : Except Fault State) : UnitEnd :=
  match r with
  | .ok s => .done s
  | .error f => .fault f

/-- The command's end after its last unit: respond with the length the units left, or take the error (R185). -/
def UnitEnd.finish (u : UnitEnd) (data : State → Word) : Host.Outcome State Fault Refusal :=
  match u with
  | .done s => respond (data s) s
  | .raised e s => raise e s
  | .fault f => .fault f
  | .refused r => .refused r

/-! ### Reset -/

/-- The reset state of R43 in the instance's own configuration; what the host will do next is not the block's. -/
def resetState (s : State) : State := { State.reset with cfg := s.cfg, host := s.host }

/-- Hardware reset (R260): the reset state, and no response (R261). -/
def hardReset (s : State) : Host.Outcome State Fault Refusal := .next (resetState s)

/-! ### The ports -/

/-- The block takes the next host action from the ports (R106): the action and the state in which it is accepted. -/
def takeAction (s : State) : Option (HostAction × State) :=
  match s.host with
  | [] => none
  | a :: rest => some (a, s.setHost rest)

/-- Nothing is presented: the block stays idle and presents no response (R106, R230, log 2). -/
def idle (s : State) : Host.Outcome State Fault Refusal := .next (s.setRsp none)

/-- The word the host will present next (log 2, log 14). -/
def presentWord (s : State) (w : Word) : State := s.setHost (.command w :: s.host)

end Sys2Proof.Machine
end

