-- ==== Sys2Proof/Machine/Control.lean ====
section
/-! DEFINITION. Session control: `NOP` and `RESET` (spec/45_host_commands.md rules R186 and R187). -/

namespace Sys2Proof.Machine

/-- `NOP`: `respond(OK, 0)` (R186). -/
def execNop (s : State) : Host.Outcome State Fault Refusal := respond 0 s

/-- `RESET`: "the state afterwards is exactly the reset state" of R43, and the response is `(OK, 0)` (R187, R261). -/
def execReset (s : State) : Host.Outcome State Fault Refusal := respond 0 (resetState s)

end Sys2Proof.Machine
end

