-- ==== Sys2Proof/Machine/Load.lean ====
section
/-! DEFINITION. Loading the buffers: `SYM_CLR`, `SYM_PUSH`, `BIT_CLR`, `BIT_PUSH` (spec/45_host_commands.md rules R188 to
R191; spec/20_memory.md rule R77). -/

namespace Sys2Proof.Machine

/-- `SYM_CLR`: `SLEN_IN <- 0 ; respond(OK, 0)` (R188). -/
def execSymClr (s : State) : Host.Outcome State Fault Refusal := respond 0 (s.setSymIn [])

/-- `SYM_PUSH v` (R189): `ERR_CAPACITY` when the text is full (log 7), else `v` is appended and the new length answered. -/
def execSymPush (v : Symbol) (s : State) : Host.Outcome State Fault Refusal :=
  if s.cfg.textCap ≤ s.symIn.length then raise .capacity s
  else respond (countWord (s.symIn.length + 1)) (s.setSymIn (s.symIn ++ [v]))

/-- `BIT_CLR`: `BLEN <- 0 ; respond(OK, 0)` (R190). -/
def execBitClr (s : State) : Host.Outcome State Fault Refusal := respond 0 (s.setBitBuf [])

/-- `BIT_PUSH b` (R191): `ERR_CAPACITY` when the stream is full (log 7), else `b` is appended and the new length
answered. -/
def execBitPush (b : Bit) (s : State) : Host.Outcome State Fault Refusal :=
  if s.cfg.bitCap ≤ s.bitBuf.length then raise .capacity s
  else respond (countWord (s.bitBuf.length + 1)) (s.setBitBuf (s.bitBuf ++ [b]))

end Sys2Proof.Machine
end

