-- ==== Sys2Proof/Machine/Flags.lean ====
section
/-! DEFINITION. The flag-like state of HUFFCORE and its words (spec/10_state.md rules R32, R33 and R40): TREE_VALID,
LAST_ERR, and the status code of spec/30_encoding.md rule R98. There are no condition codes and no arithmetic flags. -/

namespace Sys2Proof.Machine

/-- The code of a status (R98). -/
def Status.code : Status → BitVec 4
  | .ok => 0
  | .illegalCmd => 1
  | .range => 2
  | .capacity => 3
  | .noCode => 4
  | .badStream => 5

/-- TREE_VALID as one bit. -/
def treeBit (b : Bool) : BitVec 1 := if b then 1 else 0

/-- REG(0) STATUS: bit 0 = TREE_VALID, bits 31:1 = 0 (R33). -/
def statusReg (s : State) : Word := 0#31 ++ treeBit s.session.treeValid

/-- REG(1): bits 3:0 = LAST_ERR, bits 31:4 = 0 (R33). -/
def lastErrReg (s : State) : Word := 0#28 ++ Status.code s.lastErr

/-- REG(7) ROOT: bit 31 = TREE_VALID, bits 8:0 = ROOT, bits 30:9 = 0 (R33). -/
def rootReg (s : State) : Word := treeBit s.session.treeValid ++ 0#22 ++ s.session.root

end Sys2Proof.Machine
end

