-- ==== Sys2Proof/Machine/Operands.lean ====
section
/-! DEFINITION. What the operand of a read command names (spec/20_memory.md rule R62, spec/30_encoding.md rules R92,
R95 and R99): the value to answer, or `none` where the operand names a register or cell that holds no value, which
the command answers with `ERR_RANGE` (R233). -/

namespace Sys2Proof.Machine

/-- `REG(r)` of R33; registers 10 to 15 are not implemented. -/
def regValue? (s : State) (r : BitVec 4) : Option Word :=
  match r.toNat with
  | 0 => some (statusReg s)
  | 1 => some (lastErrReg s)
  | 2 => some (countWord s.symIn.length)
  | 3 => some (countWord s.bitBuf.length)
  | 4 => some (countWord s.symOut.length)
  | 5 => some (s.session.nsyms.setWidth 32)
  | 6 => some (countWord s.session.node.length)
  | 7 => some (rootReg s)
  | 8 => some (countWord s.cfg.textCap)
  | 9 => some (countWord s.cfg.bitCap)
  | _ => none

/-- `zext_32(FREQ[s])` (R195). -/
def freqValue (s : State) (c : Symbol) : Word := countWord (s.session.freq.read c)

/-- `zext_32(CODE[s].len)` (R196). -/
def codeLenValue (s : State) (c : Symbol) : Word := countWord (s.session.code.read c).length

/-- `zext_32(CODE[s].bits[k])` for `k < CODE[s].len` (R197). -/
def codeBitValue? (s : State) (c : Symbol) (k : BitVec 8) : Option Word :=
  ((s.session.code.read c)[k.toNat]?).map (BitVec.setWidth 32)

/-- The record `NODE[i]`, for `i < NNODES`. -/
def nodeAt? (node : List Node) (i : NodeIx) : Option Node := node[i.toNat]?

/-- The field `freq` of a record (R23). -/
def Node.freq : Node → Nat
  | .leaf f _ => f
  | .internal f _ _ => f
  | .synth f _ => f

/-- The link word of R99: the kind in bits 31:30, `right` in 24:16, the symbol or `left` in 8:0. -/
def linkWord : Node → Word
  | .leaf _ sym => 0#2 ++ 0#5 ++ 0#9 ++ 0#7 ++ (0#1 ++ sym)
  | .internal _ left right => 1#2 ++ 0#5 ++ right ++ 0#7 ++ left
  | .synth _ left => 2#2 ++ 0#5 ++ 0#9 ++ 0#7 ++ left

/-- `zext_32(NODE[i].freq)` for `i < NNODES` (R198). -/
def nodeFreqValue? (s : State) (i : NodeIx) : Option Word :=
  (nodeAt? s.session.node i).map fun n => countWord n.freq

/-- `link_word(NODE[i])` for `i < NNODES` (R199). -/
def nodeLinkValue? (s : State) (i : NodeIx) : Option Word := (nodeAt? s.session.node i).map linkWord

/-- `zext_32(BITBUF[i])` for `i < BLEN` (R200). -/
def bitValue? (s : State) (i : BitVec 28) : Option Word := (s.bitBuf[i.toNat]?).map (BitVec.setWidth 32)

/-- `zext_32(SYM_OUT[i])` for `i < SLEN_OUT` (R201). -/
def symValue? (s : State) (i : BitVec 28) : Option Word := (s.symOut[i.toNat]?).map (BitVec.setWidth 32)

/-- The end of a read command: the value the operand names, or `ERR_RANGE` where it names none (R233). -/
def answer (v : Option Word) (s : State) : Host.Outcome State Fault Refusal :=
  match v with
  | some d => respond d s
  | none => raise .range s

end Sys2Proof.Machine
end

