-- ==== Sys2Proof/Machine/Read.lean ====
section
/-! DEFINITION. Reading state: the eight `RD_*` commands (spec/45_host_commands.md rules R194 to R201). -/

namespace Sys2Proof.Machine

/-- `RD_REG r` (R194). -/
def execRdReg (r : BitVec 4) (s : State) : Host.Outcome State Fault Refusal := answer (regValue? s r) s

/-- `RD_FREQ s` (R195): every symbol is valid. -/
def execRdFreq (c : Symbol) (s : State) : Host.Outcome State Fault Refusal := respond (freqValue s c) s

/-- `RD_CODELEN s` (R196): every symbol is valid. -/
def execRdCodelen (c : Symbol) (s : State) : Host.Outcome State Fault Refusal := respond (codeLenValue s c) s

/-- `RD_CODEBIT s, k` (R197). -/
def execRdCodebit (c : Symbol) (k : BitVec 8) (s : State) : Host.Outcome State Fault Refusal :=
  answer (codeBitValue? s c k) s

/-- `RD_NODE_FREQ i` (R198). -/
def execRdNodeFreq (i : NodeIx) (s : State) : Host.Outcome State Fault Refusal := answer (nodeFreqValue? s i) s

/-- `RD_NODE_LINK i` (R199). -/
def execRdNodeLink (i : NodeIx) (s : State) : Host.Outcome State Fault Refusal := answer (nodeLinkValue? s i) s

/-- `RD_BIT i` (R200). -/
def execRdBit (i : BitVec 28) (s : State) : Host.Outcome State Fault Refusal := answer (bitValue? s i) s

/-- `RD_SYM i` (R201). -/
def execRdSym (i : BitVec 28) (s : State) : Host.Outcome State Fault Refusal := answer (symValue? s i) s

end Sys2Proof.Machine
end

