-- ==== Sys2Proof/Machine/Heap.lean ====
section
/-! DEFINITION. The Tree Builder's priority queue: the node order `less` (spec/00_scope.md rule R13) and the array
binary min-heap of node indices (spec/41_tree_builder.md rules R132 to R134). -/

namespace Sys2Proof.Machine

/-- `NODE[i].freq`; `none` where cell `i` holds no value (R42). -/
def nodeFreq? (node : List Node) (i : NodeIx) : Option Nat := (nodeAt? node i).map Node.freq

/-- The ordered key of R13: the frequency, then the node index. -/
def keyLess (fi : Nat) (i : NodeIx) (fj : Nat) (j : NodeIx) : Bool :=
  decide (fi < fj) || (decide (fi = fj) && decide (i.toNat < j.toNat))

/-- `less(i, j)` (R13), defined for cells that hold a value. -/
def less? (node : List Node) (i j : NodeIx) : Option Bool :=
  match nodeFreq? node i, nodeFreq? node j with
  | some fi, some fj => some (keyLess fi i fj j)
  | _, _ => none

/-- `less(HEAP[a], HEAP[b])`. -/
def cellLess? (node : List Node) (h : List NodeIx) (a b : Nat) : Option Bool :=
  match h[a]?, h[b]? with
  | some x, some y => less? node x y
  | _, _ => none

/-- `swap HEAP[a] and HEAP[b]`. -/
def swapCells (h : List NodeIx) (a b : Nat) : List NodeIx :=
  match h[a]?, h[b]? with
  | some x, some y => (h.set a y).set b x
  | _, _ => h

/-- The loop of `HEAP_INSERT` from position `k` (R132). The number is the loop's bound: each pass at least halves `k`,
so `k` passes are enough and at the bound `k = 0`. -/
def siftUp (node : List Node) : Nat → List NodeIx → Nat → Option (List NodeIx)
  | 0, h, _ => some h
  | bound + 1, h, k =>
    if k = 0 then some h
    else
      match cellLess? node h k ((k - 1) / 2) with
      | none => none
      | some false => some h
      | some true => siftUp node bound (swapCells h k ((k - 1) / 2)) ((k - 1) / 2)

/-- `if c < HEAP_N and less(HEAP[c], HEAP[t]): t <- c` (R133). -/
def lesserCell? (node : List Node) (h : List NodeIx) (t c : Nat) : Option Nat :=
  if c < h.length then
    match cellLess? node h c t with
    | none => none
    | some true => some c
    | some false => some t
  else some t

/-- The least of position `k` and its children `2k+1` and `2k+2`, the left child tested first (R133). -/
def leastOfThree? (node : List Node) (h : List NodeIx) (k : Nat) : Option Nat :=
  match lesserCell? node h k (2 * k + 1) with
  | none => none
  | some t => lesserCell? node h t (2 * k + 2)

/-- The loop of `HEAP_EXTRACT_MIN` from position `k` (R133). The number is the loop's bound: each pass at least doubles
`k`, so `HEAP_N` passes are enough and at the bound `k` has no child. -/
def siftDown (node : List Node) : Nat → List NodeIx → Nat → Option (List NodeIx)
  | 0, h, _ => some h
  | bound + 1, h, k =>
    match leastOfThree? node h k with
    | none => none
    | some t => if t = k then some h else siftDown node bound (swapCells h k t) t

/-- `HEAP_INSERT(x)` (R132). -/
def heapInsert (x : NodeIx) (s : State) : Except Fault State :=
  match siftUp s.session.node s.heap.length (s.heap ++ [x]) s.heap.length with
  | some h => .ok (s.setHeap h)
  | none => .error (.noValue .node)

/-- The heap after its root cell is removed: the last cell moves to the root and down (R133). -/
def removeRoot (node : List Node) (rest : List NodeIx) : Option (List NodeIx) :=
  match rest.getLast? with
  | none => some []
  | some x => siftDown node rest.length (x :: rest.dropLast) 0

/-- `HEAP_EXTRACT_MIN() -> m` (R133), defined for a heap that is not empty. -/
def heapExtractMin (s : State) : Except Fault (NodeIx × State) :=
  match s.heap with
  | [] => .error (.noValue .heap)
  | m :: rest =>
    match removeRoot s.session.node rest with
    | some h => .ok (m, s.setHeap h)
    | none => .error (.noValue .node)

end Sys2Proof.Machine
end

