-- ==== Sys2Proof/Machine/Builder.lean ====
section
/-! DEFINITION. The Tree Builder unit (spec/41_tree_builder.md rules R130 to R142): leaves, greedy merge, the
degenerate case, finishing. -/

namespace Sys2Proof.Machine

/-- `NODE[NNODES] <- n ; HEAP_INSERT(NNODES) ; NNODES <- NNODES + 1`: the next node cell is allocated and its index
enters the heap (R131, R135, R137). -/
def allocNode (n : Node) (s : State) : Except Fault State :=
  heapInsert (BitVec.ofNat 9 s.session.node.length) (s.setSession (s.session.setNode (s.session.node ++ [n])))

/-- One pass of `TB_LEAVES`: a leaf for the symbol `c` where it is a key (R131). -/
def tbLeaf (c : Symbol) (s : State) : Except Fault State :=
  if s.session.freq.read c = 0 then .ok s else allocNode (.leaf (s.session.freq.read c) c) s

/-- The passes of `TB_LEAVES` over the given symbols. -/
def tbLeafScan : List Symbol → State → Except Fault State
  | [], s => .ok s
  | c :: cs, s =>
    match tbLeaf c s with
    | .ok t => tbLeafScan cs t
    | .error f => .error f

/-- `TB_LEAVES`: NODE and HEAP are emptied, then the symbols are scanned in ascending order (R131). -/
def tbLeaves (s : State) : Except Fault State :=
  tbLeafScan allSymbols ((s.setSession (s.session.setNode [])).setHeap [])

/-- The internal node that merges `a` and `b`: the first removed, the lesser, is the left child (R135, R136). -/
def mergedNode? (node : List Node) (a b : NodeIx) : Option Node :=
  match nodeFreq? node a, nodeFreq? node b with
  | some fa, some fb => some (.internal (fa + fb) a b)
  | _, _ => none

/-- One pass of `TB_MERGE` (R135). -/
def tbMergePass (s : State) : Except Fault State :=
  match heapExtractMin s with
  | .error f => .error f
  | .ok (a, s1) =>
    match heapExtractMin s1 with
    | .error f => .error f
    | .ok (b, s2) =>
      match mergedNode? s2.session.node a b with
      | none => .error (.noValue .node)
      | some n => allocNode n s2

/-- `TB_MERGE`: passes while `HEAP_N > 1` (R135). The number is the loop's bound: each pass lowers `HEAP_N` by one. -/
def tbMerge : Nat → State → Except Fault State
  | 0, s => .ok s
  | bound + 1, s =>
    if s.heap.length ≤ 1 then .ok s
    else
      match tbMergePass s with
      | .ok t => tbMerge bound t
      | .error f => .error f

/-- `TB_WRAP`: the single leaf gets a synthetic parent with the leaf at the left position (R137). -/
def tbWrap (s : State) : Except Fault State :=
  match heapExtractMin s with
  | .error f => .error f
  | .ok (x, s1) =>
    match nodeFreq? s1.session.node x with
    | none => .error (.noValue .node)
    | some f => allocNode (.synth f x) s1

/-- `TB_FINISH`: `ROOT <- HEAP_EXTRACT_MIN() ; TREE_VALID <- 1` (R138). -/
def tbFinish (s : State) : Except Fault State :=
  match heapExtractMin s with
  | .error f => .error f
  | .ok (r, s1) => .ok (s1.setSession ((s1.session.setRoot r).setTreeValid true))

/-- What `TB_RUN` does once the leaves are in the heap: wrap a single leaf, else merge (R139). -/
def tbJoin (s : State) : Except Fault State :=
  if s.heap.length = 1 then tbWrap s else tbMerge s.heap.length s

/-- `TB_RUN` (R139). An empty table is refused: "a model that exposes the builder as a function on its own must make it
undefined (refuse ...) for the empty table, and must not return a tree" (R142). -/
def tbRun (s : State) : UnitEnd :=
  match tbLeaves s with
  | .error f => .fault f
  | .ok s1 =>
    if s1.heap.length = 0 then .refused .emptyTable
    else
      match tbJoin s1 with
      | .error f => .fault f
      | .ok s2 => UnitEnd.ofExcept (tbFinish s2)

end Sys2Proof.Machine
end

