-- ==== Sys2Proof/Machine/Counter.lean ====
section
/-! DEFINITION. The Frequency Counter unit (spec/40_frequency_counter.md rules R120 to R125). -/

namespace Sys2Proof.Machine

/-- `FREQ[c] <- FREQ[c] + 1`: exact addition, since no count overflows (R121, R123, log 6). -/
def bumpCount (freq : Table Nat) (c : Symbol) : Table Nat := freq.write c (freq.read c + 1)

/-- The table of a text: all cells 0, then one increment per symbol (R121). -/
def countText (text : List Symbol) : Table Nat := text.foldl bumpCount (Vector.replicate 256 0)

/-- `NSYMS`: the number of `s` with `FREQ[s] != 0`, computed from the finished table (R121, R122). -/
def countKeys (freq : Table Nat) : BitVec 9 := BitVec.ofNat 9 (keys freq).length

/-- `FC_RUN` (R121). -/
def fcRun (s : State) : State :=
  let freq := countText s.symIn
  s.setSession ((s.session.setFreq freq).setNsyms (countKeys freq))

end Sys2Proof.Machine
end

