-- ==== Sys2Proof/Machine/Decoder.lean ====
section
/-! DEFINITION. The Decoder unit (spec/44_decoder.md rules R170 to R177): a walk of the tree over the stream, with leaf
detection and symbol emission. -/

namespace Sys2Proof.Machine

/-- Where a bit leads from a node (R171, R173): `'0'` to the left child, any other bit value to the right child. -/
inductive Move where
  /-- A child. -/
  | to (i : NodeIx)
  /-- The missing right child of a synthetic root (R174). -/
  | missing
  /-- The node is a leaf: R171 says this cannot occur (U15). -/
  | atLeaf
  deriving DecidableEq, Repr

/-- The first `case` of `DEC_RUN` (R171). -/
def move (n : Node) (b : Bit) : Move :=
  match n with
  | .internal _ l r => if b = 0 then .to l else .to r
  | .synth _ l => if b = 0 then .to l else .missing
  | .leaf _ _ => .atLeaf

/-- The decoder's end with a malformed stream: `SLEN_OUT <- 0 ; raise ERR_BAD_STREAM` (R174, R175); the walk registers
hold no value afterwards (R36). -/
def badStream (s : State) : UnitEnd := .raised .badStream ((s.setSymOut []).setWalk none)

/-- The second `case` of `DEC_RUN` (R171, R172): arriving at a leaf emits its symbol and sets the walk back to the root;
any other node is walked on from. -/
def arrive (w : Walk) (nxt : NodeIx) (n : Node) (s : State) : State :=
  match n with
  | .leaf _ sym => (s.setSymOut (s.symOut ++ [sym])).setWalk (some ⟨s.session.root, .atRoot, w.j + 1⟩)
  | .internal _ _ _ => s.setWalk (some ⟨nxt, .inPath, w.j + 1⟩)
  | .synth _ _ => s.setWalk (some ⟨nxt, .inPath, w.j + 1⟩)

/-- One pass of the loop of `DEC_RUN` (R171) with the walk registers `w`. -/
def decBit (w : Walk) (s : State) : UnitEnd :=
  match s.bitBuf[w.j]? with
  | none => .fault (.noValue .bitBuf)
  | some b =>
    match nodeAt? s.session.node w.cur with
    | none => .fault (.noValue .node)
    | some n =>
      match move n b with
      | .atLeaf => .refused .walkAtLeaf
      | .missing => badStream s
      | .to nxt =>
        match nodeAt? s.session.node nxt with
        | none => .fault (.noValue .node)
        | some m => .done (arrive w nxt m s)

/-- One pass of the loop, reading the walk registers. -/
def decPass (s : State) : UnitEnd :=
  match s.walk with
  | none => .fault (.noValue .walk)
  | some w => decBit w s

/-- `for j in 0 .. BLEN-1`: as many passes as the number says (R171). -/
def decLoop : Nat → State → UnitEnd
  | 0, s => .done s
  | n + 1, s => (decPass s).andThen (decLoop n)

/-- After the last bit: in state IN_PATH the stream ended inside a code (R175); the walk registers are given up. -/
def decEnd (s : State) : UnitEnd :=
  match s.walk with
  | none => .fault (.noValue .walk)
  | some w =>
    match w.dstate with
    | .inPath => badStream s
    | .atRoot => .done (s.setWalk none)

/-- `DEC_RUN` (R171): `SLEN_OUT <- 0 ; cur <- ROOT ; dstate <- AT_ROOT`, the loop over the stream, the end test. -/
def decRun (s : State) : UnitEnd :=
  (decLoop s.bitBuf.length ((s.setSymOut []).setWalk (some ⟨s.session.root, .atRoot, 0⟩))).andThen decEnd

end Sys2Proof.Machine
end

