-- ==== Sys2Proof/Machine/Encoder.lean ====
section
/-! DEFINITION. The Encoder unit (spec/43_encoder.md rules R160 to R164): symbol lookup and bit-string concatenation. -/

namespace Sys2Proof.Machine

/-- The inner loop of `ENC_RUN` (R161): the bits of one code go to the end of the stream, each after the capacity test.
`BLEN == BIT_CAP` is written "the buffer is full" (log 7). -/
def encBits : List Bit → State → UnitEnd
  | [], s => .done s
  | b :: bs, s =>
    if s.cfg.bitCap ≤ s.bitBuf.length then .raised .capacity (s.setBitBuf [])
    else encBits bs (s.setBitBuf (s.bitBuf ++ [b]))

/-- One pass of the outer loop (R161): the lookup test of R162, then the bits of the code. -/
def encSymbol (c : Symbol) (s : State) : UnitEnd :=
  if (s.session.code.read c).length = 0 then .raised .noCode (s.setBitBuf [])
  else encBits (s.session.code.read c) s

/-- The outer loop of `ENC_RUN` over the given symbols. -/
def encText : List Symbol → State → UnitEnd
  | [], s => .done s
  | c :: cs, s => (encSymbol c s).andThen (encText cs)

/-- `ENC_RUN` (R161): the previous stream is discarded, then the codes are placed in input order. -/
def encRun (s : State) : UnitEnd := encText s.symIn (s.setBitBuf [])

end Sys2Proof.Machine
end

