-- ==== Sys2Proof/Machine/Generator.lean ====
section
/-! DEFINITION. The Code Generator unit (spec/42_code_generator.md rules R150 to R154): a depth-first walk of the tree
with an explicit stack. -/

namespace Sys2Proof.Machine

/-- `for s in 0 .. 255: CODE[s].len <- 0` (R151, R187, R192). -/
def emptyCode : Table (List Bit) := Vector.replicate 256 []

/-- `CODE[sym] <- p` (R151). -/
def recordCode (sym : Symbol) (p : List Bit) (s : State) : State :=
  s.setSession (s.session.setCode (s.session.code.write sym p))

/-- What one popped record does (R151): a leaf records its path, a non-leaf pushes its children, the right one first so
that the left one is popped first. The state given is the one after the pop. -/
def cgVisit (n : Node) (p : List Bit) (s : State) : State :=
  match n with
  | .leaf _ sym => recordCode sym p s
  | .internal _ l r => s.setCgStack (⟨l, p ++ [0]⟩ :: ⟨r, p ++ [1]⟩ :: s.cgStack)
  | .synth _ l => s.setCgStack (⟨l, p ++ [0]⟩ :: s.cgStack)

/-- The loop `while CG_SP > 0` (R151). The number is the loop's bound: exactly `NNODES` pops (R281). -/
def cgLoop : Nat → State → UnitEnd
  | bound, s =>
    match s.cgStack with
    | [] => .done s
    | top :: rest =>
      match bound with
      | 0 => .fault .loopBound
      | bound + 1 =>
        match nodeAt? s.session.node top.node with
        | none => .fault (.noValue .node)
        | some n => cgLoop bound (cgVisit n top.path (s.setCgStack rest))

/-- `CG_RUN` (R151), with the root-is-leaf arm of R152. -/
def cgRun (s : State) : UnitEnd :=
  let s0 := (s.setSession (s.session.setCode emptyCode)).setCgStack []
  match nodeAt? s.session.node s.session.root with
  | none => .fault (.noValue .node)
  | some (.leaf _ sym) => .done (recordCode sym [0] s0)
  | some _ => cgLoop s.session.node.length (s0.setCgStack [⟨s.session.root, []⟩])

end Sys2Proof.Machine
end

