-- ==== Sys2Proof/Machine/Run.lean ====
section
/-! DEFINITION. Running the units: `COMPRESS` and `DECOMPRESS` (spec/45_host_commands.md rules R192 and R193). -/

namespace Sys2Proof.Machine

/-- The previous tree, code table and stream are discarded (R192). -/
def discardOld (s : State) : State :=
  (s.setSession ((((s.session.setNode []).setRoot 0).setTreeValid false).setCode emptyCode)).setBitBuf []

/-- The units of `COMPRESS` in their order, with the short-circuit of the empty text (R192, R125). -/
def compressUnits (s : State) : UnitEnd :=
  let s1 := discardOld (fcRun s)
  if s.symIn.length = 0 then .done s1
  else ((tbRun s1).andThen cgRun).andThen encRun

/-- `COMPRESS` (R192): the response data is the new BLEN. -/
def execCompress (s : State) : Host.Outcome State Fault Refusal :=
  (compressUnits s).finish fun t => countWord t.bitBuf.length

/-- `DECOMPRESS` after `SLEN_OUT <- 0`: the guard of R176, then `DEC_RUN` (R193). -/
def decompressUnits (s : State) : UnitEnd :=
  if s.session.treeValid = false ∨ s.bitBuf.length = 0 then .done s else decRun s

/-- `DECOMPRESS` (R193): the response data is the new SLEN_OUT. -/
def execDecompress (s : State) : Host.Outcome State Fault Refusal :=
  (decompressUnits (s.setSymOut [])).finish fun t => countWord t.symOut.length

end Sys2Proof.Machine
end

