-- ==== Sys2Proof/Machine/Dispatch.lean ====
section
/-! DEFINITION. One arm per command: the meaning of each row of spec/opcode_table.json
(spec/45_host_commands.md rule R185). -/

namespace Sys2Proof.Machine

def exec (i : Instr) (s : State) : Host.Outcome State Fault Refusal :=
  match i with
  | .nop => Sys2Proof.Machine.execNop s
  | .reset => Sys2Proof.Machine.execReset s
  | .symClr => Sys2Proof.Machine.execSymClr s
  | .symPush v => Sys2Proof.Machine.execSymPush v s
  | .bitClr => Sys2Proof.Machine.execBitClr s
  | .bitPush b => Sys2Proof.Machine.execBitPush b s
  | .compress => Sys2Proof.Machine.execCompress s
  | .decompress => Sys2Proof.Machine.execDecompress s
  | .rdReg r => Sys2Proof.Machine.execRdReg r s
  | .rdFreq c => Sys2Proof.Machine.execRdFreq c s
  | .rdCodelen c => Sys2Proof.Machine.execRdCodelen c s
  | .rdCodebit c k => Sys2Proof.Machine.execRdCodebit c k s
  | .rdNodeFreq n => Sys2Proof.Machine.execRdNodeFreq n s
  | .rdNodeLink n => Sys2Proof.Machine.execRdNodeLink n s
  | .rdBit n => Sys2Proof.Machine.execRdBit n s
  | .rdSym n => Sys2Proof.Machine.execRdSym n s

end Sys2Proof.Machine
end

