-- ==== Sys2Proof/Machine/Step.lean ====
section
/-! DEFINITION. One step: the block takes the next host action from its ports and carries it out whole
(spec/45_host_commands.md rule R185, spec/30_encoding.md rule R106, spec/20_memory.md rule R72). -/

namespace Sys2Proof.Machine

/-- The command frame of R185: decode the word, answer an illegal one, run a legal one. -/
def runWord (w : Word) (s : State) : Host.Outcome State Fault Refusal :=
  match decode w with
  | some i => exec i s
  | none => illegal s

/-- One transaction (R8): a command word, a hardware reset (R260), or nothing presented. -/
def step (s : State) : Host.Outcome State Fault Refusal :=
  match takeAction s with
  | none => idle s
  | some (.command w, t) => runWord w t
  | some (.rst, t) => hardReset t

/-- The state in which the very next step fetches and runs the row word `w`: the host presents it next (log 2). -/
def State.withFetchWord (s : State) (nbits w : Nat) : State := presentWord s (tableWord nbits w)

end Sys2Proof.Machine
end

