-- ==== Sys2Proof/Machine/Script.lean ====
section
/-! DEFINITION. The script syntax of spec/30_encoding.md rule R101, an assembler for one line: a mnemonic in upper case,
operands separated by a comma and optional spaces, a comment from a semicolon to the end of the line (log 15). -/

namespace Sys2Proof.Machine

/-- A mnemonic as R93 spells it. -/
def mnemonicName : Mnemonic → String
  | .nop => "NOP"
  | .reset => "RESET"
  | .symClr => "SYM_CLR"
  | .symPush => "SYM_PUSH"
  | .bitClr => "BIT_CLR"
  | .bitPush => "BIT_PUSH"
  | .compress => "COMPRESS"
  | .decompress => "DECOMPRESS"
  | .rdReg => "RD_REG"
  | .rdFreq => "RD_FREQ"
  | .rdCodelen => "RD_CODELEN"
  | .rdCodebit => "RD_CODEBIT"
  | .rdNodeFreq => "RD_NODE_FREQ"
  | .rdNodeLink => "RD_NODE_LINK"
  | .rdBit => "RD_BIT"
  | .rdSym => "RD_SYM"

/-- The sixteen mnemonics in opcode order. -/
def allMnemonics : List Mnemonic := (List.range 16).map fun n => opMnemonic (BitVec.ofNat 4 n)

/-- The mnemonic a word of a script names. -/
def readMnemonic (word : List Char) : Option Mnemonic := allMnemonics.find? fun m => (mnemonicName m).toList == word

/-- The names of the status registers 0 to 9 (R33), which `RD_REG` may be written with. -/
def regNames : List String :=
  ["STATUS", "LAST_ERR", "SLEN_IN", "BLEN", "SLEN_OUT", "NSYMS", "NNODES", "ROOT", "TEXT_CAP", "BIT_CAP"]

/-- The number of a status register's name. -/
def readRegName (word : List Char) : Option Nat := regNames.findIdx? fun n => n.toList == word

/-- A digit in base 10 or 16. -/
def readDigit (base : Nat) (c : Char) : Option Nat :=
  let v :=
    if '0' ≤ c ∧ c ≤ '9' then c.toNat - '0'.toNat
    else if 'a' ≤ c ∧ c ≤ 'f' then c.toNat - 'a'.toNat + 10
    else if 'A' ≤ c ∧ c ≤ 'F' then c.toNat - 'A'.toNat + 10
    else base
  if v < base then some v else none

/-- Digits, the most significant first, after the value read so far. -/
def readDigits (base : Nat) : List Char → Nat → Option Nat
  | [], n => some n
  | c :: cs, n =>
    match readDigit base c with
    | none => none
    | some d => readDigits base cs (n * base + d)

/-- A decimal numeral or a `0x` hexadecimal numeral. -/
def readNumeral : List Char → Option Nat
  | [] => none
  | '0' :: 'x' :: d :: ds => readDigits 16 (d :: ds) 0
  | c :: cs => readDigits 10 (c :: cs) 0

/-- A token of a script line. -/
inductive Token where
  /-- A mnemonic, a numeral or a register name. -/
  | word (w : List Char)
  /-- A character in single quotes. -/
  | chr (c : Char)
  | comma
  deriving DecidableEq, Repr

/-- The word collected so far, if any, before the tokens that follow it. -/
def flushWord (word : List Char) (ts : List Token) : List Token :=
  if word.isEmpty then ts else .word word :: ts

/-- The tokens of a line, `word` being the word collected so far. -/
def lexLine : List Char → List Char → Option (List Token)
  | [], word => some (flushWord word [])
  | '\'' :: c :: '\'' :: cs, word => (lexLine cs []).map fun ts => flushWord word (.chr c :: ts)
  | ';' :: _, word => some (flushWord word [])
  | ' ' :: cs, word => (lexLine cs []).map (flushWord word)
  | ',' :: cs, word => (lexLine cs []).map fun ts => flushWord word (.comma :: ts)
  | c :: cs, word => if c = '\'' then none else lexLine cs (word ++ [c])

/-- The operands after a mnemonic: tokens separated by commas. -/
def splitOperands : List Token → Option (List Token)
  | [] => some []
  | [t] => if t = .comma then none else some [t]
  | t :: .comma :: ts => if t = .comma ∨ ts = [] then none else (splitOperands ts).map (t :: ·)
  | _ :: _ :: _ => none

/-- The value of an operand of a mnemonic: a numeral; for a symbol operand also a character, meaning its ASCII value;
for `RD_REG` also a register name. `pos` is the operand's position. -/
def readOperand (m : Mnemonic) (pos : Nat) : Token → Option Nat
  | .comma => none
  | .chr c =>
    if pos = 0 ∧ (m = .symPush ∨ m = .rdFreq ∨ m = .rdCodelen ∨ m = .rdCodebit) ∧ c.toNat < 128 then some c.toNat
    else none
  | .word w => if m = .rdReg then (readRegName w).orElse fun _ => readNumeral w else readNumeral w

/-- The values of the operands from a position on. -/
def readOperands (m : Mnemonic) : Nat → List Token → Option (List Nat)
  | _, [] => some []
  | pos, t :: ts =>
    match readOperand m pos t with
    | none => none
    | some v => (readOperands m (pos + 1) ts).map (v :: ·)

/-- A line of a script: `some none` is a line without a command, `none` a line that is refused. -/
def parseLine (line : String) : Option (Option RawCommand) :=
  match lexLine line.toList [] with
  | none => none
  | some [] => some none
  | some (.word w :: ts) =>
    match readMnemonic w, splitOperands ts with
    | some m, some ops => (readOperands m 0 ops).map fun vs => some ⟨m, vs⟩
    | _, _ => none
  | some _ => none

/-- The assembler: the word of a line's command, refused where an operand does not fit its subfield. -/
def assemble (line : String) : Option Word :=
  match parseLine line with
  | some (some c) => c.toInstr?.map encode
  | _ => none

end Sys2Proof.Machine
end

