-- ==== Sys2Proof/Machine/Wrapper.lean ====
section
/-! DEFINITION. Outside the block, over its step: one transaction of the command port (spec/30_encoding.md rule R106),
the character adapter (spec/20_memory.md rule R67), the pseudo-commands (R103) and the six operations of lab04 as
command sequences (R105). Nothing here adds behaviour to the block (log 15). -/

namespace Sys2Proof.Machine

/-! ### The character adapter (R67) -/

/-- `char_of_bit(b) = 0x30 + b`. -/
def charOfBit (b : Bit) : Symbol := 0x30 + b.setWidth 8

/-- `bit_of_char(c) = 0 if c == 0x30 else 1`. -/
def bitOfChar (c : Symbol) : Bit := if c = 0x30 then 0 else 1

/-! ### Transactions (R8, R106) -/

/-- The host presents a word and takes the response and the state after it; `none` where the step stops or gives no
response. -/
def transact (w : Word) (s : State) : Option (Response × State) :=
  match step (presentWord s w) with
  | .next t => t.rsp.map fun r => (r, t)
  | .fault _ => none
  | .refused _ => none

/-- The host issues a command. -/
def issue (i : Instr) (s : State) : Option (Response × State) := transact (encode i) s

/-- The host issues commands in order. -/
def issueAll : List Instr → State → Option (List Response × State)
  | [], s => some ([], s)
  | i :: is, s =>
    match issue i s with
    | none => none
    | some (r, t) => (issueAll is t).map fun p => (r :: p.1, p.2)

/-! ### Pseudo-commands (R103) -/

/-- `LOAD_TEXT`. -/
def loadText (text : List Symbol) : List Instr := .symClr :: text.map .symPush

/-- `LOAD_BITS`. -/
def loadBits (bits : List Bit) : List Instr := .bitClr :: bits.map .bitPush

/-- `LOAD_CHARS`. -/
def loadChars (chars : List Symbol) : List Instr := .bitClr :: chars.map fun c => .bitPush (bitOfChar c)

/-- A host loop: a read that gives the number `n`, then the reads of cells `0 .. n-1`. -/
def readCells (count : Instr) (cell : Nat → Instr) (s : State) : Option (List Word × State) :=
  match issue count s with
  | none => none
  | some (r, t) =>
    (issueAll ((List.range r.data.toNat).map cell) t).map fun p => (p.1.map Response.data, p.2)

/-- `READ_BITS`: `RD_REG BLEN` giving n, then `RD_BIT 0 .. n-1`. -/
def readBits (s : State) : Option (List Bit × State) :=
  (readCells (.rdReg 3) (fun i => .rdBit (BitVec.ofNat 28 i)) s).map fun p => (p.1.map (BitVec.setWidth 1), p.2)

/-- `READ_TEXT`: `RD_REG SLEN_OUT` giving n, then `RD_SYM 0 .. n-1`. -/
def readText (s : State) : Option (List Symbol × State) :=
  (readCells (.rdReg 4) (fun i => .rdSym (BitVec.ofNat 28 i)) s).map fun p => (p.1.map (BitVec.setWidth 8), p.2)

/-- `READ_CODE s`: `RD_CODELEN s` giving n, then `RD_CODEBIT s,0 .. s,n-1`. -/
def readCode (c : Symbol) (s : State) : Option (List Bit × State) :=
  (readCells (.rdCodelen c) (fun k => .rdCodebit c (BitVec.ofNat 8 k)) s).map fun p => (p.1.map (BitVec.setWidth 1), p.2)

/-! ### The six operations (R105) -/

/-- What a wrapper reports to its caller: a result, or a status other than `OK` (R105, R274). -/
inductive OpResult (α : Type) where
  | value (a : α)
  | error (e : Status)
  deriving DecidableEq, Repr

/-- The first status of a list of responses that is not `OK` (R274, log 15). -/
def firstError : List Response → Option Status
  | [] => none
  | r :: rs => if r.status = .ok then firstError rs else some r.status

/-- A load, a run and a read-out: the sequence of `compress(text)` and of `decompress(bitString)` (R105). -/
def loadRunRead {α : Type} (load : List Instr) (run : Instr) (read : State → Option (α × State)) (s : State) :
    Option (OpResult α × State) :=
  match issueAll (load ++ [run]) s with
  | none => none
  | some (rs, t) =>
    match firstError rs with
    | some e => some (.error e, t)
    | none => (read t).map fun p => (.value p.1, p.2)

/-- `compress(text) -> bitString`: `LOAD_TEXT text ; COMPRESS ; READ_BITS`, then `char_of_bit` on each bit. -/
def compressOp (text : List Symbol) (s : State) : Option (OpResult (List Symbol) × State) :=
  loadRunRead (loadText text) .compress (fun t => (readBits t).map fun p => (p.1.map charOfBit, p.2)) s

/-- `decompress(bitString) -> text`: `LOAD_CHARS bitString ; DECOMPRESS ; READ_TEXT`. -/
def decompressOp (chars : List Symbol) (s : State) : Option (OpResult (List Symbol) × State) :=
  loadRunRead (loadChars chars) .decompress readText s

/-- A read of every symbol in turn, keeping the entries that are there. -/
def readTable {α : Type} (read : Symbol → State → Option (Option α × State)) :
    List Symbol → State → Option (List (Symbol × α) × State)
  | [], s => some ([], s)
  | c :: cs, s =>
    match read c s with
    | none => none
    | some (v, t) =>
      (readTable read cs t).map fun p => ((v.toList.map fun a => (c, a)) ++ p.1, p.2)

/-- `getCodeTable()`: the entries are the symbols whose code has length >= 1. -/
def getCodeTable (s : State) : Option (List (Symbol × List Bit) × State) :=
  readTable (fun c t => (readCode c t).map fun p => (if p.1.isEmpty then none else some p.1, p.2)) allSymbols s

/-- `getFrequencyTable()`: the entries are the symbols whose count is >= 1. -/
def getFrequencyTable (s : State) : Option (List (Symbol × Word) × State) :=
  readTable (fun c t => (issue (.rdFreq c) t).map fun p => (if p.1.data = 0 then none else some p.1.data, p.2)) allSymbols s

/-- `getTreeRoot() -> Node or absent`: bit 31 of `RD_REG ROOT` clear is "absent". -/
def getTreeRoot (s : State) : Option (Option NodeIx × State) :=
  (issue (.rdReg 7) s).map fun p =>
    (if p.1.data.extractLsb' 31 1 = 1 then some (p.1.data.extractLsb' 0 9) else none, p.2)

/-- A tree as a host sees it. -/
inductive HostTree where
  | leaf (freq : Word) (sym : Symbol)
  | internal (freq : Word) (left right : HostTree)
  | synth (freq : Word) (left : HostTree)
  deriving DecidableEq, Repr

/-- The walk of the tree from a node with `RD_NODE_FREQ` and `RD_NODE_LINK` (R99); the number bounds the depth. -/
def walkTree : Nat → NodeIx → State → Option (HostTree × State)
  | 0, _, _ => none
  | depth + 1, i, s =>
    match issueAll [.rdNodeFreq i, .rdNodeLink i] s with
    | some ([f, l], t) =>
      if f.status ≠ .ok ∨ l.status ≠ .ok then none
      else
        match (l.data.extractLsb' 30 2).toNat with
        | 0 => some (.leaf f.data (l.data.extractLsb' 0 8), t)
        | 1 =>
          match walkTree depth (l.data.extractLsb' 0 9) t with
          | none => none
          | some (a, u) => (walkTree depth (l.data.extractLsb' 16 9) u).map fun p => (.internal f.data a p.1, p.2)
        | 2 => (walkTree depth (l.data.extractLsb' 0 9) t).map fun p => (.synth f.data p.1, p.2)
        | _ => none
    | _ => none

/-- `getTreeRoot()` with the whole tree read out, "for inspection/visualization". -/
def getTree (s : State) : Option (Option HostTree × State) :=
  match getTreeRoot s with
  | none => none
  | some (none, t) => some (none, t)
  | some (some r, t) => (walkTree nodeCap r t).map fun p => (some p.1, p.2)

/-- `reset()`. -/
def resetOp (s : State) : Option (Response × State) := issue .reset s

end Sys2Proof.Machine
end

