-- ==== Sys2Proof/Safety.lean ====
section
/-! DEFINITION. What claims about HUFFCORE are stated in: the tree a table builds (spec/10_state.md rules R24 to R26),
the code table of a tree (R27, R28), the two conditions of a session (R41), optimality of a code (R143), the heap order of
spec/41_tree_builder.md rule R134, and the invariant of every state a run from reset reaches. -/

namespace Sys2Proof.Machine

/-- The outcome is a next state: the block has answered, and neither a fault nor a refusal stopped the model (R230). -/
def Answers (o : Host.Outcome State Fault Refusal) : Prop := ∃ t, o = .next t

/-! ### Trees in node memory -/

/-- The children of a record, left before right (R23). -/
def Node.children : Node → List NodeIx
  | .leaf _ _ => []
  | .internal _ l r => [l, r]
  | .synth _ l => [l]

/-- The record is a leaf. -/
def Node.isLeaf : Node → Bool
  | .leaf _ _ => true
  | .internal _ _ _ => false
  | .synth _ _ => false

/-- The children of all cells, in cell order. -/
def childrenOf (node : List Node) : List NodeIx := node.flatMap Node.children

/-- The walk from cell `i` along a bit string, 0 to the left child and 1 to the right (R28 (b), R64): where it arrives,
or `none` where it would leave a leaf, take a missing child or meet a cell that holds no value. -/
def walkPath (node : List Node) : NodeIx → List Bit → Option NodeIx
  | i, [] => some i
  | i, b :: p =>
    match nodeAt? node i with
    | none => none
    | some n =>
      match move n b with
      | .to j => walkPath node j p
      | .missing => none
      | .atLeaf => none

/-- The bit string `p` is a root-to-leaf path to a leaf of symbol `c` (R28 (b)). -/
def PathTo (node : List Node) (root : NodeIx) (c : Symbol) (p : List Bit) : Prop :=
  ∃ i f, walkPath node root p = some i ∧ nodeAt? node i = some (.leaf f c)

/-- The sum of all counts of a table (R124). -/
def freqSum (freq : Table Nat) : Nat := (allSymbols.map freq.read).sum

/-- One leaf per key in ascending order of symbol, with the key's count (R26 (b), R131). -/
def leavesOf (freq : Table Nat) : List Node := (keys freq).map fun c => .leaf (freq.read c) c

/-- What R26 (b) and (c) say of the record `n` at a cell `p` that is not one of the first `NSYMS` cells. -/
def InnerRecord (freq : Table Nat) (node : List Node) (p : Nat) : Node → Prop
  | .leaf _ _ => False
  | .internal f l r =>
    (keys freq).length ≠ 1 ∧ l.toNat < p ∧ r.toNat < p ∧ l ≠ r ∧
      ∃ fl fr, nodeFreq? node l = some fl ∧ nodeFreq? node r = some fr ∧ f = fl + fr
  | .synth f l => (keys freq).length = 1 ∧ l = 0 ∧ nodeFreq? node 0 = some f

/-- `NODE`, `NNODES` and `ROOT` are a tree for the frequency table: R24, R26 (a) to (f), and the root's frequency. -/
structure TreeFor (freq : Table Nat) (node : List Node) (root : NodeIx) : Prop where
  /-- The table is not empty (R130). -/
  nonempty : keys freq ≠ []
  /-- `NNODES == 2n - 1` when `n >= 2`, `NNODES == 2` when `n == 1` (R24, R140). -/
  count : node.length = if (keys freq).length = 1 then 2 else 2 * (keys freq).length - 1
  /-- Cells `0 .. NSYMS-1` are the leaves (R26 (b)). -/
  leaves : node.take (keys freq).length = leavesOf freq
  /-- Every other cell is internal or the synthetic root (R26 (b), (c)). -/
  inner : ∀ p n, (keys freq).length ≤ p → node[p]? = some n → InnerRecord freq node p n
  /-- Every cell other than the root is the child of exactly one cell (R26 (d)). -/
  owned : ((childrenOf node).map BitVec.toNat).Perm (List.range (node.length - 1))
  /-- `ROOT == NNODES - 1` (R25, R140). -/
  root_last : root.toNat + 1 = node.length
  /-- `NODE[ROOT].freq` is the sum of all `FREQ[s]` (R140). -/
  root_freq : nodeFreq? node root = some (freqSum freq)

/-- The code table of a tree (R28 (a), (b)). -/
structure CodeFor (freq : Table Nat) (node : List Node) (root : NodeIx) (code : Table (List Bit)) : Prop where
  /-- `CODE[s].len != 0` exactly when `FREQ[s] != 0` (R28 (a)). -/
  entry : ∀ c, code.read c ≠ [] ↔ freq.read c ≠ 0
  /-- The code of `s` is the root-to-leaf path of the leaf that holds `s` (R28 (b)). -/
  path : ∀ c, code.read c ≠ [] → PathTo node root c (code.read c)

/-- The session condition "built" of R41 for some text: R22, R25, R26 and R28 (a), (b) hold. -/
structure Session.Built (x : Session) : Prop where
  valid : x.treeValid = true
  nsyms : x.nsyms = countKeys x.freq
  tree : TreeFor x.freq x.node x.root
  code : CodeFor x.freq x.node x.root x.code

/-- The session is built for the text: FREQ counts its symbols (R124). -/
def Session.BuiltFor (x : Session) (text : List Symbol) : Prop := x.freq = countText text ∧ x.Built

/-! ### What a command leaves -/

/-- The state after `respond(OK, d)` where nothing else of `s` changes (R12, R185). -/
def State.answered (s : State) (d : Word) : State := { s with rsp := some ⟨.ok, d⟩ }

/-- The state after `raise e` where nothing else of `s` changes (R185, R239 (b), (c)). -/
def State.failed (s : State) (e : Status) : State := { s with lastErr := e, rsp := some ⟨e, 0⟩ }

/-- The eight read commands of spec/45_host_commands.md section 3. -/
def isRead : Instr → Bool
  | .nop | .reset | .symClr | .symPush _ | .bitClr | .bitPush _ | .compress | .decompress => false
  | .rdReg _ | .rdFreq _ | .rdCodelen _ | .rdCodebit _ _ | .rdNodeFreq _ | .rdNodeLink _ | .rdBit _ | .rdSym _ => true

/-- The statuses a decoded command can answer (the column "commands that can produce it" of R231, and its last sentence).
`ERR_NO_CODE` stands for no command: "unreachable" (R162, R235). -/
def canAnswer : Instr → List Status
  | .nop | .reset | .symClr | .bitClr | .rdFreq _ | .rdCodelen _ => [.ok]
  | .symPush _ | .bitPush _ | .compress => [.ok, .capacity]
  | .decompress => [.ok, .badStream]
  | .rdReg _ | .rdCodebit _ _ | .rdNodeFreq _ | .rdNodeLink _ | .rdBit _ | .rdSym _ => [.ok, .range]

/-- The concatenation of the codes of a text, in input order (R160). -/
def codesOf (code : Table (List Bit)) (text : List Symbol) : List Bit := text.flatMap code.read

/-! ### Optimality of a code (R143) -/

/-- A prefix code for a table (R143): every key has a string, not empty since a code of length 0 is "no entry" (R27, log 16), and
"no code is a prefix of another" (R28 (c)). -/
structure PrefixCodeFor (freq : Table Nat) (code : Symbol → List Bit) : Prop where
  /-- Every key has a code. -/
  entry : ∀ c, freq.read c ≠ 0 → code c ≠ []
  /-- No key's code begins another's. -/
  free : ∀ c d, freq.read c ≠ 0 → freq.read d ≠ 0 → c ≠ d → ¬ code c <+: code d

/-- The sum over `s` of `FREQ[s] * CODE[s].len` (R143, R164). -/
def codeCost (freq : Table Nat) (code : Symbol → List Bit) : Nat :=
  (allSymbols.map fun c => freq.read c * (code c).length).sum

/-- The code is optimal for the table (R143): a prefix code that "among all prefix codes for the table [...] minimises the sum". -/
def OptimalFor (freq : Table Nat) (code : Symbol → List Bit) : Prop :=
  PrefixCodeFor freq code ∧ ∀ other : Symbol → List Bit, PrefixCodeFor freq other → codeCost freq code ≤ codeCost freq other

/-! ### The builder without a heap (R134) -/

/-- The least index of a pool under `less` (R13), found by a scan. -/
def leastOf (node : List Node) : List NodeIx → Option NodeIx
  | [] => none
  | x :: xs =>
    match leastOf node xs with
    | none => some x
    | some y => if less? node x y = some true then some x else some y

/-- The greedy merge over a pool of indices without a heap: the two least are removed, the lesser goes left (R135, R136). -/
def refMerge : Nat → List Node → List NodeIx → List Node
  | 0, node, _ => node
  | n + 1, node, pool =>
    match leastOf node pool with
    | none => node
    | some a =>
      match leastOf node (pool.erase a) with
      | none => node
      | some b =>
        match mergedNode? node a b with
        | none => node
        | some m => refMerge n (node ++ [m]) (BitVec.ofNat 9 node.length :: (pool.erase a).erase b)

/-- The node memory of a table: "a model may replace the array by any structure that returns the `less`-minimum and obtain
the same NODE, ROOT and CODE" (R134). -/
def refBuild (freq : Table Nat) : List Node :=
  if (keys freq).length = 1 then
    (keys freq).flatMap fun c => [.leaf (freq.read c) c, .synth (freq.read c) 0]
  else
    refMerge ((keys freq).length - 1) (leavesOf freq) ((List.range (keys freq).length).map (BitVec.ofNat 9))

/-! ### The worked example of the spec -/

/-- The text `"aaaabbc"` (R121). -/
def exampleText : List Symbol := [0x61, 0x61, 0x61, 0x61, 0x62, 0x62, 0x63]

/-- The session `COMPRESS` builds for it (R121, R139, R155). -/
def exampleSession : Session where
  freq := ((Table.write (Vector.replicate 256 0) 0x61 4).write 0x62 2).write 0x63 1
  nsyms := 3
  node := [.leaf 4 0x61, .leaf 2 0x62, .leaf 1 0x63, .internal 3 2 1, .internal 7 3 0]
  root := 4
  treeValid := true
  code := ((emptyCode.write 0x61 [1]).write 0x62 [0, 1]).write 0x63 [0, 0]

/-- The stream of the example, `"1111010100"` (R161, R165). -/
def exampleStream : List Bit := [1, 1, 1, 1, 0, 1, 0, 1, 0, 0]

/-! ### The heap order -/

/-- The cells of the heap name cells of NODE that hold a value, and no cell twice (R134). -/
def HeapIndices (node : List Node) (h : List NodeIx) : Prop := (∀ x ∈ h, x.toNat < node.length) ∧ h.Nodup

/-- The heap invariant of R134: for `1 <= k < HEAP_N`, `not less(HEAP[k], HEAP[(k-1) >> 1])`. -/
def HeapOrdered (node : List Node) (h : List NodeIx) : Prop :=
  ∀ k, 1 ≤ k → k < h.length → cellLess? node h k ((k - 1) / 2) = some false

/-! ### The invariant -/

/-- The scratch holds no value between commands (R42, R34 to R36). -/
def State.Idle (s : State) : Prop := s.heap = [] ∧ s.cgStack = [] ∧ s.walk = none

/-- The session is "nothing built", or built for a text of at most TEXT_CAP symbols (R41, R26 (g)). -/
def Session.Wf (cfg : Config) (x : Session) : Prop :=
  x = Session.nothing ∨ (x.Built ∧ freqSum x.freq ≤ cfg.textCap)

/-- The invariant of the states that a run from reset reaches: every buffer within its cells, the scratch idle, the
session in one of its two conditions (R20, R42, R41, R60). -/
structure State.Inv (s : State) : Prop where
  memory : Memory.wf s
  idle : s.Idle
  session : s.session.Wf s.cfg

end Sys2Proof.Machine
end

