-- ==== Sys2Proof/Certificates/Slice0/Obligations.lean ====
section
/-! DEFINITION. The statements for the provers, from the numbered rules of spec/. `exec i s = .next t` names the whole next
state `t`, so each such statement says what the command leaves unchanged as well: everything `t` does not list, and no other
cell of any space. -/

section

open Sys2Proof Sys2Proof.Machine

/-! ### The command word -/

/-- R90 to R94: the decoder reads back every command that the encoder writes, every operand at every value. -/
def Obligations.EncodeThenDecode : Prop := ∀ i : Instr, i.wellFormed = true ∧ decode (encode i) = some i

/-- R90 to R94: a word that decodes is the word of what it decodes to, so no two words decode to one command. -/
def Obligations.DecodeThenEncode : Prop := ∀ (w : Word) (i : Instr), decode w = some i → encode i = w

/-- R93: at most one row matches a word, and where a row matches the decoder gives that row's command. -/
def Obligations.WordSelectsAtMostOneRow : Prop :=
  ∀ (w : Word) (m : Mnemonic), m.selects w →
    (∀ m' : Mnemonic, m'.selects w → m' = m) ∧ decode w = some (m.withOperands w)

/-- R94, R232: the decoder is total, a word is illegal exactly when it matches no row, which is exactly when a bit of `arg` above
its format's operand is 1, and an illegal word is answered `ERR_ILLEGAL_CMD` and changes no state but LAST_ERR. -/
def Obligations.IllegalExactlyWhenReservedBitSet : Prop :=
  ∀ w : Word,
    (∀ m : Mnemonic, m = opMnemonic (w.extractLsb' 28 4) →
      decode w = if w &&& m.mask = m.matchWord then some (m.withOperands w) else none) ∧
    (decode w = none ↔ ∀ m : Mnemonic, ¬m.selects w) ∧
    (decode w = none ↔
      ∃ k, k < 28 ∧ (opMnemonic (w.extractLsb' 28 4)).format.widths.sum ≤ k ∧ w.getLsbD k = true) ∧
    (decode w = none → ∀ (s : State) (rest : List HostAction), s.host = .command w :: rest →
      step s = .next ({ s with host := rest }.failed .illegalCmd))

/-- R91, R93, R101: words written out from the table of R93 and the examples of R101. -/
def Obligations.WrittenOutWordsDecode : Prop :=
  decode 0x00000000 = some .nop ∧ decode 0x10000000 = some .reset ∧ decode 0x20000000 = some .symClr ∧
    decode 0x30000061 = some (.symPush 0x61) ∧ decode 0x40000000 = some .bitClr ∧
    decode 0x50000001 = some (.bitPush 1) ∧ decode 0x60000000 = some .compress ∧
    decode 0x70000000 = some .decompress ∧ decode 0x80000007 = some (.rdReg 7) ∧
    decode 0x90000064 = some (.rdFreq 0x64) ∧ decode 0xA0000063 = some (.rdCodelen 0x63) ∧
    decode 0xB0000162 = some (.rdCodebit 0x62 1) ∧ decode 0xC0000004 = some (.rdNodeFreq 4) ∧
    decode 0xD0000004 = some (.rdNodeLink 4) ∧ decode 0xE0000009 = some (.rdBit 9) ∧
    decode 0xF0000006 = some (.rdSym 6)

/-! ### The step and reset -/

/-- R185, R106: where the host presents a word that decodes to `i`, the step is `exec i` in the state in which the word has
been accepted; the step adds nothing else. The host list is the model's own field (log 2, DESIGN CHOICE). -/
def Obligations.StepRunsPresentedCommand : Prop :=
  ∀ (s : State) (w : Word) (i : Instr) (rest : List HostAction), s.host = .command w :: rest → decode w = some i →
    step s = exec i { s with host := rest }

/-- Log 2: `withFetchWord` makes the very next step run the row's instruction, in the very state it was given. -/
def Obligations.FetchWordRunsNext : Prop :=
  ∀ (s : State) (nbits w : Nat) (i : Instr), decodeTableWord nbits w = some i → step (s.withFetchWord nbits w) = exec i s

/-- R43: the value of every piece of state after hardware reset and after `RESET`; the block is ready: whatever word is
presented next, it is answered. -/
def Obligations.ResetStateValues : Prop :=
  ∀ s t : State, (exec .reset s = .next t ∨ (∃ rest, s.host = .rst :: rest) ∧ step s = .next t ∨ t = State.reset) →
    (∀ c, t.session.freq.read c = 0) ∧ t.session.nsyms = 0 ∧ t.session.node = [] ∧ t.session.root = 0 ∧
      t.session.treeValid = false ∧ (∀ c, t.session.code.read c = []) ∧ t.symIn = [] ∧ t.bitBuf = [] ∧ t.symOut = [] ∧
      t.lastErr = .ok ∧ t.heap = [] ∧ t.cgStack = [] ∧ t.walk = none ∧
      ∀ (w : Word) (rest : List HostAction), Answers (step { t with host := .command w :: rest })

/-! ### Session control and loading -/

/-- R186. -/
def Obligations.NopChangesNothing : Prop :=
  ∀ s : State, exec .nop s = .next (s.answered 0) ∧ encode .nop = 0x00000000 ∧
    (∀ w : Word, opField w = 0 → w ≠ 0 → decode w = none)

/-- R187, R261: the state after `RESET`, the same state after hardware reset but for the response, and `DECOMPRESS` after
`RESET`, whatever has been pushed. -/
def Obligations.ResetReachesResetState : Prop :=
  ∀ (s : State) (rest : List HostAction), exec .reset s = .next ({ State.reset with cfg := s.cfg, host := s.host }.answered 0) ∧
    encode .reset = 0x10000000 ∧
    (s.host = .rst :: rest → step s = .next { State.reset with cfg := s.cfg, host := rest }) ∧
    (s.session = State.reset.session → exec .decompress s = .next ({ s with symOut := [] }.answered 0))

/-- R188. -/
def Obligations.SymClrEmptiesText : Prop :=
  ∀ s : State, exec .symClr s = .next ({ s with symIn := [] }.answered 0) ∧ encode .symClr = 0x20000000

/-- R189. -/
def Obligations.SymPushAppendsSymbol : Prop :=
  ∀ (s : State) (v : Symbol),
    (s.symIn.length < s.cfg.textCap →
      exec (.symPush v) s = .next ({ s with symIn := s.symIn ++ [v] }.answered (BitVec.ofNat 32 (s.symIn.length + 1)))) ∧
    (s.symIn.length = s.cfg.textCap → exec (.symPush v) s = .next (s.failed .capacity)) ∧
    encode (.symPush v) = 0x30000000 ||| v.setWidth 32 ∧ decode 0x30000161 = none

/-- R190. -/
def Obligations.BitClrEmptiesStream : Prop :=
  ∀ s : State, exec .bitClr s = .next ({ s with bitBuf := [] }.answered 0) ∧ encode .bitClr = 0x40000000

/-- R191. -/
def Obligations.BitPushAppendsBit : Prop :=
  ∀ (s : State) (b : Bit),
    (s.bitBuf.length < s.cfg.bitCap →
      exec (.bitPush b) s =
        .next ({ s with bitBuf := s.bitBuf ++ [b] }.answered (BitVec.ofNat 32 (s.bitBuf.length + 1)))) ∧
    (s.bitBuf.length = s.cfg.bitCap → exec (.bitPush b) s = .next (s.failed .capacity)) ∧
    encode (.bitPush b) = 0x50000000 ||| b.setWidth 32 ∧ decode 0x50000002 = none

/-! ### Reading state -/

/-- R194, the register file of R33, and the status codes of R98 that register 1 shows. -/
def Obligations.RdRegAnswersRegister : Prop :=
  ∀ s : State,
    exec (.rdReg 0) s = .next (s.answered (if s.session.treeValid then 1 else 0)) ∧
    exec (.rdReg 1) s = .next (s.answered (s.lastErr.code.setWidth 32)) ∧
    (Status.code .ok = 0 ∧ Status.code .illegalCmd = 1 ∧ Status.code .range = 2 ∧ Status.code .capacity = 3 ∧
      Status.code .noCode = 4 ∧ Status.code .badStream = 5) ∧
    exec (.rdReg 2) s = .next (s.answered (BitVec.ofNat 32 s.symIn.length)) ∧
    exec (.rdReg 3) s = .next (s.answered (BitVec.ofNat 32 s.bitBuf.length)) ∧
    exec (.rdReg 4) s = .next (s.answered (BitVec.ofNat 32 s.symOut.length)) ∧
    exec (.rdReg 5) s = .next (s.answered (s.session.nsyms.setWidth 32)) ∧
    exec (.rdReg 6) s = .next (s.answered (BitVec.ofNat 32 s.session.node.length)) ∧
    (s.session.treeValid = true →
      exec (.rdReg 7) s = .next (s.answered (0x80000000 ||| s.session.root.setWidth 32))) ∧
    (s.session.treeValid = false → s.Inv → exec (.rdReg 7) s = .next (s.answered 0)) ∧
    exec (.rdReg 8) s = .next (s.answered (BitVec.ofNat 32 s.cfg.textCap)) ∧
    exec (.rdReg 9) s = .next (s.answered (BitVec.ofNat 32 s.cfg.bitCap)) ∧
    (∀ r : BitVec 4, 9 < r.toNat → exec (.rdReg r) s = .next (s.failed .range)) ∧
    (∀ r : BitVec 4, encode (.rdReg r) = 0x80000000 ||| r.setWidth 32) ∧
    (s.session = exampleSession → s.bitBuf = exampleStream →
      exec (.rdReg 7) s = .next (s.answered 0x80000004) ∧ exec (.rdReg 6) s = .next (s.answered 5) ∧
        exec (.rdReg 5) s = .next (s.answered 3) ∧ exec (.rdReg 3) s = .next (s.answered 10))

/-- R195. In a state with the invariant the answer is the whole count, with no bit lost. -/
def Obligations.RdFreqAnswersCount : Prop :=
  ∀ (s : State) (c : Symbol),
    exec (.rdFreq c) s = .next (s.answered (BitVec.ofNat 32 (s.session.freq.read c))) ∧
    (s.Inv → (BitVec.ofNat 32 (s.session.freq.read c)).toNat = s.session.freq.read c) ∧
    encode (.rdFreq c) = 0x90000000 ||| c.setWidth 32 ∧
    (s.session = Session.nothing → exec (.rdFreq c) s = .next (s.answered 0)) ∧
    (s.session = exampleSession →
      exec (.rdFreq 0x61) s = .next (s.answered 4) ∧ exec (.rdFreq 0x64) s = .next (s.answered 0))

/-- R196. -/
def Obligations.RdCodelenAnswersLength : Prop :=
  ∀ (s : State) (c : Symbol),
    exec (.rdCodelen c) s = .next (s.answered (BitVec.ofNat 32 (s.session.code.read c).length)) ∧
    encode (.rdCodelen c) = 0xA0000000 ||| c.setWidth 32 ∧
    (s.session = Session.nothing → exec (.rdCodelen c) s = .next (s.answered 0)) ∧
    (s.session = exampleSession →
      exec (.rdCodelen 0x61) s = .next (s.answered 1) ∧ exec (.rdCodelen 0x63) s = .next (s.answered 2) ∧
        exec (.rdCodelen 0x64) s = .next (s.answered 0))

/-- R197. -/
def Obligations.RdCodebitAnswersBit : Prop :=
  ∀ (s : State) (c : Symbol) (k : BitVec 8),
    (∀ h : k.toNat < (s.session.code.read c).length,
      exec (.rdCodebit c k) s = .next (s.answered ((s.session.code.read c)[k.toNat].setWidth 32))) ∧
    ((s.session.code.read c).length ≤ k.toNat → exec (.rdCodebit c k) s = .next (s.failed .range)) ∧
    encode (.rdCodebit c k) = (0xB0000000 : Word) ||| (k.setWidth 32 <<< 8) ||| c.setWidth 32 ∧
    (s.session = exampleSession →
      exec (.rdCodebit 0x62 0) s = .next (s.answered 0) ∧ exec (.rdCodebit 0x62 1) s = .next (s.answered 1) ∧
        exec (.rdCodebit 0x62 2) s = .next (s.failed .range))

/-- R198. In a state with the invariant the answer is the whole frequency, with no bit lost. -/
def Obligations.RdNodeFreqAnswersFrequency : Prop :=
  ∀ (s : State) (i : NodeIx),
    (∀ h : i.toNat < s.session.node.length,
      exec (.rdNodeFreq i) s = .next (s.answered (BitVec.ofNat 32 s.session.node[i.toNat].freq)) ∧
        (s.Inv → (BitVec.ofNat 32 s.session.node[i.toNat].freq).toNat = s.session.node[i.toNat].freq)) ∧
    (s.session.node.length ≤ i.toNat → exec (.rdNodeFreq i) s = .next (s.failed .range)) ∧
    (s.Inv → s.session.treeValid = false → exec (.rdNodeFreq i) s = .next (s.failed .range)) ∧
    encode (.rdNodeFreq i) = 0xC0000000 ||| i.setWidth 32 ∧
    (s.session = exampleSession →
      exec (.rdNodeFreq 4) s = .next (s.answered 7) ∧ exec (.rdNodeFreq 3) s = .next (s.answered 3) ∧
        exec (.rdNodeFreq 5) s = .next (s.failed .range))

/-- R199 with the link words of R99. -/
def Obligations.RdNodeLinkAnswersLinkWord : Prop :=
  ∀ (s : State) (i : NodeIx),
    (∀ f c, s.session.node[i.toNat]? = some (.leaf f c) →
      exec (.rdNodeLink i) s = .next (s.answered (c.setWidth 32))) ∧
    (∀ f l r, s.session.node[i.toNat]? = some (.internal f l r) →
      exec (.rdNodeLink i) s = .next (s.answered ((0x40000000 : Word) ||| (r.setWidth 32 <<< 16) ||| l.setWidth 32))) ∧
    (∀ f l, s.session.node[i.toNat]? = some (.synth f l) →
      exec (.rdNodeLink i) s = .next (s.answered (0x80000000 ||| l.setWidth 32))) ∧
    (s.session.node.length ≤ i.toNat → exec (.rdNodeLink i) s = .next (s.failed .range)) ∧
    encode (.rdNodeLink i) = 0xD0000000 ||| i.setWidth 32 ∧
    linkWord (.leaf 0 0x61) = 0x00000061 ∧ linkWord (.internal 0 3 0) = 0x40000003 ∧
    linkWord (.internal 0 4 5) = 0x40050004 ∧ linkWord (.synth 0 0) = 0x80000000 ∧
    (s.session = exampleSession →
      exec (.rdNodeLink 4) s = .next (s.answered 0x40000003) ∧
        exec (.rdNodeLink 3) s = .next (s.answered 0x40010002) ∧ exec (.rdNodeLink 0) s = .next (s.answered 0x61))

/-- R200. -/
def Obligations.RdBitAnswersStreamBit : Prop :=
  ∀ (s : State) (i : BitVec 28),
    (∀ h : i.toNat < s.bitBuf.length, exec (.rdBit i) s = .next (s.answered (s.bitBuf[i.toNat].setWidth 32))) ∧
    (s.bitBuf.length ≤ i.toNat → exec (.rdBit i) s = .next (s.failed .range)) ∧
    encode (.rdBit i) = 0xE0000000 ||| i.setWidth 32 ∧
    (s.bitBuf = exampleStream →
      exec (.rdBit 0) s = .next (s.answered 1) ∧ exec (.rdBit 4) s = .next (s.answered 0) ∧
        exec (.rdBit 9) s = .next (s.answered 0) ∧ exec (.rdBit 10) s = .next (s.failed .range))

/-- R201. -/
def Obligations.RdSymAnswersDecodedSymbol : Prop :=
  ∀ (s : State) (i : BitVec 28),
    (∀ h : i.toNat < s.symOut.length, exec (.rdSym i) s = .next (s.answered (s.symOut[i.toNat].setWidth 32))) ∧
    (s.symOut.length ≤ i.toNat → exec (.rdSym i) s = .next (s.failed .range)) ∧
    encode (.rdSym i) = 0xF0000000 ||| i.setWidth 32 ∧
    (s.symOut = exampleText →
      exec (.rdSym 0) s = .next (s.answered 0x61) ∧ exec (.rdSym 6) s = .next (s.answered 0x63) ∧
        exec (.rdSym 7) s = .next (s.failed .range))

/-- R70: a read changes nothing but the response and, where it fails, LAST_ERR; and it is idempotent. -/
def Obligations.ReadsHaveNoSideEffect : Prop :=
  ∀ (i : Instr) (s : State), isRead i = true →
    ∃ r : Response, exec i s =
        .next { s with rsp := some r, lastErr := if r.status = .ok then s.lastErr else r.status } ∧
      ∀ t, exec i s = .next t → exec i t = .next t

/-! ### COMPRESS -/

/-- R125: the empty text gives the empty table and no other unit runs. That the session becomes "nothing built" and the stream
is emptied is R192 corner case (a), the spec's own decision (D19, C8; log 11, DEDUCED). -/
def Obligations.CompressEmptyText : Prop :=
  ∀ s : State, s.symIn = [] →
    (∀ c, (fcRun s).session.freq.read c = 0) ∧ (fcRun s).session.nsyms = 0 ∧
      exec .compress s = .next ({ s with session := Session.nothing, bitBuf := [] }.answered 0)

/-- R192, R163: on a non-empty text `COMPRESS` builds the session for the text; the stream is the concatenation of the codes
if that fits, and where it does not the stream is empty, the session stays built and the status is `ERR_CAPACITY`. The scratch
is given up; nothing else changes. -/
def Obligations.CompressBuildsAndEncodes : Prop :=
  ∀ s : State, s.symIn ≠ [] → ∃ x : Session, x.BuiltFor s.symIn ∧
    ((codesOf x.code s.symIn).length ≤ s.cfg.bitCap → exec .compress s =
      .next ({ s with session := x, bitBuf := codesOf x.code s.symIn, heap := [], cgStack := [] }.answered
        (BitVec.ofNat 32 (codesOf x.code s.symIn).length))) ∧
    (s.cfg.bitCap < (codesOf x.code s.symIn).length → exec .compress s =
      .next ({ s with session := x, bitBuf := [], heap := [], cgStack := [] }.failed .capacity))

/-- R164, R192: where the bound of R164 on the length of the stream fits BIT_CAP, `COMPRESS` answers `OK` and the new BLEN.
The clause on the empty text is R192 corner case (a) (D19; log 11, DEDUCED). -/
def Obligations.CompressCompletesWithinCapacity : Prop :=
  ∀ s : State, s.Idle → s.symIn.length * max 1 ((keys (countText s.symIn)).length - 1) ≤ s.cfg.bitCap →
    ∃ (x : Session) (bits : List Bit), exec .compress s =
      .next ({ s with session := x, bitBuf := bits, heap := [], cgStack := [] }.answered (BitVec.ofNat 32 bits.length)) ∧
      bits = codesOf x.code s.symIn ∧ (s.symIn = [] → x = Session.nothing) ∧ (s.symIn ≠ [] → x.BuiltFor s.symIn)

/-- R121, R139, R155, R165, R192: the worked example. -/
def Obligations.CompressExample : Prop :=
  ∀ s : State, s.symIn = exampleText → 10 ≤ s.cfg.bitCap → exec .compress s =
    .next ({ s with session := exampleSession, bitBuf := exampleStream, heap := [], cgStack := [] }.answered 10)

/-- R144: the session and the stream are a function of the text, whatever the state held before. -/
def Obligations.CompressIsFunctionOfText : Prop :=
  ∀ s s' t t' : State, s.symIn = s'.symIn → exec .compress s = .next t → exec .compress s' = .next t' →
    t.session = t'.session ∧ (s.cfg.bitCap = s'.cfg.bitCap → t.bitBuf = t'.bitBuf ∧ t.rsp = t'.rsp)

/-! ### The units of COMPRESS -/

/-- R124, R120, R122: the counter conserves frequencies, counts exactly, and touches FREQ and NSYMS only. -/
def Obligations.CounterCountsText : Prop :=
  ∀ s : State, ∃ (freq : Table Nat) (nsyms : BitVec 9),
    fcRun s = { s with session := { s.session with freq := freq, nsyms := nsyms } } ∧
    nsyms.toNat = (allSymbols.filter fun c => freq.read c ≠ 0).length ∧
    (allSymbols.map freq.read).sum = s.symIn.length ∧
    (∀ c, freq.read c = s.symIn.count c) ∧ (∀ c, freq.read c ≠ 0 ↔ c ∈ s.symIn)

/-- R123, R141: no count and no sum of counts overflows: in every state with the invariant each fits `CNT_W` bits, and so
does every count the counter makes on the way. -/
def Obligations.CountsFitTheirWidth : Prop :=
  ∀ s : State, s.Inv →
    (∀ c, s.session.freq.read c < 2 ^ s.cfg.cntW) ∧ (∀ n ∈ s.session.node, n.freq < 2 ^ s.cfg.cntW) ∧
      (∀ k c, (countText (s.symIn.take k)).read c ≤ (countText s.symIn).read c ∧
        (countText s.symIn).read c < 2 ^ s.cfg.cntW)

/-- R132 to R134: both heap operations end, keep the heap order and the distinct indices, and change the set of indices by
the one inserted or removed; what is removed is the least under `less`. -/
def Obligations.HeapKeepsOrderAndReturnsLeast : Prop :=
  ∀ s : State, HeapIndices s.session.node s.heap → HeapOrdered s.session.node s.heap →
    (∀ x : NodeIx, x.toNat < s.session.node.length → x ∉ s.heap →
      ∃ h, heapInsert x s = .ok { s with heap := h } ∧ h.Perm (x :: s.heap) ∧ HeapIndices s.session.node h ∧
        HeapOrdered s.session.node h) ∧
    (s.heap ≠ [] → ∃ m h, heapExtractMin s = .ok (m, { s with heap := h }) ∧ s.heap.Perm (m :: h) ∧
      HeapIndices s.session.node h ∧ HeapOrdered s.session.node h ∧ ∀ y ∈ h, less? s.session.node m y = some true)

/-- R134, R144: the builder with its heap gives the tree that a scan for the two least indices gives; the tree is a function
of the table alone. -/
def Obligations.HeapBuilderEqualsMinimumSelection : Prop :=
  ∀ s : State, keys s.session.freq ≠ [] →
    ∃ root : NodeIx, root.toNat + 1 = (refBuild s.session.freq).length ∧
      tbRun s = .done { s with
        heap := [], session := { s.session with node := refBuild s.session.freq, root := root, treeValid := true } }

/-- R142: given the empty table the builder returns no tree, and no command gives it the empty table. -/
def Obligations.EmptyTableRefused : Prop :=
  (∀ s : State, (∀ c, s.session.freq.read c = 0) → tbRun s = .refused .emptyTable) ∧
    ∀ (i : Instr) (s : State), exec i s ≠ .refused .emptyTable

/-- R26, as every command keeps it: (a) to (g) after a `COMPRESS` of a non-empty text; and (h) no other command but `RESET`
writes the tree, or the table it is a tree for. `TreeFor` states (a) to (d). No tree after `RESET` (R43). That there is none after
a `COMPRESS` of the empty text is R192 corner case (a), the spec's own decision (D19; log 11, DEDUCED). -/
def Obligations.TreeInvariants : Prop :=
  ∀ (s t : State) (i : Instr), exec i s = .next t →
    (i = .compress → s.symIn ≠ [] → t.session.treeValid = true ∧
      TreeFor t.session.freq t.session.node t.session.root ∧
      t.session.nsyms.toNat = (keys t.session.freq).length ∧
      (∀ k, k < t.session.node.length → ∃ p j, walkPath t.session.node t.session.root p = some j ∧ j.toNat = k) ∧
      (∀ n, nodeAt? t.session.node t.session.root = some n → n.isLeaf = false) ∧
      nodeFreq? t.session.node t.session.root = some s.symIn.length) ∧
    (i = .compress → s.symIn = [] → t.session.treeValid = false) ∧
    (i = .reset → t.session.treeValid = false) ∧
    (i ≠ .compress → i ≠ .reset → t.session.node = s.session.node ∧ t.session.root = s.session.root ∧
      t.session.treeValid = s.session.treeValid ∧ t.session.freq = s.session.freq ∧ t.session.nsyms = s.session.nsyms)

/-- R28: the code table in every state with the invariant. -/
def Obligations.CodeTableInvariants : Prop :=
  ∀ s : State, s.Inv →
    (s.session.treeValid = true →
      (∀ c, (s.session.code.read c).length ≠ 0 ↔ s.session.freq.read c ≠ 0) ∧
      (∀ c, s.session.code.read c ≠ [] → PathTo s.session.node s.session.root c (s.session.code.read c)) ∧
      (∀ c d, c ≠ d → s.session.code.read c ≠ [] → s.session.code.read d ≠ [] →
        ¬ s.session.code.read c <+: s.session.code.read d) ∧
      (2 ≤ s.session.nsyms.toNat → ∀ c, s.session.code.read c ≠ [] →
        1 ≤ (s.session.code.read c).length ∧ (s.session.code.read c).length ≤ s.session.nsyms.toNat - 1) ∧
      (s.session.nsyms = 1 → ∀ c, s.session.code.read c ≠ [] → s.session.code.read c = [0])) ∧
    (s.session.treeValid = false → ∀ c, s.session.code.read c = [])

/-- R154 (d): the code table is a function of the tree alone: the code of a symbol is the only path to a leaf that holds it. -/
def Obligations.CodeIsTheOnlyPath : Prop :=
  ∀ (x : Session) (c : Symbol) (p : List Bit), x.Built → PathTo x.node x.root c p → x.code.read c = p

/-- R162, R235, R238 (3): the encoder given a table without an entry for a symbol of the text: the first failing test in the
order of R161 ends the run, and no bit of a partial result remains. -/
def Obligations.EncoderTestsInOrder : Prop :=
  ∀ (s : State) (before after : List Symbol) (c : Symbol), s.symIn = before ++ c :: after →
    (∀ d ∈ before, s.session.code.read d ≠ []) → s.session.code.read c = [] →
    ((codesOf s.session.code before).length ≤ s.cfg.bitCap → encRun s = .raised .noCode { s with bitBuf := [] }) ∧
    (s.cfg.bitCap < (codesOf s.session.code before).length → encRun s = .raised .capacity { s with bitBuf := [] })

/-- R164: the length of the stream where `COMPRESS` of a non-empty text ends `OK`. -/
def Obligations.StreamLength : Prop :=
  ∀ (s t : State) (d : Word), s.symIn ≠ [] → exec .compress s = .next t → t.rsp = some ⟨.ok, d⟩ →
    d.toNat = t.bitBuf.length ∧
    t.bitBuf.length = (s.symIn.map fun c => (t.session.code.read c).length).sum ∧
    t.bitBuf.length = (allSymbols.map fun c => t.session.freq.read c * (t.session.code.read c).length).sum ∧
    (t.session.nsyms = 1 → t.bitBuf.length = s.symIn.length) ∧
    (2 ≤ t.session.nsyms.toNat →
      s.symIn.length ≤ t.bitBuf.length ∧ t.bitBuf.length ≤ s.symIn.length * (t.session.nsyms.toNat - 1))

/-- R143: after `COMPRESS` of a non-empty text, whatever its status, the code is a prefix code for the table, and no other prefix
code of non-empty strings for the table has a smaller sum of `FREQ[s] * len`; and the remark of R164 that rests on it: with room for 8 bits a symbol, which the default
configuration has for every text (R6), `COMPRESS` answers `OK`. Empty strings are left out because a code of length 0 is "no entry"
(R27): log 16, DEDUCED. -/
def Obligations.CodeIsOptimal : Prop :=
  (∀ s t : State, s.symIn ≠ [] → exec .compress s = .next t → OptimalFor t.session.freq t.session.code.read) ∧
  (∀ s : State, 8 * s.symIn.length ≤ s.cfg.bitCap →
    ∃ (t : State) (d : Word), exec .compress s = .next t ∧ t.rsp = some ⟨.ok, d⟩ ∧ t.bitBuf.length ≤ 8 * s.symIn.length)

/-! ### DECOMPRESS -/

/-- R176: the guard. -/
def Obligations.DecompressGuard : Prop :=
  ∀ s : State, (s.session.treeValid = false ∨ s.bitBuf = []) →
    exec .decompress s = .next ({ s with symOut := [] }.answered 0)

/-- R171, R193: a stream that is a concatenation of codes of the session is decoded to its text. -/
def Obligations.DecompressCodes : Prop :=
  ∀ (s : State) (text : List Symbol), s.session.Built → s.walk = none → (∀ c ∈ text, s.session.freq.read c ≠ 0) →
    s.bitBuf = codesOf s.session.code text →
    exec .decompress s = .next ({ s with symOut := text }.answered (BitVec.ofNat 32 text.length))

/-- R171, R174, R175, R236: on a built session `DECOMPRESS` answers `OK` exactly when the stream is a concatenation of codes,
and `ERR_BAD_STREAM` with an empty text for every other stream. -/
def Obligations.DecompressAcceptsExactlyCodes : Prop :=
  ∀ s : State, s.session.Built → s.walk = none →
    (∃ text, (∀ c ∈ text, s.session.freq.read c ≠ 0) ∧ s.bitBuf = codesOf s.session.code text ∧
      exec .decompress s = .next ({ s with symOut := text }.answered (BitVec.ofNat 32 text.length))) ∨
    (∀ text, (∀ c ∈ text, s.session.freq.read c ≠ 0) → s.bitBuf ≠ codesOf s.session.code text) ∧
      exec .decompress s = .next ({ s with symOut := [] }.failed .badStream)

/-- R174: a bit 1 at the synthetic root. -/
def Obligations.MissingRightChildIsBadStream : Prop :=
  ∀ s : State, s.session.Built → s.session.nsyms = 1 → s.walk = none → (1 : Bit) ∈ s.bitBuf →
    exec .decompress s = .next ({ s with symOut := [] }.failed .badStream)

/-- R175: a stream that ends inside a code, with the worked examples of the rule. -/
def Obligations.StreamEndingInsideCodeIsBadStream : Prop :=
  ∀ s : State, s.walk = none →
    (∀ (text : List Symbol) (c : Symbol) (p q : List Bit), s.session.Built →
      (∀ d ∈ text, s.session.freq.read d ≠ 0) → s.session.code.read c = p ++ q → p ≠ [] → q ≠ [] →
      s.bitBuf = codesOf s.session.code text ++ p →
      exec .decompress s = .next ({ s with symOut := [] }.failed .badStream)) ∧
    (s.session = exampleSession → s.bitBuf = [0] ∨ s.bitBuf = [1, 0] →
      exec .decompress s = .next ({ s with symOut := [] }.failed .badStream)) ∧
    (s.session = exampleSession → s.bitBuf = [0, 1, 1] →
      exec .decompress s = .next ({ s with symOut := [0x62, 0x61] }.answered 2))

/-- R178: the round trip. `u` is the state in which `DECOMPRESS` is issued, after any commands that left the stream and the
session alone. -/
def Obligations.RoundTrip : Prop :=
  ∀ s t u : State, s.symIn ≠ [] → exec .compress s = .next t → (∃ d, t.rsp = some ⟨.ok, d⟩) →
    u.bitBuf = t.bitBuf → u.session = t.session → u.walk = none →
    exec .decompress u = .next ({ u with symOut := s.symIn }.answered (BitVec.ofNat 32 s.symIn.length))

/-- R172: the decoder's transition table, one clause a row, then the two ends of the input. -/
def Obligations.DecoderTransitionTable : Prop :=
  ∀ (s : State) (w : Walk) (b : Bit) (f : Nat) (l r : NodeIx), s.walk = some w →
    (s.bitBuf[w.j]? = some b → nodeAt? s.session.node w.cur = some (.internal f l r) →
      (∀ g c, nodeAt? s.session.node (if b = 0 then l else r) = some (.leaf g c) →
        decPass s = .done { s with symOut := s.symOut ++ [c], walk := some ⟨s.session.root, .atRoot, w.j + 1⟩ }) ∧
      (∀ g l' r', nodeAt? s.session.node (if b = 0 then l else r) = some (.internal g l' r') →
        decPass s = .done { s with walk := some ⟨if b = 0 then l else r, .inPath, w.j + 1⟩ })) ∧
    (s.bitBuf[w.j]? = some 0 → nodeAt? s.session.node w.cur = some (.synth f l) →
      ∀ g c, nodeAt? s.session.node l = some (.leaf g c) →
        decPass s = .done { s with symOut := s.symOut ++ [c], walk := some ⟨s.session.root, .atRoot, w.j + 1⟩ }) ∧
    (s.bitBuf[w.j]? = some 1 → nodeAt? s.session.node w.cur = some (.synth f l) →
      decPass s = .raised .badStream { s with symOut := [], walk := none }) ∧
    (w.dstate = .atRoot → decEnd s = .done { s with walk := none }) ∧
    (w.dstate = .inPath → decEnd s = .raised .badStream { s with symOut := [], walk := none })

/-! ### The whole machine -/

/-- The invariant holds at reset. -/
def Obligations.InvariantAtReset : Prop := State.reset.Inv

/-- R20, R41, R42: every step keeps the invariant. -/
def Obligations.StepKeepsInvariant : Prop := ∀ s t : State, s.Inv → step s = .next t → t.Inv

/-- R230, R281: from every state with the invariant the block answers: no fault and no refusal of the model is ever met. -/
def Obligations.StepNeverStops : Prop := ∀ s : State, s.Inv → Answers (step s)

/-- R32, R97, R185: LAST_ERR and the response after every step. -/
def Obligations.LastErrAfterEveryStep : Prop :=
  ∀ s t : State, step s = .next t →
    (∀ w rest, s.host = .command w :: rest → ∃ r, t.rsp = some r ∧
      (r.status ≠ .ok → r.data = 0 ∧ t.lastErr = r.status) ∧
      (r.status = .ok → decode w ≠ some .reset → t.lastErr = s.lastErr) ∧
      (decode w = some .reset → t.lastErr = .ok)) ∧
    (∀ rest, s.host = .rst :: rest → t.lastErr = .ok ∧ t.rsp = none)

/-- R231: which statuses each command can answer. -/
def Obligations.StatusesOfEachCommand : Prop :=
  ∀ (i : Instr) (s t : State), exec i s = .next t → ∃ r, t.rsp = some r ∧ r.status ∈ canAnswer i

/-- R41, R71, R271: only `COMPRESS` and `RESET` change the session. -/
def Obligations.SessionChangedOnlyByCompressAndReset : Prop :=
  ∀ (i : Instr) (s t : State), i ≠ .compress → i ≠ .reset → exec i s = .next t → t.session = s.session

/-- R77: buffers fill only by appending and shrink only to empty. -/
def Obligations.BuffersFillOnlyByAppending : Prop :=
  ∀ (i : Instr) (s t : State), exec i s = .next t →
    (t.symIn = s.symIn ∨ (∃ v, i = .symPush v ∧ t.symIn = s.symIn ++ [v]) ∨
      (i = .symClr ∨ i = .reset) ∧ t.symIn = []) ∧
    (t.bitBuf = s.bitBuf ∨ (∃ b, i = .bitPush b ∧ t.bitBuf = s.bitBuf ++ [b]) ∨
      (i = .bitClr ∨ i = .reset ∨ i = .compress) ∧ t.bitBuf = [] ∨
      i = .compress ∧ t.bitBuf = codesOf t.session.code s.symIn) ∧
    (t.symOut = s.symOut ∨ i = .decompress ∨ i = .reset ∧ t.symOut = [])

/-- R240: no error is sticky in its effect: `RD_REG 1` apart, no command reads LAST_ERR. -/
def Obligations.ErrorIsNotSticky : Prop :=
  ∀ (i : Instr) (s t : State) (e : Status), i ≠ .rdReg 1 → exec i s = .next t →
    ∃ e', exec i { s with lastErr := e } = .next { t with lastErr := e' }

/-- R44, R106: no command changes the parameters or what the host does next, and each takes one host action. The
host list is the model's own field (log 2, DESIGN CHOICE). -/
def Obligations.StepTakesOneHostAction : Prop :=
  ∀ s t : State, step s = .next t → t.cfg = s.cfg ∧ t.host = s.host.tail

/-- R7: a configuration that breaks a constraint is refused, every other is taken. -/
def Obligations.IllegalConfigurationRefused : Prop :=
  ∀ cntW textCap bitCap : Nat,
    (1 ≤ cntW ∧ cntW ≤ 32 ∧ 1 ≤ textCap ∧ textCap ≤ 2 ^ cntW - 1 ∧ textCap ≤ 2 ^ 28 ∧ 1 ≤ bitCap ∧ bitCap ≤ 2 ^ 28 →
      ∃ cfg, Config.ofNats? cntW textCap bitCap = some cfg ∧ cfg.cntW = cntW ∧ cfg.textCap = textCap ∧
        cfg.bitCap = bitCap) ∧
    (¬(1 ≤ cntW ∧ cntW ≤ 32 ∧ 1 ≤ textCap ∧ textCap ≤ 2 ^ cntW - 1 ∧ textCap ≤ 2 ^ 28 ∧ 1 ≤ bitCap ∧ bitCap ≤ 2 ^ 28) →
      Config.ofNats? cntW textCap bitCap = none)

/-! ### Outside the block -/

/-- R67: the character adapter. -/
def Obligations.CharacterAdapter : Prop :=
  charOfBit 0 = 0x30 ∧ charOfBit 1 = 0x31 ∧ (∀ c : Symbol, bitOfChar c = if c = 0x30 then 0 else 1) ∧
    ∀ b : Bit, bitOfChar (charOfBit b) = b

/-- R103: `LOAD_TEXT` leaves exactly the text, and each push answers the new length. -/
def Obligations.LoadTextLoads : Prop :=
  ∀ (s : State) (text : List Symbol), text.length ≤ s.cfg.textCap →
    issueAll (loadText text) s = some (⟨.ok, 0⟩ :: (List.range text.length).map fun k => ⟨.ok, BitVec.ofNat 32 (k + 1)⟩,
      { s with symIn := text, rsp := some ⟨.ok, BitVec.ofNat 32 text.length⟩ })

/-- R105: `decompress(compress(text)) == text` through the command sequences of the six operations. It rests on
log 15 (DESIGN CHOICE): a wrapper operation checks the status of every command before the read-out, the loads included. -/
def Obligations.WrapperRoundTrip : Prop :=
  ∀ (s t : State) (text chars : List Symbol), s.Inv → compressOp text s = some (.value chars, t) →
    ∃ u, decompressOp chars t = some (.value text, u)

/-- R101: the examples of the script syntax, and an operand that does not fit. -/
def Obligations.AssemblerExamples : Prop :=
  assemble "SYM_PUSH 'a'" = some 0x30000061 ∧ assemble "BIT_PUSH 1" = some 0x50000001 ∧
    assemble "RD_CODEBIT 'b', 1" = some 0xB0000162 ∧ assemble "RD_NODE_LINK 4" = some 0xD0000004 ∧
    assemble "RD_BIT 9" = some 0xE0000009 ∧ assemble "RD_REG ROOT" = some 0x80000007 ∧
    assemble "RD_REG BLEN" = assemble "RD_REG 3" ∧ assemble "BIT_PUSH 2" = none

end
end

