-- ==== Sys2Proof/Laws/State.lean ====
section
/-! SUPPORT. Field by field, what each register update of Machine/Ops.lean leaves: one lemma per field per update. -/

namespace Sys2Proof.Machine

section setFreq
variable (x : Session) (v : Table Nat)
@[simp] theorem Session.setFreq_freq : (x.setFreq v).freq = v := rfl
@[simp] theorem Session.setFreq_nsyms : (x.setFreq v).nsyms = x.nsyms := rfl
@[simp] theorem Session.setFreq_node : (x.setFreq v).node = x.node := rfl
@[simp] theorem Session.setFreq_root : (x.setFreq v).root = x.root := rfl
@[simp] theorem Session.setFreq_treeValid : (x.setFreq v).treeValid = x.treeValid := rfl
@[simp] theorem Session.setFreq_code : (x.setFreq v).code = x.code := rfl
end setFreq

section setNsyms
variable (x : Session) (v : BitVec 9)
@[simp] theorem Session.setNsyms_freq : (x.setNsyms v).freq = x.freq := rfl
@[simp] theorem Session.setNsyms_nsyms : (x.setNsyms v).nsyms = v := rfl
@[simp] theorem Session.setNsyms_node : (x.setNsyms v).node = x.node := rfl
@[simp] theorem Session.setNsyms_root : (x.setNsyms v).root = x.root := rfl
@[simp] theorem Session.setNsyms_treeValid : (x.setNsyms v).treeValid = x.treeValid := rfl
@[simp] theorem Session.setNsyms_code : (x.setNsyms v).code = x.code := rfl
end setNsyms

section setNode
variable (x : Session) (v : List Node)
@[simp] theorem Session.setNode_freq : (x.setNode v).freq = x.freq := rfl
@[simp] theorem Session.setNode_nsyms : (x.setNode v).nsyms = x.nsyms := rfl
@[simp] theorem Session.setNode_node : (x.setNode v).node = v := rfl
@[simp] theorem Session.setNode_root : (x.setNode v).root = x.root := rfl
@[simp] theorem Session.setNode_treeValid : (x.setNode v).treeValid = x.treeValid := rfl
@[simp] theorem Session.setNode_code : (x.setNode v).code = x.code := rfl
end setNode

section setRoot
variable (x : Session) (v : NodeIx)
@[simp] theorem Session.setRoot_freq : (x.setRoot v).freq = x.freq := rfl
@[simp] theorem Session.setRoot_nsyms : (x.setRoot v).nsyms = x.nsyms := rfl
@[simp] theorem Session.setRoot_node : (x.setRoot v).node = x.node := rfl
@[simp] theorem Session.setRoot_root : (x.setRoot v).root = v := rfl
@[simp] theorem Session.setRoot_treeValid : (x.setRoot v).treeValid = x.treeValid := rfl
@[simp] theorem Session.setRoot_code : (x.setRoot v).code = x.code := rfl
end setRoot

section setTreeValid
variable (x : Session) (v : Bool)
@[simp] theorem Session.setTreeValid_freq : (x.setTreeValid v).freq = x.freq := rfl
@[simp] theorem Session.setTreeValid_nsyms : (x.setTreeValid v).nsyms = x.nsyms := rfl
@[simp] theorem Session.setTreeValid_node : (x.setTreeValid v).node = x.node := rfl
@[simp] theorem Session.setTreeValid_root : (x.setTreeValid v).root = x.root := rfl
@[simp] theorem Session.setTreeValid_treeValid : (x.setTreeValid v).treeValid = v := rfl
@[simp] theorem Session.setTreeValid_code : (x.setTreeValid v).code = x.code := rfl
end setTreeValid

section setCode
variable (x : Session) (v : Table (List Bit))
@[simp] theorem Session.setCode_freq : (x.setCode v).freq = x.freq := rfl
@[simp] theorem Session.setCode_nsyms : (x.setCode v).nsyms = x.nsyms := rfl
@[simp] theorem Session.setCode_node : (x.setCode v).node = x.node := rfl
@[simp] theorem Session.setCode_root : (x.setCode v).root = x.root := rfl
@[simp] theorem Session.setCode_treeValid : (x.setCode v).treeValid = x.treeValid := rfl
@[simp] theorem Session.setCode_code : (x.setCode v).code = v := rfl
end setCode

section setSession
variable (s : State) (v : Session)
@[simp] theorem State.setSession_cfg : (s.setSession v).cfg = s.cfg := rfl
@[simp] theorem State.setSession_session : (s.setSession v).session = v := rfl
@[simp] theorem State.setSession_symIn : (s.setSession v).symIn = s.symIn := rfl
@[simp] theorem State.setSession_bitBuf : (s.setSession v).bitBuf = s.bitBuf := rfl
@[simp] theorem State.setSession_symOut : (s.setSession v).symOut = s.symOut := rfl
@[simp] theorem State.setSession_lastErr : (s.setSession v).lastErr = s.lastErr := rfl
@[simp] theorem State.setSession_heap : (s.setSession v).heap = s.heap := rfl
@[simp] theorem State.setSession_cgStack : (s.setSession v).cgStack = s.cgStack := rfl
@[simp] theorem State.setSession_walk : (s.setSession v).walk = s.walk := rfl
@[simp] theorem State.setSession_host : (s.setSession v).host = s.host := rfl
@[simp] theorem State.setSession_rsp : (s.setSession v).rsp = s.rsp := rfl
end setSession

section setSymIn
variable (s : State) (v : List Symbol)
@[simp] theorem State.setSymIn_cfg : (s.setSymIn v).cfg = s.cfg := rfl
@[simp] theorem State.setSymIn_session : (s.setSymIn v).session = s.session := rfl
@[simp] theorem State.setSymIn_symIn : (s.setSymIn v).symIn = v := rfl
@[simp] theorem State.setSymIn_bitBuf : (s.setSymIn v).bitBuf = s.bitBuf := rfl
@[simp] theorem State.setSymIn_symOut : (s.setSymIn v).symOut = s.symOut := rfl
@[simp] theorem State.setSymIn_lastErr : (s.setSymIn v).lastErr = s.lastErr := rfl
@[simp] theorem State.setSymIn_heap : (s.setSymIn v).heap = s.heap := rfl
@[simp] theorem State.setSymIn_cgStack : (s.setSymIn v).cgStack = s.cgStack := rfl
@[simp] theorem State.setSymIn_walk : (s.setSymIn v).walk = s.walk := rfl
@[simp] theorem State.setSymIn_host : (s.setSymIn v).host = s.host := rfl
@[simp] theorem State.setSymIn_rsp : (s.setSymIn v).rsp = s.rsp := rfl
end setSymIn

section setBitBuf
variable (s : State) (v : List Bit)
@[simp] theorem State.setBitBuf_cfg : (s.setBitBuf v).cfg = s.cfg := rfl
@[simp] theorem State.setBitBuf_session : (s.setBitBuf v).session = s.session := rfl
@[simp] theorem State.setBitBuf_symIn : (s.setBitBuf v).symIn = s.symIn := rfl
@[simp] theorem State.setBitBuf_bitBuf : (s.setBitBuf v).bitBuf = v := rfl
@[simp] theorem State.setBitBuf_symOut : (s.setBitBuf v).symOut = s.symOut := rfl
@[simp] theorem State.setBitBuf_lastErr : (s.setBitBuf v).lastErr = s.lastErr := rfl
@[simp] theorem State.setBitBuf_heap : (s.setBitBuf v).heap = s.heap := rfl
@[simp] theorem State.setBitBuf_cgStack : (s.setBitBuf v).cgStack = s.cgStack := rfl
@[simp] theorem State.setBitBuf_walk : (s.setBitBuf v).walk = s.walk := rfl
@[simp] theorem State.setBitBuf_host : (s.setBitBuf v).host = s.host := rfl
@[simp] theorem State.setBitBuf_rsp : (s.setBitBuf v).rsp = s.rsp := rfl
end setBitBuf

section setSymOut
variable (s : State) (v : List Symbol)
@[simp] theorem State.setSymOut_cfg : (s.setSymOut v).cfg = s.cfg := rfl
@[simp] theorem State.setSymOut_session : (s.setSymOut v).session = s.session := rfl
@[simp] theorem State.setSymOut_symIn : (s.setSymOut v).symIn = s.symIn := rfl
@[simp] theorem State.setSymOut_bitBuf : (s.setSymOut v).bitBuf = s.bitBuf := rfl
@[simp] theorem State.setSymOut_symOut : (s.setSymOut v).symOut = v := rfl
@[simp] theorem State.setSymOut_lastErr : (s.setSymOut v).lastErr = s.lastErr := rfl
@[simp] theorem State.setSymOut_heap : (s.setSymOut v).heap = s.heap := rfl
@[simp] theorem State.setSymOut_cgStack : (s.setSymOut v).cgStack = s.cgStack := rfl
@[simp] theorem State.setSymOut_walk : (s.setSymOut v).walk = s.walk := rfl
@[simp] theorem State.setSymOut_host : (s.setSymOut v).host = s.host := rfl
@[simp] theorem State.setSymOut_rsp : (s.setSymOut v).rsp = s.rsp := rfl
end setSymOut

section setLastErr
variable (s : State) (v : Status)
@[simp] theorem State.setLastErr_cfg : (s.setLastErr v).cfg = s.cfg := rfl
@[simp] theorem State.setLastErr_session : (s.setLastErr v).session = s.session := rfl
@[simp] theorem State.setLastErr_symIn : (s.setLastErr v).symIn = s.symIn := rfl
@[simp] theorem State.setLastErr_bitBuf : (s.setLastErr v).bitBuf = s.bitBuf := rfl
@[simp] theorem State.setLastErr_symOut : (s.setLastErr v).symOut = s.symOut := rfl
@[simp] theorem State.setLastErr_lastErr : (s.setLastErr v).lastErr = v := rfl
@[simp] theorem State.setLastErr_heap : (s.setLastErr v).heap = s.heap := rfl
@[simp] theorem State.setLastErr_cgStack : (s.setLastErr v).cgStack = s.cgStack := rfl
@[simp] theorem State.setLastErr_walk : (s.setLastErr v).walk = s.walk := rfl
@[simp] theorem State.setLastErr_host : (s.setLastErr v).host = s.host := rfl
@[simp] theorem State.setLastErr_rsp : (s.setLastErr v).rsp = s.rsp := rfl
end setLastErr

section setHeap
variable (s : State) (v : List NodeIx)
@[simp] theorem State.setHeap_cfg : (s.setHeap v).cfg = s.cfg := rfl
@[simp] theorem State.setHeap_session : (s.setHeap v).session = s.session := rfl
@[simp] theorem State.setHeap_symIn : (s.setHeap v).symIn = s.symIn := rfl
@[simp] theorem State.setHeap_bitBuf : (s.setHeap v).bitBuf = s.bitBuf := rfl
@[simp] theorem State.setHeap_symOut : (s.setHeap v).symOut = s.symOut := rfl
@[simp] theorem State.setHeap_lastErr : (s.setHeap v).lastErr = s.lastErr := rfl
@[simp] theorem State.setHeap_heap : (s.setHeap v).heap = v := rfl
@[simp] theorem State.setHeap_cgStack : (s.setHeap v).cgStack = s.cgStack := rfl
@[simp] theorem State.setHeap_walk : (s.setHeap v).walk = s.walk := rfl
@[simp] theorem State.setHeap_host : (s.setHeap v).host = s.host := rfl
@[simp] theorem State.setHeap_rsp : (s.setHeap v).rsp = s.rsp := rfl
end setHeap

section setCgStack
variable (s : State) (v : List StackRec)
@[simp] theorem State.setCgStack_cfg : (s.setCgStack v).cfg = s.cfg := rfl
@[simp] theorem State.setCgStack_session : (s.setCgStack v).session = s.session := rfl
@[simp] theorem State.setCgStack_symIn : (s.setCgStack v).symIn = s.symIn := rfl
@[simp] theorem State.setCgStack_bitBuf : (s.setCgStack v).bitBuf = s.bitBuf := rfl
@[simp] theorem State.setCgStack_symOut : (s.setCgStack v).symOut = s.symOut := rfl
@[simp] theorem State.setCgStack_lastErr : (s.setCgStack v).lastErr = s.lastErr := rfl
@[simp] theorem State.setCgStack_heap : (s.setCgStack v).heap = s.heap := rfl
@[simp] theorem State.setCgStack_cgStack : (s.setCgStack v).cgStack = v := rfl
@[simp] theorem State.setCgStack_walk : (s.setCgStack v).walk = s.walk := rfl
@[simp] theorem State.setCgStack_host : (s.setCgStack v).host = s.host := rfl
@[simp] theorem State.setCgStack_rsp : (s.setCgStack v).rsp = s.rsp := rfl
end setCgStack

section setWalk
variable (s : State) (v : Option Walk)
@[simp] theorem State.setWalk_cfg : (s.setWalk v).cfg = s.cfg := rfl
@[simp] theorem State.setWalk_session : (s.setWalk v).session = s.session := rfl
@[simp] theorem State.setWalk_symIn : (s.setWalk v).symIn = s.symIn := rfl
@[simp] theorem State.setWalk_bitBuf : (s.setWalk v).bitBuf = s.bitBuf := rfl
@[simp] theorem State.setWalk_symOut : (s.setWalk v).symOut = s.symOut := rfl
@[simp] theorem State.setWalk_lastErr : (s.setWalk v).lastErr = s.lastErr := rfl
@[simp] theorem State.setWalk_heap : (s.setWalk v).heap = s.heap := rfl
@[simp] theorem State.setWalk_cgStack : (s.setWalk v).cgStack = s.cgStack := rfl
@[simp] theorem State.setWalk_walk : (s.setWalk v).walk = v := rfl
@[simp] theorem State.setWalk_host : (s.setWalk v).host = s.host := rfl
@[simp] theorem State.setWalk_rsp : (s.setWalk v).rsp = s.rsp := rfl
end setWalk

section setHost
variable (s : State) (v : List HostAction)
@[simp] theorem State.setHost_cfg : (s.setHost v).cfg = s.cfg := rfl
@[simp] theorem State.setHost_session : (s.setHost v).session = s.session := rfl
@[simp] theorem State.setHost_symIn : (s.setHost v).symIn = s.symIn := rfl
@[simp] theorem State.setHost_bitBuf : (s.setHost v).bitBuf = s.bitBuf := rfl
@[simp] theorem State.setHost_symOut : (s.setHost v).symOut = s.symOut := rfl
@[simp] theorem State.setHost_lastErr : (s.setHost v).lastErr = s.lastErr := rfl
@[simp] theorem State.setHost_heap : (s.setHost v).heap = s.heap := rfl
@[simp] theorem State.setHost_cgStack : (s.setHost v).cgStack = s.cgStack := rfl
@[simp] theorem State.setHost_walk : (s.setHost v).walk = s.walk := rfl
@[simp] theorem State.setHost_host : (s.setHost v).host = v := rfl
@[simp] theorem State.setHost_rsp : (s.setHost v).rsp = s.rsp := rfl
end setHost

section setRsp
variable (s : State) (v : Option Response)
@[simp] theorem State.setRsp_cfg : (s.setRsp v).cfg = s.cfg := rfl
@[simp] theorem State.setRsp_session : (s.setRsp v).session = s.session := rfl
@[simp] theorem State.setRsp_symIn : (s.setRsp v).symIn = s.symIn := rfl
@[simp] theorem State.setRsp_bitBuf : (s.setRsp v).bitBuf = s.bitBuf := rfl
@[simp] theorem State.setRsp_symOut : (s.setRsp v).symOut = s.symOut := rfl
@[simp] theorem State.setRsp_lastErr : (s.setRsp v).lastErr = s.lastErr := rfl
@[simp] theorem State.setRsp_heap : (s.setRsp v).heap = s.heap := rfl
@[simp] theorem State.setRsp_cgStack : (s.setRsp v).cgStack = s.cgStack := rfl
@[simp] theorem State.setRsp_walk : (s.setRsp v).walk = s.walk := rfl
@[simp] theorem State.setRsp_host : (s.setRsp v).host = s.host := rfl
@[simp] theorem State.setRsp_rsp : (s.setRsp v).rsp = v := rfl
end setRsp

/-! ### The reset state in the instance's configuration -/

section resetState
variable (s : State)
@[simp] theorem resetState_cfg : (resetState s).cfg = s.cfg := rfl
@[simp] theorem resetState_session : (resetState s).session = Session.nothing := rfl
@[simp] theorem resetState_symIn : (resetState s).symIn = [] := rfl
@[simp] theorem resetState_bitBuf : (resetState s).bitBuf = [] := rfl
@[simp] theorem resetState_symOut : (resetState s).symOut = [] := rfl
@[simp] theorem resetState_lastErr : (resetState s).lastErr = .ok := rfl
@[simp] theorem resetState_heap : (resetState s).heap = [] := rfl
@[simp] theorem resetState_cgStack : (resetState s).cgStack = [] := rfl
@[simp] theorem resetState_walk : (resetState s).walk = none := rfl
@[simp] theorem resetState_host : (resetState s).host = s.host := rfl
@[simp] theorem resetState_rsp : (resetState s).rsp = none := rfl
end resetState

/-! ### Two states with equal fields are equal -/

theorem State.ext_fields {s t : State} (hcfg : s.cfg = t.cfg) (hses : s.session = t.session) (hin : s.symIn = t.symIn)
    (hbit : s.bitBuf = t.bitBuf) (hout : s.symOut = t.symOut) (herr : s.lastErr = t.lastErr) (hheap : s.heap = t.heap)
    (hcg : s.cgStack = t.cgStack) (hwalk : s.walk = t.walk) (hhost : s.host = t.host) (hrsp : s.rsp = t.rsp) : s = t := by
  cases s; cases t; simp_all

theorem Session.ext_fields {x y : Session} (hfreq : x.freq = y.freq) (hn : x.nsyms = y.nsyms) (hnode : x.node = y.node)
    (hroot : x.root = y.root) (hval : x.treeValid = y.treeValid) (hcode : x.code = y.code) : x = y := by
  cases x; cases y; simp_all

end Sys2Proof.Machine
end

