-- ==== Sys2Proof/Laws/Heap.lean ====
section
/-! SUPPORT. What the heap operations do (spec/41_tree_builder.md rules R132 to R134), said once: on a heap whose
indices name cells that hold a value, both operations end, keep the indices as a multiset, keep the heap order, and
the extraction gives the least index under `less` (spec/00_scope.md rule R13). -/

namespace Sys2Proof.Machine

/-! ### The node order as a comparison of numbers -/

/-- The ordered key (frequency, index) of R13 as one number. -/
def nodeKey (node : List Node) (x : NodeIx) : Nat := (nodeFreq? node x).getD 0 * 512 + x.toNat

theorem nodeFreq?_isSome {node : List Node} {x : NodeIx} (h : x.toNat < node.length) :
    ∃ f, nodeFreq? node x = some f :=
  ⟨_, by simp [nodeFreq?, nodeAt?, List.getElem?_eq_getElem h]; rfl⟩

theorem keyLess_eq (fi fj : Nat) (i j : NodeIx) :
    keyLess fi i fj j = decide (fi * 512 + i.toNat < fj * 512 + j.toNat) := by
  have hi := i.isLt
  have hj := j.isLt
  rw [Bool.eq_iff_iff]
  simp only [keyLess, Bool.or_eq_true, Bool.and_eq_true, decide_eq_true_eq]
  omega

theorem less?_eq {node : List Node} {x y : NodeIx} (hx : x.toNat < node.length) (hy : y.toNat < node.length) :
    less? node x y = some (decide (nodeKey node x < nodeKey node y)) := by
  obtain ⟨fx, hfx⟩ := nodeFreq?_isSome hx
  obtain ⟨fy, hfy⟩ := nodeFreq?_isSome hy
  simp [less?, nodeKey, hfx, hfy, keyLess_eq]

theorem nodeKey_inj {node : List Node} {x y : NodeIx} (h : nodeKey node x = nodeKey node y) : x = y := by
  have hx := x.isLt
  have hy := y.isLt
  unfold nodeKey at h
  exact BitVec.eq_of_toNat_eq (by omega)

/-! ### Cells of the heap array -/

/-- The key at position `k` of the heap array. -/
def cellKey (node : List Node) (h : List NodeIx) (k : Nat) : Nat := nodeKey node (h[k]?.getD 0)

/-- All heap cells name cells of NODE that hold a value. -/
abbrev InNode (node : List Node) (h : List NodeIx) : Prop := ∀ x ∈ h, x.toNat < node.length

theorem cellLess?_eq {node : List Node} {h : List NodeIx} (hin : InNode node h) {a b : Nat} (ha : a < h.length)
    (hb : b < h.length) : cellLess? node h a b = some (decide (cellKey node h a < cellKey node h b)) := by
  simp [cellLess?, cellKey, List.getElem?_eq_getElem ha, List.getElem?_eq_getElem hb,
    less?_eq (hin _ (List.getElem_mem ha)) (hin _ (List.getElem_mem hb))]

theorem swapCells_eq {h : List NodeIx} {a b : Nat} (ha : a < h.length) (hb : b < h.length) :
    swapCells h a b = (h.set a h[b]).set b h[a] := by
  simp [swapCells, List.getElem?_eq_getElem ha, List.getElem?_eq_getElem hb]

theorem swapCells_perm {h : List NodeIx} {a b : Nat} (ha : a < h.length) (hb : b < h.length) :
    (swapCells h a b).Perm h := by
  rw [swapCells_eq ha hb]
  exact List.set_set_perm ha hb

theorem cellKey_swapCells {node : List Node} {h : List NodeIx} {a b : Nat} (ha : a < h.length) (hb : b < h.length)
    (c : Nat) : cellKey node (swapCells h a b) c =
      if c = b then cellKey node h a else if c = a then cellKey node h b else cellKey node h c := by
  simp only [cellKey, swapCells_eq ha hb, List.getElem?_set, List.length_set]
  by_cases hcb : c = b
  · subst hcb; simp [hb, List.getElem?_eq_getElem ha]
  · by_cases hca : c = a
    · subst hca; simp [hcb, Ne.symm hcb, ha, List.getElem?_eq_getElem hb]
    · simp [hcb, hca, Ne.symm hcb, Ne.symm hca]

theorem InNode.perm {node : List Node} {h h' : List NodeIx} (hin : InNode node h) (hp : h'.Perm h) : InNode node h' :=
  fun x hx => hin x (hp.mem_iff.mp hx)

theorem InNode.append_node {node : List Node} {h : List NodeIx} (hin : InNode node h) (n : Node) :
    InNode (node ++ [n]) h := fun x hx => by
  have := hin x hx
  simp; omega

/-! ### Order except around one position -/

/-- Every position but `k` is not less than its parent, and the children of `k` are not less than `k`'s parent. -/
structure OrderedUp (node : List Node) (h : List NodeIx) (k : Nat) : Prop where
  parent : ∀ c, 1 ≤ c → c < h.length → c ≠ k → cellKey node h ((c - 1) / 2) ≤ cellKey node h c
  grand : ∀ c, 1 ≤ c → c < h.length → (c - 1) / 2 = k → 1 ≤ k → cellKey node h ((k - 1) / 2) ≤ cellKey node h c

/-- Every position whose parent is not `k` is not less than its parent, and the children of `k` are not less than `k`'s
parent. -/
structure OrderedDown (node : List Node) (h : List NodeIx) (k : Nat) : Prop where
  parent : ∀ c, 1 ≤ c → c < h.length → (c - 1) / 2 ≠ k → cellKey node h ((c - 1) / 2) ≤ cellKey node h c
  grand : ∀ c, 1 ≤ c → c < h.length → (c - 1) / 2 = k → 1 ≤ k → cellKey node h ((k - 1) / 2) ≤ cellKey node h c

/-- The heap order as a comparison of keys. -/
def KeysOrdered (node : List Node) (h : List NodeIx) : Prop :=
  ∀ c, 1 ≤ c → c < h.length → cellKey node h ((c - 1) / 2) ≤ cellKey node h c

theorem heapOrdered_iff {node : List Node} {h : List NodeIx} (hin : InNode node h) :
    HeapOrdered node h ↔ KeysOrdered node h := by
  refine forall_congr' fun k => forall_congr' fun h1 => forall_congr' fun h2 => ?_
  rw [cellLess?_eq hin h2 (by omega)]
  simp

/-- What the loop of `HEAP_INSERT` does (R132). -/
theorem siftUp_spec {node : List Node} : ∀ (bound : Nat) (h : List NodeIx) (k : Nat), InNode node h → k < h.length →
    k ≤ bound → ∃ h', siftUp node bound h k = some h' ∧ h'.Perm h ∧ (OrderedUp node h k → KeysOrdered node h') := by
  intro bound
  induction bound with
  | zero =>
    intro h k _ _ hb
    obtain rfl : k = 0 := by omega
    exact ⟨h, rfl, .refl _, fun ho c h1 h2 => ho.parent c h1 h2 (by omega)⟩
  | succ bound ih =>
    intro h k hin hk hb
    by_cases hk0 : k = 0
    · subst hk0
      exact ⟨h, by simp [siftUp], .refl _, fun ho c h1 h2 => ho.parent c h1 h2 (by omega)⟩
    have hp : (k - 1) / 2 < h.length := by omega
    by_cases hlt : cellKey node h k < cellKey node h ((k - 1) / 2)
    · have hperm := swapCells_perm hk hp
      obtain ⟨h', he, hp', ho'⟩ := ih (swapCells h k ((k - 1) / 2)) ((k - 1) / 2) (hin.perm hperm)
        (by rw [hperm.length_eq]; omega) (by omega)
      refine ⟨h', by simp [siftUp, hk0, cellLess?_eq hin hk hp, hlt, he], hp'.trans hperm, fun ho => ho' ⟨?_, ?_⟩⟩
      · intro c h1 h2 hc
        rw [hperm.length_eq] at h2
        simp only [cellKey_swapCells hk hp]
        have := ho.parent c h1 h2
        have := ho.grand c h1 h2
        split_ifs <;> subst_vars <;> first | omega | (simp_all; omega)
      · intro c h1 h2 hc hp1
        rw [hperm.length_eq] at h2
        simp only [cellKey_swapCells hk hp]
        have h3 := ho.parent ((k - 1) / 2) hp1 hp (by omega)
        have h4 := ho.parent c h1 h2
        rw [hc] at h4
        split_ifs <;> subst_vars <;> omega
    · refine ⟨h, by simp [siftUp, hk0, cellLess?_eq hin hk hp, hlt], .refl _, fun ho c h1 h2 => ?_⟩
      by_cases hck : c = k
      · subst hck; omega
      · exact ho.parent c h1 h2 hck

theorem lesserCell?_spec {node : List Node} {h : List NodeIx} (hin : InNode node h) {t c : Nat} (ht : t < h.length) :
    ∃ u, lesserCell? node h t c = some u ∧ u < h.length ∧ (u = t ∨ u = c) ∧ cellKey node h u ≤ cellKey node h t ∧
      (c < h.length → cellKey node h u ≤ cellKey node h c) := by
  unfold lesserCell?
  split
  · rename_i hc
    rw [cellLess?_eq hin hc ht]
    by_cases hlt : cellKey node h c < cellKey node h t
    · exact ⟨c, by simp [hlt], hc, .inr rfl, by omega, fun _ => le_refl _⟩
    · exact ⟨t, by simp [hlt], ht, .inl rfl, le_refl _, fun _ => by omega⟩
  · exact ⟨t, rfl, ht, .inl rfl, le_refl _, fun hc => absurd hc ‹_›⟩

theorem leastOfThree?_spec {node : List Node} {h : List NodeIx} (hin : InNode node h) {k : Nat} (hk : k < h.length) :
    ∃ t, leastOfThree? node h k = some t ∧ t < h.length ∧ (t = k ∨ t = 2 * k + 1 ∨ t = 2 * k + 2) ∧
      cellKey node h t ≤ cellKey node h k ∧
      ∀ c, 1 ≤ c → c < h.length → (c - 1) / 2 = k → cellKey node h t ≤ cellKey node h c := by
  obtain ⟨u, hu, hul, hue, huk, huc⟩ := lesserCell?_spec hin (c := 2 * k + 1) hk
  obtain ⟨t, ht, htl, hte, htu, htc⟩ := lesserCell?_spec hin (c := 2 * k + 2) hul
  refine ⟨t, by simp [leastOfThree?, hu, ht], htl, by omega, by omega, fun c h1 h2 hc => ?_⟩
  obtain rfl | rfl : c = 2 * k + 1 ∨ c = 2 * k + 2 := by omega
  · exact htu.trans (huc h2)
  · exact htc h2

/-- What the loop of `HEAP_EXTRACT_MIN` does (R133). -/
theorem siftDown_spec {node : List Node} : ∀ (bound : Nat) (h : List NodeIx) (k : Nat), InNode node h → k < h.length →
    h.length ≤ bound + k →
    ∃ h', siftDown node bound h k = some h' ∧ h'.Perm h ∧ (OrderedDown node h k → KeysOrdered node h') := by
  intro bound
  induction bound with
  | zero => intro h k _ _ _; omega
  | succ bound ih =>
    intro h k hin hk hb
    obtain ⟨t, ht, htl, hte, htk, htc⟩ := leastOfThree?_spec hin hk
    by_cases hkt : t = k
    · refine ⟨h, by simp [siftDown, ht, hkt], .refl _, fun ho c h1 h2 => ?_⟩
      by_cases hc : (c - 1) / 2 = k
      · have := htc c h1 h2 hc
        rw [hc]; subst hkt; exact this
      · exact ho.parent c h1 h2 hc
    · have hperm := swapCells_perm hk htl
      obtain ⟨h', he, hp', ho'⟩ := ih (swapCells h k t) t (hin.perm hperm) (by rw [hperm.length_eq]; exact htl)
        (by rw [hperm.length_eq]; omega)
      refine ⟨h', by simp [siftDown, ht, hkt, he], hp'.trans hperm, fun ho => ho' ⟨?_, ?_⟩⟩
      · intro c h1 h2 hc
        rw [hperm.length_eq] at h2
        simp only [cellKey_swapCells hk htl]
        have h3 := ho.parent c h1 h2
        have h4 := htc c h1 h2
        have h5 := ho.grand t (by omega) htl (by omega)
        split_ifs <;> subst_vars <;> omega
      · intro c h1 h2 hc hp1
        rw [hperm.length_eq] at h2
        simp only [cellKey_swapCells hk htl]
        have h3 := ho.parent c h1 h2
        rw [hc] at h3
        split_ifs <;> subst_vars <;> omega

/-- The root of an ordered heap is the least. -/
theorem KeysOrdered.root_le {node : List Node} {h : List NodeIx} (ho : KeysOrdered node h) :
    ∀ k, k < h.length → cellKey node h 0 ≤ cellKey node h k := by
  intro k
  induction k using Nat.strong_induction_on with
  | _ k ih =>
    intro hk
    by_cases h0 : k = 0
    · subst h0; exact le_refl _
    · exact (ih ((k - 1) / 2) (by omega) (by omega)).trans (ho k (by omega) hk)

/-! ### The two operations -/

theorem cellKey_append_lt {node : List Node} {h : List NodeIx} (x : NodeIx) {k : Nat} (hk : k < h.length) :
    cellKey node (h ++ [x]) k = cellKey node h k := by
  simp [cellKey, List.getElem?_append_left hk]

/-- `HEAP_INSERT(x)` ends, adds `x` to the indices and keeps the heap order (R132, R134). -/
theorem heapInsert_spec {x : NodeIx} {s : State} (hx : x.toNat < s.session.node.length)
    (hin : InNode s.session.node s.heap) :
    ∃ h, heapInsert x s = .ok (s.setHeap h) ∧ h.Perm (x :: s.heap) ∧
      (KeysOrdered s.session.node s.heap → KeysOrdered s.session.node h) := by
  have hin' : InNode s.session.node (s.heap ++ [x]) := fun y hy => by
    rcases List.mem_append.mp hy with hy | hy
    · exact hin y hy
    · obtain rfl := List.mem_singleton.mp hy; exact hx
  obtain ⟨h, he, hp, ho⟩ := siftUp_spec s.heap.length (s.heap ++ [x]) s.heap.length hin' (by simp) (le_refl _)
  refine ⟨h, by simp [heapInsert, he], hp.trans (List.perm_append_singleton x s.heap), fun hs => ho ⟨?_, ?_⟩⟩
  · intro c h1 h2 hc
    rw [List.length_append, List.length_singleton] at h2
    rw [cellKey_append_lt x (by omega), cellKey_append_lt x (by omega)]
    exact hs c h1 (by omega)
  · intro c _ h2 hc h3
    rw [List.length_append, List.length_singleton] at h2
    omega

/-- The heap without its root cell: the indices left over, in heap order (R133, R134). -/
theorem removeRoot_spec {node : List Node} {m : NodeIx} {rest : List NodeIx} (hin : InNode node (m :: rest)) :
    ∃ h, removeRoot node rest = some h ∧ h.Perm rest ∧
      (KeysOrdered node (m :: rest) → KeysOrdered node h) := by
  rcases List.eq_nil_or_concat rest with rfl | ⟨init, x, rfl⟩
  · exact ⟨[], rfl, .refl _, fun _ c _ h2 => absurd h2 (by simp)⟩
  · rw [List.concat_eq_append] at hin ⊢
    have hperm : (x :: init).Perm (init ++ [x]) := (List.perm_append_singleton x init).symm
    have hin' : InNode node (x :: init) := fun y hy => hin y (List.mem_cons_of_mem _ (hperm.mem_iff.mp hy))
    obtain ⟨h, he, hp, ho⟩ := siftDown_spec (init ++ [x]).length (x :: init) 0 hin' (by simp) (by simp)
    refine ⟨h, by simp [removeRoot] at he ⊢; exact he, hp.trans hperm, fun hs => ho ⟨?_, by omega⟩⟩
    have hcell : ∀ c, 1 ≤ c → c < init.length + 1 → cellKey node (x :: init) c = cellKey node (m :: (init ++ [x])) c := by
      intro c h1 h2
      obtain ⟨c, rfl⟩ : ∃ d, c = d + 1 := ⟨c - 1, by omega⟩
      simp [cellKey, List.getElem?_append_left (show c < init.length by omega)]
    intro c h1 h2 hc
    rw [List.length_cons] at h2
    rw [hcell c h1 h2, hcell _ (by omega) (by omega)]
    exact hs c h1 (by simp; omega)

/-- `HEAP_EXTRACT_MIN()` on a heap that is not empty ends, removes the index it returns, keeps the heap order, and
returns the least key (R133, R134). -/
theorem heapExtractMin_spec {s : State} (hne : s.heap ≠ []) (hin : InNode s.session.node s.heap) :
    ∃ m h, heapExtractMin s = .ok (m, s.setHeap h) ∧ (m :: h).Perm s.heap ∧
      (KeysOrdered s.session.node s.heap → KeysOrdered s.session.node h ∧
        ∀ y ∈ s.heap, nodeKey s.session.node m ≤ nodeKey s.session.node y) := by
  obtain ⟨m, rest, heq⟩ := List.exists_cons_of_ne_nil hne
  rw [heq] at hin ⊢
  obtain ⟨h, he, hp, ho⟩ := removeRoot_spec hin
  refine ⟨m, h, by simp [heapExtractMin, heq, he], hp.cons m, fun hs => ⟨ho hs, fun y hy => ?_⟩⟩
  obtain ⟨k, hk, rfl⟩ := List.getElem_of_mem hy
  simpa [cellKey, List.getElem?_eq_getElem hk] using hs.root_le k hk

end Sys2Proof.Machine
end

