-- ==== Sys2Proof/Laws/Table.lean ====
section
/-! SUPPORT. The laws of a table cell (R63), of the ascending scan over the symbol values, and of the keys of a
frequency table (R21, R22). -/

namespace Sys2Proof.Machine

@[simp] theorem Table.read_write_self {α : Type} (t : Table α) (c : Symbol) (v : α) : (t.write c v).read c = v := by
  simp [Table.read, Table.write]

theorem Table.read_write_ne {α : Type} (t : Table α) {c d : Symbol} (v : α) (h : d ≠ c) :
    (t.write c v).read d = t.read d := by
  have hne : c.toNat ≠ d.toNat := fun he => h (BitVec.eq_of_toNat_eq he.symm)
  simp [Table.read, Table.write, hne]

theorem Table.read_write {α : Type} (t : Table α) (c d : Symbol) (v : α) :
    (t.write c v).read d = if d = c then v else t.read d := by
  split
  · subst_vars; simp
  · exact t.read_write_ne v ‹_›

@[simp] theorem Table.read_replicate {α : Type} (v : α) (c : Symbol) :
    Table.read (Vector.replicate 256 v) c = v := by
  simp [Table.read]

theorem Table.ext_read {α : Type} {t u : Table α} (h : ∀ c, t.read c = u.read c) : t = u := by
  ext i hi
  simpa [Table.read, Nat.mod_eq_of_lt hi] using h (BitVec.ofNat 8 i)

theorem mem_allSymbols (c : Symbol) : c ∈ allSymbols := by
  refine List.mem_map.mpr ⟨c.toNat, List.mem_range.mpr c.isLt, ?_⟩
  simp

theorem length_allSymbols : allSymbols.length = 256 := by simp [allSymbols]

theorem nodup_allSymbols : allSymbols.Nodup := by
  refine List.Nodup.map_on ?_ List.nodup_range
  intro a ha b hb h
  rw [List.mem_range] at ha hb
  have := congrArg BitVec.toNat h
  simpa [Nat.mod_eq_of_lt ha, Nat.mod_eq_of_lt hb] using this

theorem mem_keys {freq : Table Nat} {c : Symbol} : c ∈ keys freq ↔ freq.read c ≠ 0 := by
  simp [keys, mem_allSymbols]

theorem nodup_keys (freq : Table Nat) : (keys freq).Nodup := nodup_allSymbols.filter _

theorem length_keys_le (freq : Table Nat) : (keys freq).length ≤ 256 :=
  length_allSymbols ▸ List.length_filter_le _ _

/-! ### Counting a text (R121, R124) -/

theorem read_bumpCount (freq : Table Nat) (c d : Symbol) :
    (bumpCount freq c).read d = freq.read d + if d = c then 1 else 0 := by
  rw [bumpCount, Table.read_write]
  split
  · subst_vars; rfl
  · rfl

theorem read_foldl_bumpCount (text : List Symbol) (freq : Table Nat) (c : Symbol) :
    (text.foldl bumpCount freq).read c = freq.read c + text.count c := by
  induction text generalizing freq with
  | nil => simp
  | cons a text ih =>
    rw [List.foldl_cons, ih, read_bumpCount, List.count_cons]
    by_cases h : c = a
    · subst h; simp; omega
    · simp [h, Ne.symm h]

/-- A cell of the counted table is the number of occurrences of its symbol (R124). -/
theorem read_countText (text : List Symbol) (c : Symbol) : (countText text).read c = text.count c := by
  simp [countText, read_foldl_bumpCount]

theorem mem_keys_countText {text : List Symbol} {c : Symbol} : c ∈ keys (countText text) ↔ c ∈ text := by
  rw [mem_keys, read_countText, Ne, List.count_eq_zero, not_not]

theorem countText_nil : countText [] = Vector.replicate 256 0 := rfl

theorem keys_replicate_zero : keys (Vector.replicate 256 0) = [] := by
  simp [keys]

theorem keys_countText_ne_nil {text : List Symbol} (h : text ≠ []) : keys (countText text) ≠ [] := by
  obtain ⟨c, cs, rfl⟩ := List.exists_cons_of_ne_nil h
  exact List.ne_nil_of_mem (mem_keys_countText.mpr List.mem_cons_self)

end Sys2Proof.Machine
end

