-- ==== Sys2Proof/Laws/Builder.lean ====
section
/-! SUPPORT. What the Tree Builder does (spec/41_tree_builder.md rules R131 to R140): from any state with a non-empty
frequency table `TB_RUN` ends, writes NODE, NNODES, ROOT and TREE_VALID, leaves the heap empty and nothing else
changed, and what it leaves is a tree for the table. -/

namespace Sys2Proof.Machine

/-- The state with another node memory and another heap. -/
abbrev State.withForest (s : State) (node : List Node) (heap : List NodeIx) : State :=
  (s.setSession (s.session.setNode node)).setHeap heap

theorem nodeFreq?_append_left {node : List Node} {x : NodeIx} (h : x.toNat < node.length) (l : List Node) :
    nodeFreq? (node ++ l) x = nodeFreq? node x := by
  simp [nodeFreq?, nodeAt?, List.getElem?_append_left h]

theorem nodeFreq?_new {node : List Node} {n : Node} (h : node.length < 512) :
    nodeFreq? (node ++ [n]) (BitVec.ofNat 9 node.length) = some n.freq := by
  simp [nodeFreq?, nodeAt?, Nat.mod_eq_of_lt h]

theorem nodeKey_append {node : List Node} {x : NodeIx} (h : x.toNat < node.length) (l : List Node) :
    nodeKey (node ++ l) x = nodeKey node x := by
  simp [nodeKey, nodeFreq?_append_left h]

theorem cellKey_append {node : List Node} {h : List NodeIx} (hin : InNode node h) (l : List Node) {k : Nat}
    (hk : k < h.length) : cellKey (node ++ l) h k = cellKey node h k := by
  simp [cellKey, List.getElem?_eq_getElem hk, nodeKey_append (hin _ (List.getElem_mem hk))]

theorem KeysOrdered.append_node {node : List Node} {h : List NodeIx} (ho : KeysOrdered node h) (hin : InNode node h)
    (l : List Node) : KeysOrdered (node ++ l) h := fun c h1 h2 => by
  rw [cellKey_append hin l h2, cellKey_append hin l (by omega)]
  exact ho c h1 h2

theorem toNat_newIx {n : Nat} (h : n < 512) : (BitVec.ofNat 9 n).toNat = n := by
  simp [Nat.mod_eq_of_lt h]

/-- Allocating a node ends: the record goes to the end of NODE and its index into the heap (R131, R135, R137). -/
theorem allocNode_spec {n : Node} {s : State} (hin : InNode s.session.node s.heap) (hlen : s.session.node.length < 512) :
    ∃ h, allocNode n s = .ok (s.withForest (s.session.node ++ [n]) h) ∧
      h.Perm (BitVec.ofNat 9 s.session.node.length :: s.heap) ∧
      (KeysOrdered s.session.node s.heap → KeysOrdered (s.session.node ++ [n]) h) := by
  obtain ⟨h, he, hp, ho⟩ := heapInsert_spec (x := BitVec.ofNat 9 s.session.node.length)
    (s := s.setSession (s.session.setNode (s.session.node ++ [n])))
    (by simp [toNat_newIx hlen]) (by simpa using hin.append_node n)
  exact ⟨h, by rw [allocNode, he], by simpa using hp, fun hs => ho (hs.append_node hin [n])⟩

/-! ### Leaves -/

theorem tbLeafScan_spec (cs : List Symbol) : ∀ s : State, InNode s.session.node s.heap →
    s.session.node.length + cs.length ≤ 512 → KeysOrdered s.session.node s.heap →
    ∃ h, tbLeafScan cs s = .ok (s.withForest (s.session.node ++
        (cs.filter fun c => s.session.freq.read c != 0).map fun c => .leaf (s.session.freq.read c) c) h) ∧
      (h.map BitVec.toNat).Perm (s.heap.map BitVec.toNat ++
        List.range' s.session.node.length (cs.filter fun c => s.session.freq.read c != 0).length) ∧
      KeysOrdered (s.session.node ++
        (cs.filter fun c => s.session.freq.read c != 0).map fun c => .leaf (s.session.freq.read c) c) h := by
  induction cs with
  | nil => intro s _ _ ho; exact ⟨s.heap, by
      simp only [List.filter_nil, List.map_nil, List.append_nil]; rfl, by simp, by simpa using ho⟩
  | cons c cs ih =>
    intro s hin hlen ho
    rw [List.length_cons] at hlen
    by_cases hz : s.session.freq.read c = 0
    · obtain ⟨h, he, hp, hk⟩ := ih s hin (by omega) ho
      exact ⟨h, by simp [tbLeafScan, tbLeaf, hz, he], by simpa [hz] using hp, by simpa [hz] using hk⟩
    · obtain ⟨h1, he1, hp1, hk1⟩ := allocNode_spec (n := .leaf (s.session.freq.read c) c) hin (by omega)
      obtain ⟨h, he, hp, hk⟩ := ih (s.withForest (s.session.node ++ [.leaf (s.session.freq.read c) c]) h1)
        (fun x hx => by
          rcases List.mem_cons.mp (hp1.mem_iff.mp hx) with rfl | hx
          · simp [toNat_newIx (show s.session.node.length < 512 by omega)]
          · exact hin.append_node _ x hx)
        (by simp; omega) (by simpa using hk1 ho)
      refine ⟨h, ?_, ?_, ?_⟩
      · simp only [tbLeafScan, tbLeaf, hz, if_false, he1, he]
        simp [hz, State.withForest, State.setHeap, State.setSession, Session.setNode]
      · refine hp.trans ?_
        have hp2 := hp1.map BitVec.toNat
        rw [List.map_cons, toNat_newIx (by omega)] at hp2
        simp only [State.setHeap_session, State.setSession_session, Session.setNode_freq, Session.setNode_node,
          State.setHeap_heap, List.length_append, List.length_singleton]
        simp only [List.filter_cons, bne_iff_ne, ne_eq, hz, not_false_eq_true, if_true, List.length_cons, List.range'_succ]
        exact (hp2.append_right _).trans List.perm_middle.symm
      · simpa [hz] using hk

/-- `TB_LEAVES` (R131): NODE is the list of leaves, and the heap holds all their indices. -/
theorem tbLeaves_spec (s : State) : ∃ h, tbLeaves s = .ok (s.withForest (leavesOf s.session.freq) h) ∧
    (h.map BitVec.toNat).Perm (List.range (keys s.session.freq).length) ∧
    KeysOrdered (leavesOf s.session.freq) h := by
  obtain ⟨h, he, hp, hk⟩ := tbLeafScan_spec allSymbols (s.withForest [] []) (fun _ hx => absurd hx (by simp)) (by simp [length_allSymbols])
    (fun c h1 h2 => absurd h2 (by simp))
  refine ⟨h, ?_, ?_, ?_⟩
  · rw [tbLeaves, he]; rfl
  · simpa [keys, List.range_eq_range'] using hp
  · simpa [keys, leavesOf] using hk

/-! ### The forest between two passes of the merge -/

/-- What holds of NODE and HEAP from the end of `TB_LEAVES` to the start of `TB_FINISH`: the leaves and the merged
records stand as R26 (b) and (c) say, every cell is either the child of exactly one cell or in the heap, and the
frequencies in the heap add up to the sum of the table. -/
structure Forest (freq : Table Nat) (node : List Node) (heap : List NodeIx) : Prop where
  leaves : node.take (keys freq).length = leavesOf freq
  inner : ∀ p n, (keys freq).length ≤ p → node[p]? = some n → InnerRecord freq node p n
  owned : ((childrenOf node).map BitVec.toNat ++ heap.map BitVec.toNat).Perm (List.range node.length)
  total : (heap.map fun x => (nodeFreq? node x).getD 0).sum = freqSum freq
  ordered : KeysOrdered node heap

theorem length_leavesOf (freq : Table Nat) : (leavesOf freq).length = (keys freq).length := by simp [leavesOf]

theorem Forest.length_le {freq : Table Nat} {node : List Node} {heap : List NodeIx} (hf : Forest freq node heap) :
    (keys freq).length ≤ node.length := by
  have := congrArg List.length hf.leaves
  rw [length_leavesOf, List.length_take] at this
  omega

theorem Forest.inNode {freq : Table Nat} {node : List Node} {heap : List NodeIx} (hf : Forest freq node heap) :
    InNode node heap := fun x hx => by
  have : x.toNat ∈ List.range node.length :=
    hf.owned.mem_iff.mp (List.mem_append_right _ (List.mem_map_of_mem hx))
  exact List.mem_range.mp this

theorem Forest.nodup {freq : Table Nat} {node : List Node} {heap : List NodeIx} (hf : Forest freq node heap) :
    heap.Nodup := by
  have h := hf.owned.nodup_iff.mpr List.nodup_range
  exact List.Nodup.of_map _ (List.nodup_append.mp h).2.1

theorem nodeFreq?_append_some {node : List Node} {x : NodeIx} {f : Nat} (h : nodeFreq? node x = some f)
    (l : List Node) : nodeFreq? (node ++ l) x = some f := by
  have hx : x.toNat < node.length := by
    by_contra hc
    simp [nodeFreq?, nodeAt?, List.getElem?_eq_none (Nat.le_of_not_lt hc)] at h
  rw [nodeFreq?_append_left hx, h]

theorem InnerRecord.append {freq : Table Nat} {node : List Node} {p : Nat} {n : Node}
    (h : InnerRecord freq node p n) (l : List Node) : InnerRecord freq (node ++ l) p n := by
  cases n with
  | leaf f c => exact h
  | internal f a b =>
    obtain ⟨h1, h2, h3, h4, fl, fr, h5, h6, h7⟩ := h
    exact ⟨h1, h2, h3, h4, fl, fr, nodeFreq?_append_some h5 l, nodeFreq?_append_some h6 l, h7⟩
  | synth f a =>
    obtain ⟨h1, h2, h3⟩ := h
    exact ⟨h1, h2, nodeFreq?_append_some h3 l⟩

/-- The records stay as they were when one more is allocated. -/
theorem inner_append_one {freq : Table Nat} {node : List Node} {m : Node}
    (h : ∀ p n, (keys freq).length ≤ p → node[p]? = some n → InnerRecord freq node p n)
    (hm : InnerRecord freq node node.length m) :
    ∀ p n, (keys freq).length ≤ p → (node ++ [m])[p]? = some n → InnerRecord freq (node ++ [m]) p n := by
  intro p n hp hn
  rcases Nat.lt_trichotomy p node.length with hlt | heq | hgt
  · rw [List.getElem?_append_left hlt] at hn
    exact (h p n hp hn).append [m]
  · subst heq
    obtain rfl : m = n := by simpa using hn
    exact hm.append [m]
  · rw [List.getElem?_eq_none (by simp; omega)] at hn
    cases hn

theorem childrenOf_append (node : List Node) (n : Node) : childrenOf (node ++ [n]) = childrenOf node ++ n.children := by
  simp [childrenOf]

theorem childrenOf_leavesOf (freq : Table Nat) : childrenOf (leavesOf freq) = [] := by
  simp [childrenOf, leavesOf, Node.children]

theorem sum_filter_ne_zero {α : Type} (f : α → Nat) (l : List α) :
    ((l.filter fun c => f c != 0).map f).sum = (l.map f).sum := by
  induction l with
  | nil => rfl
  | cons a l ih =>
    by_cases h : f a = 0
    · simp [h, ih]
    · simp [h, ih]

theorem sum_leavesOf (freq : Table Nat) : ((leavesOf freq).map Node.freq).sum = freqSum freq := by
  rw [leavesOf, List.map_map]
  exact sum_filter_ne_zero freq.read allSymbols

/-- After `TB_LEAVES` (R131): the forest of single leaves. -/
theorem forest_leaves {freq : Table Nat} {h : List NodeIx}
    (hp : (h.map BitVec.toNat).Perm (List.range (keys freq).length)) (ho : KeysOrdered (leavesOf freq) h) :
    Forest freq (leavesOf freq) h where
  leaves := by rw [← length_leavesOf, List.take_length]
  inner := fun p n hk hn => by
    rw [List.getElem?_eq_none (by rw [length_leavesOf]; exact hk)] at hn
    cases hn
  owned := by rw [childrenOf_leavesOf, length_leavesOf]; simpa using hp
  total := by
    have h1 : (h.map fun x => (nodeFreq? (leavesOf freq) x).getD 0) =
        (h.map BitVec.toNat).map fun i => (((leavesOf freq)[i]?).map Node.freq).getD 0 := by
      simp [nodeFreq?, nodeAt?]
    have h2 : ((List.range (keys freq).length).map fun i => (((leavesOf freq)[i]?).map Node.freq).getD 0) =
        (leavesOf freq).map Node.freq := by
      rw [← length_leavesOf]
      refine List.ext_getElem (by simp) fun i hi _ => ?_
      have : i < (leavesOf freq).length := by simpa using hi
      simp [List.getElem?_eq_getElem this]
    rw [h1, (hp.map _).sum_eq, h2, sum_leavesOf]
  ordered := ho

/-- One merge (R135): the two records taken out of the heap become the children of a new internal node, whose index
enters the heap. -/
theorem tbMergePass_spec {freq : Table Nat} {s : State} (hf : Forest freq s.session.node s.heap)
    (hn : (keys freq).length ≠ 1) (h2 : 2 ≤ s.heap.length) (hlen : s.session.node.length < 512) :
    ∃ rec h, tbMergePass s = .ok (s.withForest (s.session.node ++ [rec]) h) ∧ h.length + 1 = s.heap.length ∧
      Forest freq (s.session.node ++ [rec]) h := by
  obtain ⟨a, h1, he1, hp1, ho1⟩ := heapExtractMin_spec (s := s) (by rintro h; simp [h] at h2) hf.inNode
  have hl1 := hp1.length_eq
  rw [List.length_cons] at hl1
  have hin1 : InNode s.session.node h1 := fun x hx => hf.inNode x (hp1.mem_iff.mp (List.mem_cons_of_mem _ hx))
  obtain ⟨b, h2', he2, hp2, ho2⟩ := heapExtractMin_spec (s := s.setHeap h1) (by rintro h; simp at h; simp [h] at hl1; omega)
    (by simpa using hin1)
  simp only [State.setHeap_heap, State.setHeap_session] at hp2 ho2
  have hl2 := hp2.length_eq
  rw [List.length_cons] at hl2
  have hin2 : InNode s.session.node h2' := fun x hx => hin1 x (hp2.mem_iff.mp (List.mem_cons_of_mem _ hx))
  have ha : a.toNat < s.session.node.length := hf.inNode a (hp1.mem_iff.mp List.mem_cons_self)
  have hb : b.toNat < s.session.node.length := hin1 b (hp2.mem_iff.mp List.mem_cons_self)
  obtain ⟨fa, hfa⟩ := nodeFreq?_isSome ha
  obtain ⟨fb, hfb⟩ := nodeFreq?_isSome hb
  have hne : a ≠ b := by
    have hnd := hp1.nodup_iff.mpr hf.nodup
    rintro rfl
    exact (List.nodup_cons.mp hnd).1 (hp2.mem_iff.mp List.mem_cons_self)
  obtain ⟨h3, he3, hp3, ho3⟩ := allocNode_spec (n := .internal (fa + fb) a b) (s := s.setHeap h2')
    (by simpa using hin2) (by simpa using hlen)
  simp only [State.setHeap_heap, State.setHeap_session] at hp3 ho3
  have hperm : (a :: b :: h2').Perm s.heap := (hp2.cons a).trans hp1
  refine ⟨.internal (fa + fb) a b, h3, ?_, ?_, ?_⟩
  · simp only [tbMergePass, he1, he2, State.setHeap_session, mergedNode?, hfa, hfb]
    exact he3
  · have := hp3.length_eq
    simp only [List.length_cons] at this
    omega
  · refine ⟨?_, inner_append_one hf.inner ⟨hn, ha, hb, hne, fa, fb, hfa, hfb, rfl⟩, ?_, ?_, ho3 (ho2 (ho1 hf.ordered).1).1⟩
    · rw [List.take_append_of_le_length hf.length_le, hf.leaves]
    · have h4 := hp3.map BitVec.toNat
      rw [List.map_cons, toNat_newIx hlen] at h4
      have h5 := hperm.map BitVec.toNat
      simp only [List.map_cons] at h5
      rw [childrenOf_append, List.map_append, List.length_append, List.length_singleton, List.range_succ, Node.children]
      simp only [List.map_cons, List.map_nil, List.append_assoc, List.cons_append, List.nil_append]
      have h6 : ((childrenOf s.session.node).map BitVec.toNat ++ (a.toNat :: b.toNat :: h3.map BitVec.toNat)).Perm
          (s.session.node.length :: ((childrenOf s.session.node).map BitVec.toNat ++
            (a.toNat :: b.toNat :: h2'.map BitVec.toNat))) := by
        refine List.Perm.trans ?_ List.perm_middle
        refine List.Perm.append_left _ ?_
        refine ((h4.cons b.toNat).cons a.toNat).trans ?_
        exact ((List.Perm.swap _ _ _).cons a.toNat).trans (List.Perm.swap _ _ _)
      refine h6.trans (((h5.append_left _).trans hf.owned).cons _ |>.trans ?_)
      exact (List.perm_append_singleton _ _).symm
    · rw [(hp3.map _).sum_eq, List.map_cons, List.sum_cons, nodeFreq?_new hlen, ← hf.total, ← (hperm.map _).sum_eq]
      have : h2'.map (fun x => (nodeFreq? (s.session.node ++ [.internal (fa + fb) a b]) x).getD 0) =
          h2'.map fun x => (nodeFreq? s.session.node x).getD 0 :=
        List.map_congr_left fun x hx => by rw [nodeFreq?_append_left (hin2 x hx)]
      rw [this]
      simp [Node.freq, hfa, hfb]
      omega

/-- `TB_MERGE` (R135): with two leaves or more the passes end when one index is left. -/
theorem tbMerge_spec {freq : Table Nat} (hn : (keys freq).length ≠ 1) : ∀ (bound : Nat) (s : State),
    Forest freq s.session.node s.heap → s.heap.length ≤ bound → 1 ≤ s.heap.length →
    s.session.node.length + s.heap.length = 2 * (keys freq).length →
    ∃ node r, tbMerge bound s = .ok (s.withForest node [r]) ∧ Forest freq node [r] ∧
      node.length + 1 = 2 * (keys freq).length := by
  intro bound
  induction bound with
  | zero => intro s _ h1 h2 _; omega
  | succ bound ih =>
    intro s hf hb h1 hc
    by_cases hle : s.heap.length ≤ 1
    · obtain ⟨r, hr⟩ := List.length_eq_one_iff.mp (show s.heap.length = 1 by omega)
      refine ⟨s.session.node, r, ?_, hr ▸ hf, by omega⟩
      simp only [tbMerge, hle, if_true, ← hr]
      rfl
    · have hk := length_keys_le freq
      obtain ⟨rec, h, he, hl, hf'⟩ := tbMergePass_spec hf hn (by omega) (by omega)
      obtain ⟨node, r, he2, hf2, hc2⟩ := ih (s.withForest (s.session.node ++ [rec]) h) (by simpa using hf')
        (by simp; omega) (by simp; omega) (by simp; omega)
      exact ⟨node, r, by simp only [tbMerge, hle, if_false, he, he2]; rfl, hf2, hc2⟩

/-- `TB_WRAP` (R137): the single leaf gets a synthetic parent. -/
theorem tbWrap_spec {freq : Table Nat} {s : State} (hf : Forest freq s.session.node s.heap)
    (hn : (keys freq).length = 1) (hl : s.session.node.length = 1) (hh : s.heap.length = 1) :
    ∃ node r, tbWrap s = .ok (s.withForest node [r]) ∧ Forest freq node [r] ∧ node.length = 2 := by
  obtain ⟨x, h1, he1, hp1, ho1⟩ := heapExtractMin_spec (s := s) (by rintro h; simp [h] at hh) hf.inNode
  obtain rfl : h1 = [] := by
    have := hp1.length_eq
    rw [List.length_cons] at this
    exact List.eq_nil_of_length_eq_zero (by omega)
  have hx : x.toNat < s.session.node.length := hf.inNode x (hp1.mem_iff.mp List.mem_cons_self)
  obtain rfl : x = 0 := BitVec.eq_of_toNat_eq (by simpa [hl] using hx)
  obtain ⟨f, hfx⟩ := nodeFreq?_isSome hx
  obtain ⟨h3, he3, hp3, ho3⟩ := allocNode_spec (n := .synth f 0) (s := s.setHeap [])
    (fun _ hy => absurd hy (by simp)) (by simp [hl])
  simp only [State.setHeap_heap, State.setHeap_session] at hp3 ho3
  obtain rfl := List.perm_singleton.mp hp3
  refine ⟨_, _, ?_, ⟨?_, inner_append_one (m := .synth f 0) hf.inner ⟨hn, rfl, hfx⟩, ?_, ?_, ho3 (ho1 hf.ordered).1⟩, by simp [hl]⟩
  · simp only [tbWrap, he1, State.setHeap_session, hfx]
    exact he3
  · rw [List.take_append_of_le_length hf.length_le, hf.leaves]
  · have h5 := hf.owned
    have h6 := hp1.map BitVec.toNat
    have h7 : (childrenOf s.session.node).map BitVec.toNat = [] := by
      have := h5.length_eq
      rw [List.length_append, List.length_map, List.length_map, List.length_range, hl, hh] at this
      exact List.map_eq_nil_iff.mpr (List.eq_nil_of_length_eq_zero (by omega))
    rw [childrenOf_append, List.map_append, h7]
    simp [Node.children, hl, List.range_succ]
  · have h6 := hf.total
    rw [← (hp1.map _).sum_eq] at h6
    rw [List.map_cons, List.map_nil, hfx] at h6
    rw [List.map_cons, List.map_nil, nodeFreq?_new (show s.session.node.length < 512 by omega)]
    exact h6

/-- The children of a cell are cells made before it (R26 (c)). -/
theorem child_lt {freq : Table Nat} {node : List Node} (hl : node.take (keys freq).length = leavesOf freq)
    (hi : ∀ p n, (keys freq).length ≤ p → node[p]? = some n → InnerRecord freq node p n) (hk : keys freq ≠ [])
    {p : Nat} {n : Node} (hn : node[p]? = some n) {c : NodeIx} (hc : c ∈ n.children) : c.toNat < p := by
  by_cases hp : p < (keys freq).length
  · have h1 : (leavesOf freq)[p]? = some n := by rw [← hl, List.getElem?_take_of_lt hp, hn]
    rw [leavesOf, List.getElem?_map] at h1
    obtain ⟨k, _, rfl⟩ := Option.map_eq_some_iff.mp h1
    exact absurd hc (by simp [Node.children])
  · have h1 := hi p n (by omega) hn
    cases n with
    | leaf f c => exact absurd h1 (by simp [InnerRecord])
    | internal f a b =>
      simp only [Node.children, List.mem_cons, List.not_mem_nil, or_false] at hc
      obtain ⟨_, h2, h3, _⟩ := h1
      rcases hc with rfl | rfl <;> assumption
    | synth f a =>
      simp only [Node.children, List.mem_cons, List.not_mem_nil, or_false] at hc
      obtain ⟨_, rfl, _⟩ := h1
      subst hc
      have := List.length_pos_of_ne_nil hk
      simp; omega

/-- A forest of one tree is a tree for the table (R26, R140). -/
theorem Forest.treeFor {freq : Table Nat} {node : List Node} {r : NodeIx} (hf : Forest freq node [r])
    (hk : keys freq ≠ [])
    (hc : node.length = if (keys freq).length = 1 then 2 else 2 * (keys freq).length - 1) :
    TreeFor freq node r := by
  have hpos : 0 < node.length := by
    have := List.length_pos_of_ne_nil hk
    split at hc <;> omega
  have howned := hf.owned
  obtain ⟨m, hm⟩ : ∃ m, node.length = m + 1 := ⟨node.length - 1, by omega⟩
  have hnot : m ∉ (childrenOf node).map BitVec.toNat := by
    intro hmem
    obtain ⟨c, hc1, hc2⟩ := List.mem_map.mp hmem
    obtain ⟨n, hn, hcn⟩ := List.mem_flatMap.mp hc1
    obtain ⟨p, hp, rfl⟩ := List.getElem_of_mem hn
    have := child_lt hf.leaves hf.inner hk (List.getElem?_eq_getElem hp) hcn
    omega
  have hr : r.toNat = m := by
    have : m ∈ (childrenOf node).map BitVec.toNat ++ [r].map BitVec.toNat :=
      howned.mem_iff.mpr (List.mem_range.mpr (by omega))
    rcases List.mem_append.mp this with h | h
    · exact absurd h hnot
    · exact (List.mem_singleton.mp h).symm
  refine ⟨hk, hc, hf.leaves, hf.inner, ?_, by omega, ?_⟩
  · rw [hm, List.range_succ, List.map_singleton, hr] at howned
    rw [hm, Nat.add_sub_cancel]
    exact (List.perm_append_right_iff _).mp howned
  · obtain ⟨f, hfr⟩ := nodeFreq?_isSome (hf.inNode r (by simp))
    have := hf.total
    simp only [List.map_cons, List.map_nil, hfr, Option.getD_some, List.sum_cons, List.sum_nil, Nat.add_zero] at this
    rw [hfr, this]

/-! ### The whole unit -/

/-- `TB_RUN` on a non-empty table (R139, R140): it ends, with a tree for the table in NODE, NNODES and ROOT, TREE_VALID
set, the heap empty, and nothing else changed. -/
theorem tbRun_spec {s : State} (hk : keys s.session.freq ≠ []) :
    ∃ node root, tbRun s = .done ((s.setSession (((s.session.setNode node).setRoot root).setTreeValid true)).setHeap []) ∧
      TreeFor s.session.freq node root := by
  obtain ⟨h, he, hp, ho⟩ := tbLeaves_spec s
  have hf := forest_leaves hp ho
  have hlh : h.length = (keys s.session.freq).length := by simpa using hp.length_eq
  have hpos := List.length_pos_of_ne_nil hk
  obtain ⟨node, r, hj, hf2, hc⟩ : ∃ node r, tbJoin (s.withForest (leavesOf s.session.freq) h) =
      .ok (s.withForest node [r]) ∧ Forest s.session.freq node [r] ∧
      node.length = if (keys s.session.freq).length = 1 then 2 else 2 * (keys s.session.freq).length - 1 := by
    by_cases h1 : (keys s.session.freq).length = 1
    · obtain ⟨node, r, hw, hf2, hc⟩ := tbWrap_spec (s := s.withForest (leavesOf s.session.freq) h)
        (by simpa using hf) h1 (by simp [length_leavesOf, h1]) (by simp [hlh, h1])
      exact ⟨node, r, by simp only [tbJoin, State.setHeap_heap, hlh, h1, if_true, hw]; rfl, hf2, by simp [h1, hc]⟩
    · obtain ⟨node, r, hw, hf2, hc⟩ := tbMerge_spec h1 h.length (s.withForest (leavesOf s.session.freq) h)
        (by simpa using hf) (by simp) (by simp; omega) (by simp [length_leavesOf, hlh]; omega)
      refine ⟨node, r, ?_, hf2, by simp only [h1, if_false]; omega⟩
      simp only [tbJoin, State.setHeap_heap, hlh, h1, if_false]
      rw [← hlh, hw]
      rfl
  have hfin : tbFinish (s.withForest node [r]) =
      .ok ((s.setSession (((s.session.setNode node).setRoot r).setTreeValid true)).setHeap []) := rfl
  refine ⟨node, r, ?_, hf2.treeFor hk hc⟩
  have hne : (s.withForest (leavesOf s.session.freq) h).heap.length ≠ 0 := by simp [hlh]; omega
  simp only [tbRun, he, hne, if_false, hj, hfin, UnitEnd.ofExcept]

end Sys2Proof.Machine
end

