-- ==== Sys2Proof/Laws/Decode.lean ====
section
/-! SUPPORT. The command word as a number (spec/30_encoding.md rules R90 to R94): the word of a command is its row's match
word plus its operands, the mask test of a row is an equality of quotients, and a word that a row matches has that row's
opcode. -/

namespace Sys2Proof

/-- The operand bits of a command as one number (R91). -/
def Instr.payload : Instr → Nat
  | .nop => 0
  | .reset => 0
  | .symClr => 0
  | .symPush v => v.toNat
  | .bitClr => 0
  | .bitPush b => b.toNat
  | .compress => 0
  | .decompress => 0
  | .rdReg r => r.toNat
  | .rdFreq s => s.toNat
  | .rdCodelen s => s.toNat
  | .rdCodebit s k => k.toNat * 256 + s.toNat
  | .rdNodeFreq i => i.toNat
  | .rdNodeLink i => i.toNat
  | .rdBit i => i.toNat
  | .rdSym i => i.toNat

/-- The number of operand bits of a mnemonic's format (R91). -/
abbrev Mnemonic.operandWidth (m : Mnemonic) : Nat := m.format.widths.sum

theorem toNat_append_cast {a n : Nat} (h : a + n = 32) (x : BitVec a) (v : BitVec n) :
    ((x ++ v).cast h).toNat = x.toNat * 2 ^ n + v.toNat := by
  rw [BitVec.toNat_cast, BitVec.toNat_append, ← Nat.shiftLeft_add_eq_or_of_lt v.isLt, Nat.shiftLeft_eq]

/-- The word of a command as a number. -/
theorem toNat_encode (i : Instr) : (encode i).toNat = i.mnemonic.matchWord.toNat + i.payload := by
  cases i with
  | nop => decide
  | reset => decide
  | symClr => decide
  | symPush v => exact toNat_append_cast (a := 24) rfl (0x3#4 ++ 0#20) v
  | bitClr => decide
  | bitPush b => exact toNat_append_cast (a := 31) rfl (0x5#4 ++ 0#27) b
  | compress => decide
  | decompress => decide
  | rdReg r => exact toNat_append_cast (a := 28) rfl (0x8#4 ++ 0#24) r
  | rdFreq s => exact toNat_append_cast (a := 24) rfl (0x9#4 ++ 0#20) s
  | rdCodelen s => exact toNat_append_cast (a := 24) rfl (0xA#4 ++ 0#20) s
  | rdCodebit s k =>
    have h : (0xB#4 ++ 0#12 ++ k).toNat = 0xB000 * 256 + k.toNat := by
      rw [BitVec.toNat_append, ← Nat.shiftLeft_add_eq_or_of_lt k.isLt, Nat.shiftLeft_eq]
      rfl
    refine (toNat_append_cast (a := 24) rfl (0xB#4 ++ 0#12 ++ k) s).trans ?_
    rw [h]
    simp [Instr.payload, Instr.mnemonic, Mnemonic.matchWord]
    omega
  | rdNodeFreq i => exact toNat_append_cast (a := 23) rfl (0xC#4 ++ 0#19) i
  | rdNodeLink i => exact toNat_append_cast (a := 23) rfl (0xD#4 ++ 0#19) i
  | rdBit i => exact toNat_append_cast (a := 4) rfl 0xE#4 i
  | rdSym i => exact toNat_append_cast (a := 4) rfl 0xF#4 i

theorem payload_lt (i : Instr) : i.payload < 2 ^ i.mnemonic.operandWidth := by
  cases i <;> simp [Instr.payload, Instr.mnemonic, Mnemonic.operandWidth, Mnemonic.format, Format.widths] <;> omega

/-- A mask of the bits from `k` up keeps a word's quotient by `2 ^ k` and nothing else. -/
theorem and_highMask_eq {k : Nat} (w m : Word) (hm : m.toNat % 2 ^ k = 0) :
    w &&& (BitVec.allOnes 32 <<< k) = m ↔ w.toNat / 2 ^ k = m.toNat / 2 ^ k := by
  have h1 : w &&& (BitVec.allOnes 32 <<< k) = (w >>> k) <<< k := by
    refine BitVec.eq_of_getLsbD_eq fun i hi => ?_
    rw [BitVec.getLsbD_and, BitVec.getLsbD_shiftLeft, BitVec.getLsbD_shiftLeft, BitVec.getLsbD_ushiftRight,
      BitVec.getLsbD_allOnes]
    by_cases h : i < k
    · simp [h]
    · have h2 : i - k < 32 := by omega
      rw [show k + (i - k) = i by omega]
      simp [hi, h, h2]
  have h2 : ((w >>> k) <<< k).toNat = w.toNat / 2 ^ k * 2 ^ k := by
    rw [BitVec.toNat_shiftLeft, BitVec.toNat_ushiftRight, Nat.shiftRight_eq_div_pow, Nat.shiftLeft_eq]
    have := Nat.div_mul_le_self w.toNat (2 ^ k)
    exact Nat.mod_eq_of_lt (by omega)
  rw [h1, ← BitVec.toNat_inj, h2]
  constructor
  · intro h
    rw [← h, Nat.mul_div_cancel _ (by positivity)]
  · intro h
    have := Nat.div_add_mod m.toNat (2 ^ k)
    rw [h, Nat.mul_comm]
    omega

/-- A match word has no operand bit set (R93). -/
theorem matchWord_mod (m : Mnemonic) : m.matchWord.toNat % 2 ^ m.operandWidth = 0 := by
  cases m <;> decide

/-- A row matches a word exactly when the bits above the row's operands are those of its match word (R93). -/
theorem selects_iff_div (m : Mnemonic) (w : Word) : m.selects w ↔
    w.toNat / 2 ^ m.operandWidth = m.matchWord.toNat / 2 ^ m.operandWidth := by
  rw [← and_highMask_eq (k := m.operandWidth) w m.matchWord (matchWord_mod m)]
  cases m <;> rfl

theorem toNat_opField (w : Word) : (opField w).toNat = w.toNat / 2 ^ 28 := by
  have := w.isLt
  simp [opField, Nat.shiftRight_eq_div_pow]
  omega

theorem opMnemonic_matchWord (m : Mnemonic) : opMnemonic (opField m.matchWord) = m := by
  cases m <;> decide

/-- A word that a row matches has the row's opcode (R93). -/
theorem opMnemonic_of_selects {m : Mnemonic} {w : Word} (h : m.selects w) : opMnemonic (opField w) = m := by
  rw [selects_iff_div] at h
  have h1 : opField w = opField m.matchWord := by
    refine BitVec.eq_of_toNat_eq ?_
    have h2 : 2 ^ 28 = 2 ^ m.operandWidth * 2 ^ (28 - m.operandWidth) := by cases m <;> decide
    rw [toNat_opField, toNat_opField, h2, ← Nat.div_div_eq_div_mul, h, Nat.div_div_eq_div_mul]
  rw [h1, opMnemonic_matchWord]

end Sys2Proof
end

