-- ==== Sys2Proof/Laws/Encoder.lean ====
section
/-! SUPPORT. What the Encoder does (spec/43_encoder.md rules R161 to R164): where every symbol has a code, the stream is
the concatenation of the codes if that fits, and empty with `ERR_CAPACITY` if not. -/

namespace Sys2Proof.Machine

theorem encBits_spec (bs : List Bit) : ∀ s : State, s.bitBuf.length ≤ s.cfg.bitCap →
    encBits bs s = if s.bitBuf.length + bs.length ≤ s.cfg.bitCap then .done (s.setBitBuf (s.bitBuf ++ bs))
      else .raised .capacity (s.setBitBuf []) := by
  induction bs with
  | nil => intro s h; simp [encBits, h]; rfl
  | cons b bs ih =>
    intro s h
    by_cases hfull : s.cfg.bitCap ≤ s.bitBuf.length
    · have : ¬ s.bitBuf.length + (b :: bs).length ≤ s.cfg.bitCap := by simp; omega
      rw [encBits, if_pos hfull, if_neg this]
    · rw [encBits, if_neg hfull, ih _ (by simp; omega)]
      refine if_congr (by simp; omega) ?_ rfl
      simp only [State.setBitBuf_bitBuf, List.append_assoc, List.singleton_append]
      rfl

theorem encText_spec (text : List Symbol) : ∀ s : State, s.bitBuf.length ≤ s.cfg.bitCap →
    (∀ c ∈ text, s.session.code.read c ≠ []) →
    encText text s = if s.bitBuf.length + (codesOf s.session.code text).length ≤ s.cfg.bitCap
      then .done (s.setBitBuf (s.bitBuf ++ codesOf s.session.code text)) else .raised .capacity (s.setBitBuf []) := by
  induction text with
  | nil => intro s h _; simp [encText, codesOf, h]; rfl
  | cons c cs ih =>
    intro s h hc
    have hne : (s.session.code.read c).length ≠ 0 := by simpa using hc c List.mem_cons_self
    have hlen : (codesOf s.session.code (c :: cs)).length =
        (s.session.code.read c).length + (codesOf s.session.code cs).length := by
      rw [codesOf, List.flatMap_cons, List.length_append]; rfl
    rw [encText, encSymbol, if_neg hne, encBits_spec _ s h, hlen]
    by_cases hfit : s.bitBuf.length + (s.session.code.read c).length ≤ s.cfg.bitCap
    · rw [if_pos hfit, UnitEnd.andThen, ih (s.setBitBuf (s.bitBuf ++ s.session.code.read c)) (by simpa using hfit)
        (fun d hd => hc d (List.mem_cons_of_mem _ hd))]
      refine if_congr (by simp; omega) ?_ rfl
      simp only [State.setBitBuf_bitBuf, State.setBitBuf_session, List.append_assoc]
      rfl
    · rw [if_neg hfit, if_neg (by omega), UnitEnd.andThen]

/-- `ENC_RUN` where every symbol of the text has a code (R160, R161, R163). -/
theorem encRun_spec {s : State} (hc : ∀ c ∈ s.symIn, s.session.code.read c ≠ []) :
    encRun s = if (codesOf s.session.code s.symIn).length ≤ s.cfg.bitCap
      then .done (s.setBitBuf (codesOf s.session.code s.symIn)) else .raised .capacity (s.setBitBuf []) := by
  rw [encRun, encText_spec _ _ (by simp) (by simpa using hc)]
  simp only [State.setBitBuf_bitBuf, State.setBitBuf_cfg, State.setBitBuf_session, List.length_nil, Nat.zero_add,
    List.nil_append]
  rfl

end Sys2Proof.Machine
end

