-- ==== Sys2Proof/Laws/Tree.lean ====
section
/-! SUPPORT. What follows from a session's tree being a tree for its table (spec/10_state.md rule R26): leaves and keys,
children, the root, and walks along bit strings (R28 (b)). -/

namespace Sys2Proof.Machine

/-! ### Walks -/

theorem walkPath_append (node : List Node) (p q : List Bit) (i : NodeIx) :
    walkPath node i (p ++ q) = (walkPath node i p).bind fun j => walkPath node j q := by
  induction p generalizing i with
  | nil => rfl
  | cons b p ih =>
    simp only [List.cons_append, walkPath]
    split
    · rfl
    · split
      · exact ih _
      · rfl
      · rfl

/-- A walk cannot leave a leaf. -/
theorem walkPath_leaf {node : List Node} {i : NodeIx} {f : Nat} {c : Symbol}
    (h : nodeAt? node i = some (.leaf f c)) {p : List Bit} (hp : p ≠ []) : walkPath node i p = none := by
  obtain ⟨b, q, rfl⟩ := List.exists_cons_of_ne_nil hp
  simp [walkPath, h, move]

/-- Two paths to leaves, one a beginning of the other, are the same path to the same symbol (R28 (c)). -/
theorem PathTo.unique_of_isPrefix {node : List Node} {root : NodeIx} {c d : Symbol} {p q : List Bit}
    (hc : PathTo node root c p) (hd : PathTo node root d q) (h : p <+: q) : c = d := by
  obtain ⟨i, f, hi, hl⟩ := hc
  obtain ⟨j, g, hj, hm⟩ := hd
  obtain ⟨r, rfl⟩ := h
  rw [walkPath_append, hi, Option.bind_some] at hj
  by_cases hr : r = []
  · subst hr
    rw [walkPath, Option.some_inj] at hj
    subst hj
    rw [hl, Option.some_inj] at hm
    cases hm; rfl
  · rw [walkPath_leaf hl hr] at hj
    cases hj

theorem bit_cases (b : Bit) : b = 0 ∨ b = 1 := by
  revert b; decide

/-! ### Trees -/

section tree
variable {freq : Table Nat} {node : List Node} {root : NodeIx}

theorem TreeFor.length_le (ht : TreeFor freq node root) : node.length ≤ 511 := by
  have hc := ht.count
  have := length_keys_le freq
  split at hc <;> omega

theorem TreeFor.keys_lt (ht : TreeFor freq node root) : (keys freq).length < node.length := by
  have hc := ht.count
  have := List.length_pos_of_ne_nil ht.nonempty
  split at hc <;> omega

theorem TreeFor.child_lt (ht : TreeFor freq node root) {x : NodeIx} {n : Node} (hn : nodeAt? node x = some n)
    {c : NodeIx} (hc : c ∈ n.children) : c.toNat < x.toNat :=
  Machine.child_lt ht.leaves ht.inner ht.nonempty hn hc

theorem TreeFor.root_lt (ht : TreeFor freq node root) : root.toNat < node.length := by
  have := ht.root_last
  omega

theorem TreeFor.nodeAt_isSome {x : NodeIx} (h : x.toNat < node.length) : ∃ n, nodeAt? node x = some n :=
  ⟨_, List.getElem?_eq_getElem h⟩

theorem nodeAt?_lt {x : NodeIx} {n : Node} (h : nodeAt? node x = some n) : x.toNat < node.length := by
  by_contra hc
  rw [nodeAt?, List.getElem?_eq_none (Nat.le_of_not_lt hc)] at h
  cases h

/-- `NODE[ROOT]` is never a leaf (R26 (f)). -/
theorem TreeFor.root_not_leaf (ht : TreeFor freq node root) {n : Node} (hn : nodeAt? node root = some n) :
    n.isLeaf = false := by
  have h1 := ht.keys_lt
  have h2 := ht.root_last
  have h3 := ht.inner root.toNat n (by omega) hn
  cases n with
  | leaf f c => exact absurd h3 (by simp [InnerRecord])
  | internal f a b => rfl
  | synth f a => rfl

/-- A leaf holds a key of the table with its count (R26 (b)). -/
theorem TreeFor.leaf_key (ht : TreeFor freq node root) {p : Nat} {f : Nat} {c : Symbol}
    (hn : node[p]? = some (.leaf f c)) : c ∈ keys freq ∧ f = freq.read c := by
  by_cases hp : p < (keys freq).length
  · have h1 : (leavesOf freq)[p]? = some (.leaf f c) := by rw [← ht.leaves, List.getElem?_take_of_lt hp, hn]
    rw [leavesOf, List.getElem?_map] at h1
    obtain ⟨k, hk, he⟩ := Option.map_eq_some_iff.mp h1
    cases he
    exact ⟨List.mem_of_getElem? hk, rfl⟩
  · exact absurd (ht.inner p _ (by omega) hn) (by simp [InnerRecord])

/-- Every key has a leaf (R26 (b)). -/
theorem TreeFor.key_leaf (ht : TreeFor freq node root) {c : Symbol} (hc : c ∈ keys freq) :
    ∃ i : NodeIx, nodeAt? node i = some (.leaf (freq.read c) c) := by
  obtain ⟨p, hp, rfl⟩ := List.getElem_of_mem hc
  have h1 := ht.keys_lt
  have h2 := ht.length_le
  refine ⟨BitVec.ofNat 9 p, ?_⟩
  rw [nodeAt?, toNat_newIx (by omega), ← List.getElem?_take_of_lt hp, ht.leaves, leavesOf, List.getElem?_map,
    List.getElem?_eq_getElem hp]
  rfl

/-- The children of cell `x`. -/
def childrenAt (node : List Node) (x : NodeIx) : List NodeIx := ((nodeAt? node x).map Node.children).getD []

theorem childrenAt_eq {x : NodeIx} {n : Node} (h : nodeAt? node x = some n) : childrenAt node x = n.children := by
  simp [childrenAt, h]

theorem TreeFor.mem_childrenAt_lt (ht : TreeFor freq node root) {x c : NodeIx} (hc : c ∈ childrenAt node x) :
    c.toNat < x.toNat ∧ c.toNat < node.length := by
  rcases h : nodeAt? node x with _ | n
  · simp [childrenAt, h] at hc
  · rw [childrenAt_eq h] at hc
    have h1 := ht.child_lt h hc
    have h2 := nodeAt?_lt h
    exact ⟨h1, by omega⟩

/-- Every cell but the root has a parent, made after it (R26 (d), (e)). -/
theorem TreeFor.parent_exists (ht : TreeFor freq node root) {i : Nat} (hi : i < node.length - 1) :
    ∃ x : NodeIx, ∃ c ∈ childrenAt node x, c.toNat = i ∧ i < x.toNat ∧ x.toNat < node.length := by
  have hmem := ht.owned.mem_iff.mpr (List.mem_range.mpr hi)
  obtain ⟨c, hc1, hc2⟩ := List.mem_map.mp hmem
  obtain ⟨n, hn, hcn⟩ := List.mem_flatMap.mp hc1
  obtain ⟨p, hp, rfl⟩ := List.getElem_of_mem hn
  have h2 := ht.length_le
  have hx : nodeAt? node (BitVec.ofNat 9 p) = some node[p] := by
    rw [nodeAt?, toNat_newIx (by omega), List.getElem?_eq_getElem hp]
  have h3 := ht.child_lt hx hcn
  rw [toNat_newIx (by omega)] at h3
  exact ⟨BitVec.ofNat 9 p, c, by rw [childrenAt_eq hx]; exact hcn, hc2,
    by rw [toNat_newIx (by omega)]; omega, by rw [toNat_newIx (by omega)]; exact hp⟩

/-- The children of distinct cells are distinct, and none is the root: "each node is owned by exactly one parent"
(R26 (d)). -/
theorem TreeFor.nodup_children (ht : TreeFor freq node root) {v : List NodeIx} (hv : v.Nodup) :
    (root :: v.flatMap (childrenAt node)).Nodup := by
  have hnd : (childrenOf node).Nodup :=
    List.Nodup.of_map BitVec.toNat (ht.owned.nodup_iff.mpr List.nodup_range)
  rw [childrenOf, List.nodup_flatMap] at hnd
  refine List.nodup_cons.mpr ⟨?_, List.nodup_flatMap.mpr ⟨?_, ?_⟩⟩
  · intro hmem
    obtain ⟨x, _, hx⟩ := List.mem_flatMap.mp hmem
    rcases h : nodeAt? node x with _ | n
    · simp [childrenAt, h] at hx
    · have h1 := ht.mem_childrenAt_lt hx
      have h2 := nodeAt?_lt h
      have h3 := ht.root_last
      omega
  · intro x _
    rcases h : nodeAt? node x with _ | n
    · simp [childrenAt, h]
    · rw [childrenAt_eq h]
      exact hnd.1 n (List.mem_of_getElem? h)
  · refine hv.imp fun {x y} hxy => ?_
    show List.Disjoint (childrenAt node x) (childrenAt node y)
    rcases hx : nodeAt? node x with _ | n
    · simp [childrenAt, hx]
    rcases hy : nodeAt? node y with _ | m
    · simp [childrenAt, hy]
    rw [childrenAt_eq hx, childrenAt_eq hy]
    have hx' := nodeAt?_lt hx
    have hy' := nodeAt?_lt hy
    have hxn : node[x.toNat] = n := by simpa [nodeAt?, List.getElem?_eq_getElem hx'] using hx
    have hyn : node[y.toNat] = m := by simpa [nodeAt?, List.getElem?_eq_getElem hy'] using hy
    have hpw := List.pairwise_iff_getElem.mp hnd.2
    have hne : x.toNat ≠ y.toNat := fun h => hxy (BitVec.eq_of_toNat_eq h)
    rcases Nat.lt_or_gt_of_ne hne with h | h
    · have := hpw x.toNat y.toNat hx' hy' h
      rwa [hxn, hyn] at this
    · have := hpw y.toNat x.toNat hy' hx' h
      rw [hxn, hyn] at this
      exact List.Disjoint.symm this

/-- A list of cells that holds the root and, with a cell, its children, holds every cell (R26 (e)). -/
theorem TreeFor.mem_of_closed (ht : TreeFor freq node root) {v : List NodeIx} (hr : root ∈ v)
    (hc : ∀ x ∈ v, ∀ c ∈ childrenAt node x, c ∈ v) (y : NodeIx) (hy : y.toNat < node.length) : y ∈ v := by
  generalize hd : node.length - y.toNat = d
  induction d using Nat.strong_induction_on generalizing y with
  | _ d ih =>
    have hl := ht.root_last
    by_cases hlast : y.toNat = node.length - 1
    · obtain rfl : y = root := BitVec.eq_of_toNat_eq (by omega)
      exact hr
    · obtain ⟨x, c, hcx, hcy, hlt, hxl⟩ := ht.parent_exists (i := y.toNat) (by omega)
      obtain rfl := BitVec.eq_of_toNat_eq hcy
      exact hc x (ih (node.length - x.toNat) (by omega) x hxl rfl) c hcx

end tree

end Sys2Proof.Machine
end

