-- ==== Sys2Proof/Laws/Decoder.lean ====
section
/-! SUPPORT. What the Decoder does (spec/44_decoder.md rules R171 to R177): on a tree it never stops the model, it ends
with `ERR_BAD_STREAM` or with a text no longer than the stream, and a concatenation of codes decodes to its text. -/

namespace Sys2Proof.Machine

theorem UnitEnd.andThen_assoc (u : UnitEnd) (k l : State → UnitEnd) :
    (u.andThen k).andThen l = u.andThen fun s => (k s).andThen l := by
  cases u <;> rfl

theorem decLoop_add (a b : Nat) (s : State) : decLoop (a + b) s = (decLoop a s).andThen (decLoop b) := by
  induction a generalizing s with
  | zero => rw [Nat.zero_add]; rfl
  | succ a ih =>
    rw [Nat.succ_add, decLoop, decLoop, UnitEnd.andThen_assoc]
    congr 1
    funext t
    exact ih t

/-! ### One code -/

/-- The walk along a path from an inner cell to a leaf: one symbol is emitted and the walk is back at the root. -/
theorem decLoop_path {node : List Node} (p : List Bit) : ∀ (s : State) (w : Walk) (i : NodeIx) (f : Nat) (c : Symbol),
    p ≠ [] → s.session.node = node → s.walk = some w → walkPath node w.cur p = some i →
    nodeAt? node i = some (.leaf f c) → (∀ k, k < p.length → s.bitBuf[w.j + k]? = p[k]?) →
    decLoop p.length s =
      .done ((s.setSymOut (s.symOut ++ [c])).setWalk (some ⟨s.session.root, .atRoot, w.j + p.length⟩)) := by
  induction p with
  | nil => intro s w i f c h; exact absurd rfl h
  | cons b q ih =>
    intro s w i f c _ hnode hw hwalk hleaf hbits
    have hb : s.bitBuf[w.j]? = some b := by simpa using hbits 0 (by simp)
    rcases hn : nodeAt? node w.cur with _ | n
    · simp [walkPath, hn] at hwalk
    simp only [walkPath, hn] at hwalk
    rcases hm : move n b with nxt | _ | _
    case missing => simp [hm] at hwalk
    case atLeaf => simp [hm] at hwalk
    simp only [hm] at hwalk
    by_cases hq : q = []
    · subst hq
      rw [walkPath, Option.some_inj] at hwalk
      subst hwalk
      simp [decLoop, decPass, hw, decBit, hb, hnode, hn, hm, hleaf, arrive, UnitEnd.andThen]
    · have hnxt : ∃ m, nodeAt? node nxt = some m ∧ m.isLeaf = false := by
        obtain ⟨e, r, rfl⟩ := List.exists_cons_of_ne_nil hq
        rcases hx : nodeAt? node nxt with _ | m
        · simp [walkPath, hx] at hwalk
        · refine ⟨m, rfl, ?_⟩
          cases m with
          | leaf g d => simp [walkPath, hx, move] at hwalk
          | internal g a b => rfl
          | synth g a => rfl
      obtain ⟨m, hx, hml⟩ := hnxt
      have harr : arrive w nxt m s = s.setWalk (some ⟨nxt, .inPath, w.j + 1⟩) := by
        cases m with
        | leaf g d => simp [Node.isLeaf] at hml
        | internal g a b => rfl
        | synth g a => rfl
      have hrec := ih (s.setWalk (some ⟨nxt, .inPath, w.j + 1⟩)) ⟨nxt, .inPath, w.j + 1⟩ i f c hq hnode rfl hwalk hleaf
        (fun k hk => by
          have := hbits (k + 1) (by simpa using hk)
          simpa [Nat.add_assoc, Nat.add_comm 1 k] using this)
      simp only [List.length_cons, decLoop, decPass, hw, decBit, hb, hnode, hn, hm, hx, harr, UnitEnd.andThen]
      rw [hrec]
      simp only [State.setWalk_symOut, State.setWalk_session, Nat.add_assoc, Nat.add_comm 1 q.length]
      rfl

/-! ### A concatenation of codes -/

/-- Any concatenation of codes decodes (R171, R178). -/
theorem decLoop_codes {freq : Table Nat} {node : List Node} {root : NodeIx} {code : Table (List Bit)}
    (hc : CodeFor freq node root code) (text : List Symbol) : ∀ (s : State) (w : Walk),
    s.session.node = node → s.session.root = root → s.walk = some w → w.cur = root → w.dstate = .atRoot →
    (∀ c ∈ text, code.read c ≠ []) →
    (∀ k, k < (codesOf code text).length → s.bitBuf[w.j + k]? = (codesOf code text)[k]?) →
    decLoop (codesOf code text).length s =
      .done ((s.setSymOut (s.symOut ++ text)).setWalk (some ⟨root, .atRoot, w.j + (codesOf code text).length⟩)) := by
  induction text with
  | nil =>
    intro s w _ _ hw hcur hst _ _
    obtain ⟨cur, st, j⟩ := w
    simp only at hcur hst
    subst hcur hst
    simp only [codesOf, List.flatMap_nil, List.length_nil, decLoop, List.append_nil, Nat.add_zero]
    rw [← hw]
    rfl
  | cons c cs ih =>
    intro s w hnode hroot hw hcur hst hne hbits
    have hsplit : codesOf code (c :: cs) = code.read c ++ codesOf code cs := rfl
    obtain ⟨i, f, hi, hl⟩ := hc.path c (hne c List.mem_cons_self)
    have h1 := decLoop_path (code.read c) s w i f c (hne c List.mem_cons_self) hnode hw (hcur ▸ hi) hl
      (fun k hk => by
        rw [hbits k (by rw [hsplit, List.length_append]; omega), hsplit, List.getElem?_append_left hk])
    have h2 := ih ((s.setSymOut (s.symOut ++ [c])).setWalk (some ⟨s.session.root, .atRoot, w.j + (code.read c).length⟩))
      ⟨s.session.root, .atRoot, w.j + (code.read c).length⟩ hnode hroot rfl hroot rfl
      (fun d hd => hne d (List.mem_cons_of_mem _ hd))
      (fun k hk => by
        have := hbits ((code.read c).length + k) (by rw [hsplit, List.length_append]; omega)
        rw [hsplit, List.getElem?_append_right (by omega), Nat.add_sub_cancel_left] at this
        simpa [Nat.add_assoc] using this)
    rw [hsplit, List.length_append, decLoop_add, h1, UnitEnd.andThen, h2]
    simp only [State.setWalk_symOut, State.setSymOut_symOut, List.append_assoc, List.singleton_append, Nat.add_assoc]
    rfl

/-- `DEC_RUN` on a stream that is a concatenation of codes of the session's own table (R171, R175, R178). -/
theorem decRun_codes {s : State} {text : List Symbol}
    (hc : CodeFor s.session.freq s.session.node s.session.root s.session.code)
    (hne : ∀ c ∈ text, s.session.code.read c ≠ []) (hb : s.bitBuf = codesOf s.session.code text) :
    decRun s = .done ((s.setSymOut text).setWalk none) := by
  have h := decLoop_codes hc text ((s.setSymOut []).setWalk (some ⟨s.session.root, .atRoot, 0⟩))
    ⟨s.session.root, .atRoot, 0⟩ rfl rfl rfl rfl rfl hne (fun k _ => by simp [hb])
  rw [decRun, hb, h]
  rfl

/-! ### Any stream -/

/-- What holds before each pass of `DEC_RUN` on a tree: the walk stands on a cell that is no leaf, at the root exactly in
state AT_ROOT, and no more symbols were emitted than bits consumed (R171, R172, R177). -/
structure DecInv (s0 s : State) (j : Nat) : Prop where
  frame : ∃ out w, s = (s0.setSymOut out).setWalk (some w) ∧ out.length ≤ j ∧ w.j = j ∧
    (∃ n, nodeAt? s0.session.node w.cur = some n ∧ n.isLeaf = false) ∧
    (w.dstate = .atRoot ↔ w.cur = s0.session.root)

/-- One pass keeps what holds before it, or takes the missing child of the synthetic root (R174). -/
theorem decPass_spec {s0 s : State} {j : Nat} (ht : TreeFor s0.session.freq s0.session.node s0.session.root)
    (h : DecInv s0 s j) (hj : j < s0.bitBuf.length) :
    (∃ t, decPass s = .done t ∧ DecInv s0 t (j + 1)) ∨ decPass s = badStream s0 := by
  obtain ⟨out, w, rfl, hout, hwj, ⟨n, hn, hl⟩, hst⟩ := h.frame
  subst hwj
  have hb : s0.bitBuf[w.j]? = some s0.bitBuf[w.j] := List.getElem?_eq_getElem hj
  have key : ∀ nxt, nxt ∈ n.children → move n s0.bitBuf[w.j] = .to nxt →
      ∃ t, decPass ((s0.setSymOut out).setWalk (some w)) = .done t ∧ DecInv s0 t (w.j + 1) := by
    intro nxt hc hm
    have hlt := ht.child_lt hn hc
    obtain ⟨m, hx⟩ := TreeFor.nodeAt_isSome (node := s0.session.node) (x := nxt)
      (by have := nodeAt?_lt hn; omega)
    have hne : nxt ≠ s0.session.root := fun he => by
      have h1 := nodeAt?_lt hn
      have h2 := ht.root_last
      rw [he] at hlt
      omega
    refine ⟨arrive w nxt m ((s0.setSymOut out).setWalk (some w)), ?_, ?_⟩
    · simp [decPass, decBit, hb, hn, hm, hx]
    · cases m with
      | leaf g d =>
        obtain ⟨r, hr⟩ := TreeFor.nodeAt_isSome ht.root_lt
        exact ⟨out ++ [d], ⟨s0.session.root, .atRoot, w.j + 1⟩, rfl, by simp; omega, rfl, ⟨r, hr, ht.root_not_leaf hr⟩,
          by simp⟩
      | internal g a b =>
        exact ⟨out, ⟨nxt, .inPath, w.j + 1⟩, rfl, by omega, rfl, ⟨_, hx, rfl⟩, by simp [hne]⟩
      | synth g a =>
        exact ⟨out, ⟨nxt, .inPath, w.j + 1⟩, rfl, by omega, rfl, ⟨_, hx, rfl⟩, by simp [hne]⟩
  cases n with
  | leaf f c => simp [Node.isLeaf] at hl
  | internal f a b =>
    by_cases h0 : s0.bitBuf[w.j] = 0
    · exact .inl (key a (by simp [Node.children]) (by rw [move, if_pos h0]))
    · exact .inl (key b (by simp [Node.children]) (by rw [move, if_neg h0]))
  | synth f a =>
    by_cases h0 : s0.bitBuf[w.j] = 0
    · exact .inl (key a (by simp [Node.children]) (by rw [move, if_pos h0]))
    · refine .inr ?_
      have hm : move (.synth f a) s0.bitBuf[w.j] = .missing := by rw [move, if_neg h0]
      simp [decPass, decBit, hb, hn, hm]
      rfl

theorem decLoop_any {s0 : State} (ht : TreeFor s0.session.freq s0.session.node s0.session.root) :
    ∀ (n j : Nat) (s : State), DecInv s0 s j → j + n ≤ s0.bitBuf.length →
    (∃ t, decLoop n s = .done t ∧ DecInv s0 t (j + n)) ∨ decLoop n s = badStream s0 := by
  intro n
  induction n with
  | zero => intro j s h _; exact .inl ⟨s, rfl, h⟩
  | succ n ih =>
    intro j s h hj
    rcases decPass_spec ht h (by omega) with ⟨t, he, hi⟩ | he
    · rcases ih (j + 1) t hi (by omega) with ⟨u, hu, hv⟩ | hu
      · exact .inl ⟨u, by rw [decLoop, he, UnitEnd.andThen, hu], by rw [Nat.add_right_comm] at hv; exact hv⟩
      · exact .inr (by rw [decLoop, he, UnitEnd.andThen, hu])
    · exact .inr (by rw [decLoop, he]; rfl)

/-- `DEC_RUN` on a tree (R171, R174, R175, R177): it ends with a text no longer than the stream, or with
`ERR_BAD_STREAM` and an empty text; nothing but the text changes. -/
theorem decRun_any {s : State} (ht : TreeFor s.session.freq s.session.node s.session.root) :
    (∃ out, decRun s = .done ((s.setSymOut out).setWalk none) ∧ out.length ≤ s.bitBuf.length) ∨
      decRun s = .raised .badStream ((s.setSymOut []).setWalk none) := by
  obtain ⟨r, hr⟩ := TreeFor.nodeAt_isSome ht.root_lt
  have hinit : DecInv s ((s.setSymOut []).setWalk (some ⟨s.session.root, .atRoot, 0⟩)) 0 :=
    ⟨[], _, rfl, by simp, rfl, ⟨r, hr, ht.root_not_leaf hr⟩, by simp⟩
  rcases decLoop_any ht s.bitBuf.length 0 _ hinit (by omega) with ⟨t, he, hi⟩ | he
  · obtain ⟨out, w, rfl, hout, _, _, _⟩ := hi.frame
    rw [decRun, he, UnitEnd.andThen]
    rcases hd : w.dstate with _ | _
    · exact .inl ⟨out, by simp [decEnd, hd]; rfl, by omega⟩
    · exact .inr (by simp [decEnd, hd]; rfl)
  · exact .inr (by rw [decRun, he]; rfl)

end Sys2Proof.Machine
end

