-- ==== Sys2Proof/Laws/Generator.lean ====
section
/-! SUPPORT. What the Code Generator does (spec/42_code_generator.md rules R151 to R154): on a tree for a table `CG_RUN`
ends within NNODES pops, writes CODE, leaves the stack empty and nothing else changed, and what it leaves is the code
table of the tree. -/

namespace Sys2Proof.Machine

section generator
variable {freq : Table Nat} {node : List Node} {root : NodeIx}

/-- What holds before each pop, `v` being the cells popped so far: the cells popped and the cells on the stack are the
root and the children of the cells popped; a record's path leads to its cell; a recorded code is the path to a leaf of
its symbol; the symbol of a leaf popped has a code. -/
structure CgInv (node : List Node) (root : NodeIx) (v : List NodeIx) (stack : List StackRec) (code : Table (List Bit)) :
    Prop where
  cells : (v ++ stack.map StackRec.node).Perm (root :: v.flatMap (childrenAt node))
  nodup : v.Nodup
  paths : ∀ r ∈ stack, walkPath node root r.path = some r.node
  sound : ∀ c, code.read c ≠ [] → PathTo node root c (code.read c)
  done : ∀ x ∈ v, ∀ f c, nodeAt? node x = some (.leaf f c) → code.read c ≠ []

theorem CgInv.cells_nodup {v : List NodeIx} {stack : List StackRec} {code : Table (List Bit)}
    (ht : TreeFor freq node root) (h : CgInv node root v stack code) : (v ++ stack.map StackRec.node).Nodup :=
  h.cells.nodup_iff.mpr (ht.nodup_children h.nodup)

theorem CgInv.cell_lt {v : List NodeIx} {stack : List StackRec} {code : Table (List Bit)}
    (ht : TreeFor freq node root) (h : CgInv node root v stack code) {x : NodeIx}
    (hx : x ∈ v ++ stack.map StackRec.node) : x.toNat < node.length := by
  rcases List.mem_cons.mp (h.cells.mem_iff.mp hx) with rfl | hx
  · exact ht.root_lt
  · obtain ⟨y, _, hy⟩ := List.mem_flatMap.mp hx
    exact (ht.mem_childrenAt_lt hy).2

/-- No more records than cells (R281). -/
theorem CgInv.length_le {v : List NodeIx} {stack : List StackRec} {code : Table (List Bit)}
    (ht : TreeFor freq node root) (h : CgInv node root v stack code) : v.length + stack.length ≤ node.length := by
  have h1 : ((v ++ stack.map StackRec.node).map BitVec.toNat).Nodup :=
    (h.cells_nodup ht).map fun x y hxy => BitVec.eq_of_toNat_eq hxy
  have h2 : (v ++ stack.map StackRec.node).map BitVec.toNat ⊆ List.range node.length := fun i hi => by
    obtain ⟨x, hx, rfl⟩ := List.mem_map.mp hi
    exact List.mem_range.mpr (h.cell_lt ht hx)
  have := (List.subperm_of_subset h1 h2).length_le
  simpa using this

/-- One more step of a walk. -/
theorem walkPath_snoc {p : List Bit} {x y : NodeIx} {n : Node} {b : Bit} (hp : walkPath node root p = some x)
    (hn : nodeAt? node x = some n) (hm : move n b = .to y) : walkPath node root (p ++ [b]) = some y := by
  rw [walkPath_append, hp]
  simp [walkPath, hn, hm]

/-- One pop keeps what holds before each pop (R151). -/
theorem CgInv.visit {v : List NodeIx} {top : StackRec} {rest : List StackRec} {s : State} {n : Node}
    (ht : TreeFor freq node root) (h : CgInv node root v (top :: rest) s.session.code)
    (hn : nodeAt? node top.node = some n) (hs : s.cgStack = rest) :
    CgInv node root (top.node :: v) (cgVisit n top.path s).cgStack (cgVisit n top.path s).session.code := by
  have hpath := h.paths top (by simp)
  have hnd : (top.node :: v).Nodup := by
    have h1 := (List.perm_middle.nodup_iff).mp (h.cells_nodup ht)
    simp only [List.nodup_cons, List.mem_append, List.mem_map] at h1 ⊢
    exact ⟨fun hm => h1.1 (.inl hm), (List.nodup_append.mp h1.2).1⟩
  have hcells : (top.node :: v ++ (childrenAt node top.node ++ rest.map StackRec.node)).Perm
      (root :: (top.node :: v).flatMap (childrenAt node)) := by
    have h1 := List.perm_middle.symm.trans h.cells
    have h2 : (top.node :: v ++ (childrenAt node top.node ++ rest.map StackRec.node)).Perm
        (childrenAt node top.node ++ (top.node :: (v ++ rest.map StackRec.node))) := by
      refine (List.Perm.append_left _ List.perm_append_comm).trans ?_
      rw [← List.append_assoc]
      refine List.perm_append_comm.trans ?_
      simp
    refine h2.trans ((h1.append_left _).trans ?_)
    rw [List.flatMap_cons]
    exact List.perm_middle
  cases n with
  | leaf f c =>
    have hne : top.path ≠ [] := by
      intro h0
      rw [h0, walkPath, Option.some_inj] at hpath
      have := ht.root_not_leaf (hpath ▸ hn)
      simp [Node.isLeaf] at this
    refine ⟨?_, hnd, ?_, ?_, ?_⟩
    · rw [childrenAt_eq hn] at hcells
      simpa [cgVisit, recordCode, hs, Node.children] using hcells
    · intro r hr
      exact h.paths r (List.mem_cons_of_mem _ (by simpa [cgVisit, recordCode, hs] using hr))
    · intro d hd
      simp only [cgVisit, recordCode, State.setSession_session, Session.setCode_code, Table.read_write] at hd ⊢
      split
      · subst_vars; exact ⟨top.node, f, hpath, hn⟩
      · rename_i hdc
        rw [if_neg hdc] at hd
        exact h.sound d hd
    · intro x hx g d hd
      simp only [cgVisit, recordCode, State.setSession_session, Session.setCode_code, Table.read_write]
      split
      · exact hne
      · rename_i hdc
        rcases List.mem_cons.mp hx with rfl | hx
        · rw [hn] at hd; cases hd; exact absurd rfl hdc
        · exact h.done x hx g d hd
  | internal f a b =>
    refine ⟨?_, hnd, ?_, fun d hd => h.sound d hd, ?_⟩
    · rw [childrenAt_eq hn] at hcells
      simpa [cgVisit, hs, Node.children] using hcells
    · intro r hr
      simp only [cgVisit, State.setCgStack_cgStack, hs, List.mem_cons] at hr
      rcases hr with rfl | rfl | hr
      · exact walkPath_snoc hpath hn (by simp [move])
      · exact walkPath_snoc hpath hn (by simp [move])
      · exact h.paths r (List.mem_cons_of_mem _ hr)
    · intro x hx g d hd
      rcases List.mem_cons.mp hx with rfl | hx
      · rw [hn] at hd; cases hd
      · exact h.done x hx g d hd
  | synth f a =>
    refine ⟨?_, hnd, ?_, fun d hd => h.sound d hd, ?_⟩
    · rw [childrenAt_eq hn] at hcells
      simpa [cgVisit, hs, Node.children] using hcells
    · intro r hr
      simp only [cgVisit, State.setCgStack_cgStack, hs, List.mem_cons] at hr
      rcases hr with rfl | hr
      · exact walkPath_snoc hpath hn (by simp [move])
      · exact h.paths r (List.mem_cons_of_mem _ hr)
    · intro x hx g d hd
      rcases List.mem_cons.mp hx with rfl | hx
      · rw [hn] at hd; cases hd
      · exact h.done x hx g d hd

theorem cgVisit_session_node (n : Node) (p : List Bit) (s : State) : (cgVisit n p s).session.node = s.session.node := by
  cases n <;> rfl

/-- Only CODE and the stack change. -/
theorem cgVisit_restore (n : Node) (p : List Bit) (s : State) (code : Table (List Bit)) (k : List StackRec) :
    ((cgVisit n p s).setSession ((cgVisit n p s).session.setCode code)).setCgStack k =
      (s.setSession (s.session.setCode code)).setCgStack k := by
  cases n <;> rfl

/-- The loop of `CG_RUN` (R151) ends when the stack is empty, with every cell popped. -/
theorem cgLoop_spec (ht : TreeFor freq node root) : ∀ (bound : Nat) (v : List NodeIx) (s : State),
    s.session.node = node → bound + v.length = node.length → CgInv node root v s.cgStack s.session.code →
    ∃ w code, cgLoop bound s = .done ((s.setSession (s.session.setCode code)).setCgStack []) ∧
      CgInv node root w [] code := by
  intro bound
  induction bound with
  | zero =>
    intro v s hnode hb h
    have := h.length_le ht
    have hnil : s.cgStack = [] := List.eq_nil_of_length_eq_zero (by omega)
    refine ⟨v, s.session.code, ?_, hnil ▸ h⟩
    rw [cgLoop, hnil]
    simp only
    rw [← hnil]
    rfl
  | succ bound ih =>
    intro v s hnode hb h
    rcases hst : s.cgStack with _ | ⟨top, rest⟩
    · refine ⟨v, s.session.code, ?_, hst ▸ h⟩
      rw [cgLoop, hst]
      simp only
      rw [← hst]
      rfl
    · rw [hst] at h
      obtain ⟨n, hn⟩ := TreeFor.nodeAt_isSome (h.cell_lt ht (x := top.node) (by simp))
      have hv := CgInv.visit (s := s.setCgStack rest) ht h hn rfl
      obtain ⟨w, code, he, hw⟩ := ih (top.node :: v) (cgVisit n top.path (s.setCgStack rest))
        (by rw [cgVisit_session_node]; exact hnode) (by simp; omega) hv
      refine ⟨w, code, ?_, hw⟩
      rw [cgLoop, hst]
      simp only [hnode, hn, he, cgVisit_restore]
      rfl

/-- `CG_RUN` on a tree for a table (R151, R154). -/
theorem cgRun_spec {s : State} (ht : TreeFor freq s.session.node s.session.root) :
    ∃ code, cgRun s = .done ((s.setSession (s.session.setCode code)).setCgStack []) ∧
      CodeFor freq s.session.node s.session.root code := by
  obtain ⟨n, hn⟩ := TreeFor.nodeAt_isSome ht.root_lt
  have hleaf := ht.root_not_leaf hn
  let s0 := ((s.setSession (s.session.setCode emptyCode)).setCgStack []).setCgStack [⟨s.session.root, []⟩]
  have hinv : CgInv s.session.node s.session.root [] s0.cgStack s0.session.code :=
    ⟨by simp [s0], List.nodup_nil, by simp [s0, walkPath], by simp [s0, emptyCode], by simp⟩
  obtain ⟨w, code, he, hw⟩ := cgLoop_spec ht s.session.node.length [] s0 rfl (by simp) hinv
  have hall : ∀ y : NodeIx, y.toNat < s.session.node.length → y ∈ w := by
    have hmem : ∀ x, x ∈ w ↔ x ∈ s.session.root :: w.flatMap (childrenAt s.session.node) := fun x => by
      simpa using hw.cells.mem_iff (a := x)
    refine ht.mem_of_closed ((hmem _).mpr List.mem_cons_self) fun x hx c hc => (hmem c).mpr ?_
    exact List.mem_cons_of_mem _ (List.mem_flatMap.mpr ⟨x, hx, hc⟩)
  refine ⟨code, ?_, ⟨fun c => ⟨fun hc => ?_, fun hc => ?_⟩, hw.sound⟩⟩
  · have : cgRun s = cgLoop s.session.node.length s0 := by
      rw [cgRun]
      cases n with
      | leaf f c => simp [Node.isLeaf] at hleaf
      | internal f a b => simp [hn, s0]
      | synth f a => simp [hn, s0]
    rw [this, he]
    rfl
  · obtain ⟨i, f, _, hl⟩ := hw.sound c hc
    exact mem_keys.mp (ht.leaf_key hl).1
  · obtain ⟨i, hi⟩ := ht.key_leaf (mem_keys.mpr hc)
    exact hw.done i (hall i (nodeAt?_lt hi)) _ c hi

end generator

end Sys2Proof.Machine
end

