-- ==== Sys2Proof/Laws/Run.lean ====
section
/-! SUPPORT. What the units of `COMPRESS` and of `DECOMPRESS` do together (spec/45_host_commands.md rules R192 and R193),
said once: every later claim about the two commands cites these lemmas. -/

namespace Sys2Proof.Machine

/-- The session that `COMPRESS` leaves for a text, a node memory, a root and a code table. -/
def builtSession (text : List Symbol) (node : List Node) (root : NodeIx) (code : Table (List Bit)) : Session where
  freq := countText text
  nsyms := countKeys (countText text)
  node := node
  root := root
  treeValid := true
  code := code

/-- The state after the first three units of `COMPRESS`: the session built, the stream empty, the scratch given up. -/
def State.withBuilt (s : State) (x : Session) : State :=
  (((s.setSession x).setBitBuf []).setHeap []).setCgStack []

/-- The empty text (R125, R192 (a)). -/
theorem compressUnits_nil {s : State} (h : s.symIn = []) :
    compressUnits s = .done ((s.setSession Session.nothing).setBitBuf []) := by
  have hk : countKeys (Vector.replicate 256 0) = 0 := by simp [countKeys, keys_replicate_zero]
  simp only [compressUnits, fcRun, h, List.length_nil, if_true, countText_nil, hk]
  rfl

/-- A non-empty text (R192): the session is built for it, and the stream is the concatenation of its codes if that
fits. -/
theorem compressUnits_spec {s : State} (h : s.symIn ≠ []) :
    ∃ node root code, TreeFor (countText s.symIn) node root ∧ CodeFor (countText s.symIn) node root code ∧
      compressUnits s = if (codesOf code s.symIn).length ≤ s.cfg.bitCap
        then .done ((s.withBuilt (builtSession s.symIn node root code)).setBitBuf (codesOf code s.symIn))
        else .raised .capacity (s.withBuilt (builtSession s.symIn node root code)) := by
  have hlen : s.symIn.length ≠ 0 := by simpa using h
  obtain ⟨node, root, htb, ht⟩ := tbRun_spec (s := discardOld (fcRun s)) (keys_countText_ne_nil h)
  obtain ⟨code, hcg, hc⟩ := cgRun_spec (freq := countText s.symIn) (s := ((discardOld (fcRun s)).setSession
    ((((discardOld (fcRun s)).session.setNode node).setRoot root).setTreeValid true)).setHeap []) ht
  refine ⟨node, root, code, ht, hc, ?_⟩
  have henc := encRun_spec (s := (s.withBuilt (builtSession s.symIn node root code)).setBitBuf []) (fun c hm => by
    refine (hc.entry c).mpr ?_
    rw [read_countText]
    exact Nat.ne_of_gt (List.count_pos_iff.mpr hm))
  simp only [compressUnits, if_neg hlen, htb, UnitEnd.andThen, hcg]
  exact henc

/-- The session `COMPRESS` leaves is built for the text. -/
theorem builtSession_builtFor {text : List Symbol} {node : List Node} {root : NodeIx} {code : Table (List Bit)}
    (ht : TreeFor (countText text) node root) (hc : CodeFor (countText text) node root code) :
    (builtSession text node root code).BuiltFor text :=
  ⟨rfl, rfl, rfl, ht, hc⟩

/-- The guard of `DECOMPRESS` (R176). -/
theorem decompressUnits_guard {s : State} (h : s.session.treeValid = false ∨ s.bitBuf = []) :
    decompressUnits s = .done s := by
  have : s.session.treeValid = false ∨ s.bitBuf.length = 0 := by simpa using h
  rw [decompressUnits, if_pos this]

/-- Past the guard. -/
theorem decompressUnits_run {s : State} (hv : s.session.treeValid = true) (hb : s.bitBuf ≠ []) :
    decompressUnits s = decRun s := by
  have : ¬(s.session.treeValid = false ∨ s.bitBuf.length = 0) := by simp [hv, hb]
  rw [decompressUnits, if_neg this]

/-- A stream that is a concatenation of codes (R171, R193). -/
theorem decompressUnits_codes {s : State} {text : List Symbol} (hx : s.session.Built) (hw : s.walk = none)
    (ho : s.symOut = []) (hne : ∀ c ∈ text, s.session.code.read c ≠ [])
    (hb : s.bitBuf = codesOf s.session.code text) : decompressUnits s = .done (s.setSymOut text) := by
  by_cases hnil : s.bitBuf = []
  · have : text = [] := by
      rcases text with _ | ⟨c, cs⟩
      · rfl
      · rw [hb, codesOf, List.flatMap_cons, List.append_eq_nil_iff] at hnil
        exact absurd hnil.1 (hne c List.mem_cons_self)
    rw [decompressUnits_guard (.inr hnil), this, ← ho]
    rfl
  · rw [decompressUnits_run hx.valid hnil, decRun_codes hx.code hne hb]
    have : (s.setSymOut text).setWalk none = s.setSymOut text := by
      rw [← hw]; rfl
    rw [this]

end Sys2Proof.Machine
end

