-- ==== Sys2Proof/Laws/Frame.lean ====
section
/-! SUPPORT. What a command can change, from any state at all: the decoder changes SYM_OUT and its walk registers only
(spec/44_decoder.md rule R170), the push commands append or refuse (spec/45_host_commands.md rules R189 and R191), and a
read answers (R194 to R201). -/

namespace Sys2Proof.Machine

/-- What an end of the decoder from the state `s` can be. -/
def DecodesFrom (s : State) : UnitEnd → Prop
  | .done t => ∃ out w, t = (s.setSymOut out).setWalk w
  | .raised e t => e = .badStream ∧ t.symOut = [] ∧ ∃ out w, t = (s.setSymOut out).setWalk w
  | .fault _ => True
  | .refused r => r = .walkAtLeaf

theorem decodesFrom_decPass (s : State) : DecodesFrom s (decPass s) := by
  unfold decPass
  split
  · trivial
  unfold decBit
  split
  · trivial
  split
  · trivial
  split
  · rfl
  · exact ⟨rfl, rfl, [], none, rfl⟩
  split
  · trivial
  · rename_i m _
    cases m
    · exact ⟨_, _, rfl⟩
    · exact ⟨s.symOut, _, rfl⟩
    · exact ⟨s.symOut, _, rfl⟩

/-- Ends of the decoder from states that agree but for SYM_OUT and the walk registers. -/
theorem DecodesFrom.of_set {s : State} {o : List Symbol} {w : Option Walk} {u : UnitEnd}
    (h : DecodesFrom ((s.setSymOut o).setWalk w) u) : DecodesFrom s u := by
  cases u with
  | done t =>
    obtain ⟨o', w', rfl⟩ := h
    exact ⟨o', w', rfl⟩
  | raised e t =>
    obtain ⟨h1, h2, o', w', rfl⟩ := h
    exact ⟨h1, h2, o', w', rfl⟩
  | fault f => trivial
  | refused r => exact h

theorem DecodesFrom.andThen {s : State} {u : UnitEnd} {k : State → UnitEnd} (h : DecodesFrom s u)
    (hk : ∀ t, DecodesFrom t (k t)) : DecodesFrom s (u.andThen k) := by
  cases u with
  | done t =>
    obtain ⟨o, w, rfl⟩ := h
    exact (hk _).of_set
  | raised e t => exact h
  | fault f => trivial
  | refused r => exact h

theorem decodesFrom_decLoop (n : Nat) : ∀ s, DecodesFrom s (decLoop n s) := by
  induction n with
  | zero => intro s; exact ⟨s.symOut, s.walk, rfl⟩
  | succ n ih => intro s; exact (decodesFrom_decPass s).andThen ih

theorem decodesFrom_decEnd (s : State) : DecodesFrom s (decEnd s) := by
  unfold decEnd
  split
  · trivial
  split
  · exact ⟨rfl, rfl, [], none, rfl⟩
  · exact ⟨s.symOut, none, rfl⟩

/-- The units of `DECOMPRESS`, from any state (R170, R193). -/
theorem decodesFrom_decompressUnits (s : State) : DecodesFrom s (decompressUnits s) := by
  unfold decompressUnits
  split
  · exact ⟨s.symOut, s.walk, rfl⟩
  · exact (decodesFrom_decLoop _ _).of_set.andThen decodesFrom_decEnd

/-- `SYM_PUSH` appends, or is refused when the text is full (R189). -/
theorem execSymPush_cases (v : Symbol) (s : State) :
    (s.symIn.length < s.cfg.textCap ∧
      execSymPush v s = respond (countWord (s.symIn.length + 1)) (s.setSymIn (s.symIn ++ [v]))) ∨
    (s.cfg.textCap ≤ s.symIn.length ∧ execSymPush v s = raise .capacity s) := by
  unfold execSymPush
  split
  · exact .inr ⟨‹_›, rfl⟩
  · exact .inl ⟨by omega, rfl⟩

/-- `BIT_PUSH` appends, or is refused when the stream is full (R191). -/
theorem execBitPush_cases (b : Bit) (s : State) :
    (s.bitBuf.length < s.cfg.bitCap ∧
      execBitPush b s = respond (countWord (s.bitBuf.length + 1)) (s.setBitBuf (s.bitBuf ++ [b]))) ∨
    (s.cfg.bitCap ≤ s.bitBuf.length ∧ execBitPush b s = raise .capacity s) := by
  unfold execBitPush
  split
  · exact .inr ⟨‹_›, rfl⟩
  · exact .inl ⟨by omega, rfl⟩

/-- The end of a read is `OK` with the value, or `ERR_RANGE` (R233). -/
theorem answer_cases (v : Option Word) (s : State) :
    (∃ d, v = some d ∧ answer v s = .next (s.answered d)) ∨ (v = none ∧ answer v s = .next (s.failed .range)) := by
  cases v with
  | none => exact .inr ⟨rfl, rfl⟩
  | some d => exact .inl ⟨d, rfl, rfl⟩

/-- The scan for the least index of a pool finds it (R13, R134). -/
theorem leastOf_spec {node : List Node} : ∀ pool : List NodeIx, InNode node pool → pool ≠ [] →
    ∃ a, leastOf node pool = some a ∧ a ∈ pool ∧ ∀ y ∈ pool, nodeKey node a ≤ nodeKey node y := by
  intro pool
  induction pool with
  | nil => intro _ h; exact absurd rfl h
  | cons x xs ih =>
    intro hin _
    by_cases hx : xs = []
    · subst hx; exact ⟨x, rfl, by simp, by simp⟩
    · obtain ⟨y, h1, h2, h3⟩ := ih (fun z hz => hin z (List.mem_cons_of_mem _ hz)) hx
      have hl := less?_eq (hin x List.mem_cons_self) (hin y (List.mem_cons_of_mem _ h2))
      by_cases hlt : nodeKey node x < nodeKey node y
      · refine ⟨x, by rw [leastOf, h1]; simp [hl, hlt], by simp, fun z hz => ?_⟩
        rcases List.mem_cons.mp hz with rfl | hz
        · exact le_refl _
        · have := h3 z hz
          omega
      · refine ⟨y, by rw [leastOf, h1]; simp [hl, hlt], List.mem_cons_of_mem _ h2, fun z hz => ?_⟩
        rcases List.mem_cons.mp hz with rfl | hz
        · omega
        · exact h3 z hz

end Sys2Proof.Machine
end

