-- ==== Sys2Proof/Laws/Kraft.lean ====
section
/-! SUPPORT. The two halves of Huffman's argument without a tree (spec/41_tree_builder.md rule R143): the lengths of a code in
which no string begins another satisfy Kraft's inequality, and the cost of greedy merging is a lower bound of the weighted sum
of any lengths that satisfy it. -/

namespace Sys2Proof.Machine

/-! ### Greedy merging is a lower bound -/

/-- The cost of merging weights, the two least first, until one is left: the sum of all weights made. -/
inductive GreedyCost : Multiset Nat → Nat → Prop
  | one (w : Nat) : GreedyCost {w} 0
  | merge {a b c : Nat} {rest : Multiset Nat} : a ≤ b → (∀ w ∈ rest, b ≤ w) → GreedyCost ((a + b) ::ₘ rest) c →
      GreedyCost (a ::ₘ b ::ₘ rest) (a + b + c)

/-- The sum of weight times length. -/
def lengthsCost (p : Multiset (Nat × Nat)) : Nat := (p.map fun x => x.1 * x.2).sum

/-- The sum of `2^-l` over the lengths. -/
def kraftSum (ls : Multiset Nat) : ℚ := (ls.map fun l => (1 / 2 : ℚ) ^ l).sum

theorem kraftSum_cons (l : Nat) (ls : Multiset Nat) : kraftSum (l ::ₘ ls) = (1 / 2 : ℚ) ^ l + kraftSum ls := by
  simp [kraftSum]

theorem kraftSum_nonneg (ls : Multiset Nat) : 0 ≤ kraftSum ls := by
  induction ls using Multiset.induction with
  | empty => simp [kraftSum]
  | cons l ls ih => rw [kraftSum_cons]; positivity

/-- Over lengths of at most `m` the sum is a multiple of `2^-m`. -/
theorem kraftSum_eq_div {m : Nat} (ls : Multiset Nat) (h : ∀ l ∈ ls, l ≤ m) : ∃ n : Nat, kraftSum ls = n / 2 ^ m := by
  induction ls using Multiset.induction with
  | empty => exact ⟨0, by simp [kraftSum]⟩
  | cons l ls ih =>
    obtain ⟨n, hn⟩ := ih fun x hx => h x (Multiset.mem_cons_of_mem hx)
    have hl : l ≤ m := h l (Multiset.mem_cons_self l ls)
    refine ⟨2 ^ (m - l) + n, ?_⟩
    have h2 : (2 : ℚ) ^ m = 2 ^ (m - l) * 2 ^ l := by rw [← pow_add, Nat.sub_add_cancel hl]
    rw [kraftSum_cons, hn]
    push_cast
    rw [add_div, h2]
    congr 1
    rw [one_div, inv_pow]
    field_simp

/-- The least weight may take the greatest length: an exchange does not raise the cost. -/
theorem exists_longest_first (x l : Nat) (q : Multiset (Nat × Nat)) (hx : ∀ y ∈ q, x ≤ y.1) :
    ∃ (l' : Nat) (q' : Multiset (Nat × Nat)), q'.map Prod.fst = q.map Prod.fst ∧
      l' ::ₘ q'.map Prod.snd = l ::ₘ q.map Prod.snd ∧ (∀ y ∈ q', y.2 ≤ l') ∧
      x * l' + lengthsCost q' ≤ x * l + lengthsCost q := by
  obtain ⟨z, hz, hmax⟩ := Multiset.exists_max_image (s := (x, l) ::ₘ q) Prod.snd (Multiset.cons_ne_zero)
  by_cases hzl : z.2 ≤ l
  · exact ⟨l, q, rfl, rfl, fun y hy => (hmax y (Multiset.mem_cons_of_mem hy)).trans hzl, le_refl _⟩
  · have hzq : z ∈ q := by
      rcases Multiset.mem_cons.mp hz with rfl | h
      · exact absurd (le_refl _) hzl
      · exact h
    obtain ⟨r, rfl⟩ := Multiset.exists_cons_of_mem hzq
    refine ⟨z.2, (z.1, l) ::ₘ r, by simp, ?_, ?_, ?_⟩
    · simp only [Multiset.map_cons]; exact Multiset.cons_swap _ _ _
    · intro y hy
      rcases Multiset.mem_cons.mp hy with rfl | h
      · exact le_of_not_ge hzl
      · exact hmax y (Multiset.mem_cons_of_mem (Multiset.mem_cons_of_mem h))
    · simp only [lengthsCost, Multiset.map_cons, Multiset.sum_cons]
      have h1 := hx z hzq
      have h2 := le_of_not_ge hzl
      nlinarith [Nat.mul_le_mul h1 h2, mul_nonneg (Int.sub_nonneg.mpr (Int.ofNat_le.mpr h1))
        (Int.sub_nonneg.mpr (Int.ofNat_le.mpr h2))]

theorem exists_first_of_map_fst {p : Multiset (Nat × Nat)} {a : Nat} {w : Multiset Nat} (h : p.map Prod.fst = a ::ₘ w) :
    ∃ (l : Nat) (q : Multiset (Nat × Nat)), p = (a, l) ::ₘ q ∧ q.map Prod.fst = w := by
  obtain ⟨⟨a', l⟩, hx, rfl, h2⟩ := (Multiset.map_eq_cons _ _ _ _).mpr h
  exact ⟨l, _, (Multiset.cons_erase hx).symm, h2⟩

/-- Whatever lengths satisfy Kraft's inequality, their cost is at least that of greedy merging. By induction on the merges: the
two least weights may take the two greatest lengths, the longer may be cut to the other, and the pair merged. -/
theorem greedyCost_le {w : Multiset Nat} {c : Nat} (hg : GreedyCost w c) :
    ∀ p : Multiset (Nat × Nat), p.map Prod.fst = w → kraftSum (p.map Prod.snd) ≤ 1 → c ≤ lengthsCost p := by
  induction hg with
  | one w => intro p _ _; exact Nat.zero_le _
  | @merge a b c rest hab hrest _ ih =>
    intro p hp hk
    obtain ⟨la, p1, rfl, hp1⟩ := exists_first_of_map_fst hp
    have hmem : ∀ y ∈ p1, y.1 ∈ b ::ₘ rest := fun y hy => hp1 ▸ Multiset.mem_map_of_mem Prod.fst hy
    obtain ⟨l, p2, h1, h2, h3, h4⟩ := exists_longest_first a la p1 fun y hy => by
      rcases Multiset.mem_cons.mp (hmem y hy) with h | h
      · omega
      · have := hrest _ h; omega
    rw [hp1] at h1
    obtain ⟨lb, p3, rfl, hp3⟩ := exists_first_of_map_fst h1
    obtain ⟨m, p4, h5, h6, h7, h8⟩ := exists_longest_first b lb p3 fun y hy => hrest _ (hp3 ▸
      Multiset.mem_map_of_mem Prod.fst hy)
    rw [hp3] at h5
    have hml : m ≤ l := by
      have : m ∈ lb ::ₘ p3.map Prod.snd := h6 ▸ Multiset.mem_cons_self _ _
      rcases Multiset.mem_cons.mp this with h | h
      · rw [h]; exact h3 _ (Multiset.mem_cons_self _ _)
      · obtain ⟨y, hy, rfl⟩ := Multiset.mem_map.mp h
        exact h3 _ (Multiset.mem_cons_of_mem hy)
    have hkr : (1 / 2 : ℚ) ^ l + kraftSum (m ::ₘ p4.map Prod.snd) ≤ 1 := by
      rw [h6, ← kraftSum_cons, ← Multiset.map_cons Prod.snd (b, lb), h2, ← Multiset.map_cons Prod.snd (a, la)]
      exact hk
    have hkm : (1 / 2 : ℚ) ^ m + kraftSum (m ::ₘ p4.map Prod.snd) ≤ 1 := by
      obtain ⟨n, hn⟩ := kraftSum_eq_div (m := m) (m ::ₘ p4.map Prod.snd) fun x hx => by
        rcases Multiset.mem_cons.mp hx with rfl | h
        · exact le_refl _
        · obtain ⟨y, hy, rfl⟩ := Multiset.mem_map.mp h
          exact h7 y hy
      rw [hn] at hkr ⊢
      have hpos : (0 : ℚ) < (1 / 2) ^ l := by positivity
      have h2m : (0 : ℚ) < 2 ^ m := by positivity
      have hlt : (n : ℚ) < 2 ^ m := by
        have : (n : ℚ) / 2 ^ m < 1 := by linarith
        rwa [div_lt_one h2m] at this
      have hle : n + 1 ≤ 2 ^ m := by exact_mod_cast hlt
      have hle' : (n : ℚ) + 1 ≤ 2 ^ m := by exact_mod_cast hle
      have : (1 / 2 : ℚ) ^ m + n / 2 ^ m = (n + 1) / 2 ^ m := by
        rw [one_div, inv_pow]; field_simp; ring
      rw [this, div_le_one h2m]
      exact hle'
    have hm : m ≠ 0 := by
      rintro rfl
      rw [kraftSum_cons] at hkm
      have := kraftSum_nonneg (p4.map Prod.snd)
      norm_num at hkm
      linarith
    obtain ⟨m, rfl⟩ := Nat.exists_eq_succ_of_ne_zero hm
    have hfin := ih ((a + b, m) ::ₘ p4) (by simp [h5]) (by
      rw [Multiset.map_cons, kraftSum_cons]
      rw [kraftSum_cons, Nat.succ_eq_add_one, pow_succ] at hkm
      dsimp only
      linarith)
    simp only [lengthsCost, Multiset.map_cons, Multiset.sum_cons] at hfin h4 h8 ⊢
    rw [Nat.succ_eq_add_one] at hml h8
    have := Nat.mul_le_mul_left a hml
    have e1 : (a + b) * m + (a + b) = a * (m + 1) + b * (m + 1) := by ring
    omega

/-! ### Kraft's inequality -/

/-- The rests of the strings that begin with `b`. -/
def restsAfter (b : Bit) (l : List (List (Bit))) : List (List (Bit)) :=
  l.filterMap fun p => match p with
    | [] => none
    | x :: q => if x = b then some q else none

/-- No string of the list begins another. -/
def PrefixFree (l : List (List (Bit))) : Prop := l.Pairwise fun p q => ¬p <+: q ∧ ¬q <+: p

theorem mem_restsAfter {b : Bit} {l : List (List (Bit))} {q : List (Bit)} : q ∈ restsAfter b l ↔ b :: q ∈ l := by
  rw [restsAfter, List.mem_filterMap]
  constructor
  · rintro ⟨p, hp, h⟩
    cases p with
    | nil => cases h
    | cons x p =>
      simp only at h
      split at h
      · cases h; subst_vars; exact hp
      · cases h
  · intro h
    exact ⟨_, h, by simp⟩

theorem PrefixFree.restsAfter {l : List (List (Bit))} (h : PrefixFree l) (b : Bit) : PrefixFree (restsAfter b l) := by
  refine List.Pairwise.filterMap _ ?_ h
  rintro p q ⟨h1, h2⟩ p' hp' q' hq'
  cases p with
  | nil => cases hp'
  | cons x p =>
    cases q with
    | nil => cases hq'
    | cons y q =>
      simp only [Option.ite_none_right_eq_some, Option.some.injEq] at hp' hq'
      obtain ⟨rfl, rfl⟩ := hp'
      obtain ⟨rfl, rfl⟩ := hq'
      simpa [List.cons_prefix_cons] using And.intro h1 h2

/-- Kraft's sum by the first bit. -/
theorem kraft_split (l : List (List (Bit))) (h : ∀ p ∈ l, p ≠ []) :
    (l.map fun p => (1 / 2 : ℚ) ^ p.length).sum =
      1 / 2 * ((restsAfter 0 l).map fun p => (1 / 2 : ℚ) ^ p.length).sum +
      1 / 2 * ((restsAfter 1 l).map fun p => (1 / 2 : ℚ) ^ p.length).sum := by
  induction l with
  | nil => simp [restsAfter]
  | cons p l ih =>
    have ih := ih fun q hq => h q (List.mem_cons_of_mem _ hq)
    obtain ⟨b, q, rfl⟩ := List.exists_cons_of_ne_nil (h p List.mem_cons_self)
    rw [List.map_cons, List.sum_cons, ih]
    have hb : b = 0 ∨ b = 1 := by clear h ih; revert b; decide
    rcases hb with rfl | rfl
    · simp [restsAfter, pow_succ]; ring
    · simp [restsAfter, pow_succ]; ring

/-- Kraft's inequality. -/
theorem kraft_le_one : ∀ (n : Nat) (l : List (List (Bit))), (∀ p ∈ l, p.length ≤ n) → PrefixFree l →
    (l.map fun p => (1 / 2 : ℚ) ^ p.length).sum ≤ 1 := by
  intro n
  induction n with
  | zero =>
    intro l hl hf
    rcases l with _ | ⟨p, _ | ⟨q, l⟩⟩
    · simp
    · have := hl p (by simp); simp at this; simp [this]
    · have h1 := hl p (by simp); have h2 := hl q (by simp)
      simp at h1 h2
      subst h1; subst h2
      simp [PrefixFree] at hf
      exact ((hf.1 []).1 rfl).elim
  | succ n ih =>
    intro l hl hf
    by_cases hnil : [] ∈ l
    · rcases l with _ | ⟨p, _ | ⟨q, l⟩⟩
      · cases hnil
      · simp at hnil; subst hnil; simp
      · exfalso
        simp only [PrefixFree, List.pairwise_cons, List.mem_cons] at hf
        rcases List.mem_cons.mp hnil with rfl | h
        · exact (hf.1 q (.inl rfl)).1 List.nil_prefix
        · rcases List.mem_cons.mp h with rfl | h
          · exact (hf.1 [] (.inl rfl)).2 List.nil_prefix
          · exact (hf.1 [] (.inr h)).2 List.nil_prefix
    · rw [kraft_split l fun p hp h => hnil (h ▸ hp)]
      have hb : ∀ b, ∀ p ∈ restsAfter b l, p.length ≤ n := fun b p hp => by
        have := hl _ (mem_restsAfter.mp hp)
        simpa using this
      have h0 := ih _ (hb 0) (hf.restsAfter 0)
      have h1 := ih _ (hb 1) (hf.restsAfter 1)
      linarith

end Sys2Proof.Machine
end

