-- ==== Sys2Proof/Laws/Memory.lean ====
section
/-! SUPPORT. Every operation on a buffer keeps the memory's form, `Memory.wf` (spec/20_memory.md rules R60 and R77), and
the state after reset has it. -/

namespace Sys2Proof.Machine

theorem memory_wf_reset : Memory.wf State.reset := by decide

theorem memory_wf_resetState (s : State) : Memory.wf (resetState s) := by
  simp [Memory.wf, Session.nothing, nodeCap]

section ops
variable {s : State} (h : Memory.wf s)
include h

theorem memory_wf_setRsp (r : Option Response) : Memory.wf (s.setRsp r) := h

theorem memory_wf_setLastErr (e : Status) : Memory.wf (s.setLastErr e) := h

theorem memory_wf_setHost (l : List HostAction) : Memory.wf (s.setHost l) := h

theorem memory_wf_symClr : Memory.wf (s.setSymIn []) := ⟨Nat.zero_le _, h.2⟩

theorem memory_wf_symPush (v : Symbol) (hfull : ¬s.cfg.textCap ≤ s.symIn.length) :
    Memory.wf (s.setSymIn (s.symIn ++ [v])) := ⟨by simp; omega, h.2⟩

theorem memory_wf_setBitBuf {l : List Bit} (hl : l.length ≤ s.cfg.bitCap) : Memory.wf (s.setBitBuf l) :=
  ⟨h.1, hl, h.2.2⟩

theorem memory_wf_bitPush (b : Bit) (hfull : ¬s.cfg.bitCap ≤ s.bitBuf.length) :
    Memory.wf (s.setBitBuf (s.bitBuf ++ [b])) := memory_wf_setBitBuf h (by simp; omega)

theorem memory_wf_setSymOut {l : List Symbol} (hl : l.length ≤ s.cfg.bitCap) : Memory.wf (s.setSymOut l) :=
  ⟨h.1, h.2.1, hl, h.2.2.2⟩

theorem memory_wf_setSession {x : Session} (hx : x.node.length < nodeCap) : Memory.wf (s.setSession x) :=
  ⟨h.1, h.2.1, h.2.2.1, hx, h.2.2.2.2⟩

theorem memory_wf_withBuilt {x : Session} (hx : x.node.length < nodeCap) : Memory.wf (s.withBuilt x) :=
  ⟨h.1, Nat.zero_le _, h.2.2.1, hx, Nat.zero_le _, Nat.zero_le _⟩

end ops

end Sys2Proof.Machine
end

