-- ==== Sys2Proof/Laws/Paths.lean ====
section
/-! SUPPORT. Walks on a tree for a table (spec/10_state.md rule R26, spec/42_code_generator.md rules R153 and R154): a cell
has one parent on one side, so one walk from the root leads to it, one leaf holds a symbol, and a walk is no longer than the
cells it can pass. -/

namespace Sys2Proof.Machine

section tree
variable {freq : Table Nat} {node : List Node} {root : NodeIx}

/-- The last step of a walk. -/
theorem walkPath_snoc_inv {r i : NodeIx} {p : List Bit} {a : Bit} (h : walkPath node r (p ++ [a]) = some i) :
    ∃ x n, walkPath node r p = some x ∧ nodeAt? node x = some n ∧ move n a = .to i := by
  rw [walkPath_append] at h
  rcases hx : walkPath node r p with _ | x
  · rw [hx] at h; cases h
  rw [hx, Option.bind_some] at h
  simp only [walkPath] at h
  rcases hn : nodeAt? node x with _ | n
  · rw [hn] at h; cases h
  rw [hn] at h
  simp only at h
  rcases hm : move n a with j | _ | _
  · rw [hm, Option.some.injEq] at h
    subst h
    exact ⟨x, n, rfl, hn, hm⟩
  · rw [hm] at h; cases h
  · rw [hm] at h; cases h

theorem move_mem_children {n : Node} {a : Bit} {i : NodeIx} (h : move n a = .to i) : i ∈ n.children := by
  cases n with
  | leaf f c => cases h
  | internal f l r => simp only [move] at h; split at h <;> cases h <;> simp [Node.children]
  | synth f l => simp only [move] at h; split at h <;> cases h; simp [Node.children]

/-- A child is taken by one bit only (R26 (c)). -/
theorem TreeFor.move_inj (ht : TreeFor freq node root) {x : NodeIx} {n : Node} (hn : nodeAt? node x = some n) {a b : Bit}
    {i : NodeIx} (h1 : move n a = .to i) (h2 : move n b = .to i) : a = b := by
  have hnd := ht.nodup_children (v := [x]) (by simp)
  simp only [List.flatMap_cons, List.flatMap_nil, List.append_nil, childrenAt_eq hn] at hnd
  have hnd := (List.nodup_cons.mp hnd).2
  rcases bit_cases a with rfl | rfl <;> rcases bit_cases b with rfl | rfl <;> try rfl
  all_goals
    cases n with
    | leaf f c => cases h1
    | internal f l r => simp [move] at h1 h2; subst h1; subst h2; simp [Node.children] at hnd
    | synth f l => simp [move] at h1 h2

/-- "Each node is owned by exactly one parent" (R26 (d)). -/
theorem TreeFor.parent_unique (ht : TreeFor freq node root) {x y : NodeIx} {n m : Node} (hx : nodeAt? node x = some n)
    (hy : nodeAt? node y = some m) {i : NodeIx} (h1 : i ∈ n.children) (h2 : i ∈ m.children) : x = y := by
  by_contra hne
  have hnd := ht.nodup_children (v := [x, y]) (by simp [hne])
  simp only [List.flatMap_cons, List.flatMap_nil, List.append_nil, childrenAt_eq hx, childrenAt_eq hy] at hnd
  exact (List.nodup_append.mp (List.nodup_cons.mp hnd).2).2.2 i h1 i h2 rfl

/-- The root is no child (R26 (d)). -/
theorem TreeFor.root_no_child (ht : TreeFor freq node root) {x : NodeIx} {n : Node} (hx : nodeAt? node x = some n)
    (h : root ∈ n.children) : False := by
  have h1 := ht.child_lt hx h
  have h2 := nodeAt?_lt hx
  have h3 := ht.root_last
  omega

/-- One walk from the root leads to a cell. -/
theorem TreeFor.walk_unique (ht : TreeFor freq node root) (p : List Bit) : ∀ (q : List Bit) (i : NodeIx),
    walkPath node root p = some i → walkPath node root q = some i → p = q := by
  induction p using List.reverseRecOn with
  | nil =>
    intro q i h1 h2
    rw [walkPath, Option.some_inj] at h1
    subst h1
    rcases List.eq_nil_or_concat q with rfl | ⟨q, b, rfl⟩
    · rfl
    · rw [List.concat_eq_append] at h2
      obtain ⟨x, n, _, hn, hm⟩ := walkPath_snoc_inv h2
      exact (ht.root_no_child hn (move_mem_children hm)).elim
  | append_singleton p a ih =>
    intro q i h1 h2
    obtain ⟨x, n, h3, hn, hm⟩ := walkPath_snoc_inv h1
    rcases List.eq_nil_or_concat q with rfl | ⟨q, b, rfl⟩
    · rw [walkPath, Option.some_inj] at h2
      subst h2
      exact (ht.root_no_child hn (move_mem_children hm)).elim
    · rw [List.concat_eq_append] at h2 ⊢
      obtain ⟨y, m, h6, hn', hm'⟩ := walkPath_snoc_inv h2
      obtain rfl := ht.parent_unique hn hn' (move_mem_children hm) (move_mem_children hm')
      rw [hn] at hn'
      obtain rfl := Option.some.inj hn'
      rw [ih q x h3 h6, ht.move_inj hn hm hm']

/-- A cell below NSYMS is the leaf of the key of that rank (R26 (b)). -/
theorem TreeFor.rank_of_leaf (ht : TreeFor freq node root) {i : NodeIx} {f : Nat} {c : Symbol}
    (hi : nodeAt? node i = some (.leaf f c)) : (keys freq)[i.toNat]? = some c := by
  have hk : i.toNat < (keys freq).length := by
    by_contra hk
    exact ht.inner i.toNat _ (by omega) hi
  have h1 : (leavesOf freq)[i.toNat]? = some (.leaf f c) := by
    rw [← ht.leaves, List.getElem?_take_of_lt hk]
    exact hi
  rw [leavesOf, List.getElem?_map] at h1
  obtain ⟨k, hk, he⟩ := Option.map_eq_some_iff.mp h1
  cases he
  exact hk

/-- One leaf holds a symbol (R26 (b)). -/
theorem TreeFor.leaf_unique (ht : TreeFor freq node root) {i j : NodeIx} {f g : Nat} {c : Symbol}
    (hi : nodeAt? node i = some (.leaf f c)) (hj : nodeAt? node j = some (.leaf g c)) : i = j := by
  obtain ⟨_, b1⟩ := List.getElem?_eq_some_iff.mp (ht.rank_of_leaf hi)
  obtain ⟨_, b2⟩ := List.getElem?_eq_some_iff.mp (ht.rank_of_leaf hj)
  exact BitVec.eq_of_toNat_eq ((nodup_keys freq).getElem_inj_iff.mp (b1.trans b2.symm))

/-- A path to a leaf of a symbol makes the symbol a key (R26 (b)). -/
theorem TreeFor.key_of_pathTo (ht : TreeFor freq node root) {c : Symbol} {p : List Bit} (h : PathTo node root c p) :
    freq.read c ≠ 0 := by
  obtain ⟨i, f, _, hl⟩ := h
  exact mem_keys.mp (ht.leaf_key hl).1

/-- A cell that a walk can leave is not below NSYMS (R26 (b)). -/
theorem TreeFor.keys_le_of_move (ht : TreeFor freq node root) {i j : NodeIx} {n : Node} {b : Bit}
    (hn : nodeAt? node i = some n) (hm : move n b = .to j) : (keys freq).length ≤ i.toNat := by
  by_contra hk
  have h1 : (leavesOf freq)[i.toNat]? = some n := by
    rw [← ht.leaves, List.getElem?_take_of_lt (by omega)]
    exact hn
  rw [leavesOf, List.getElem?_map] at h1
  obtain ⟨k, _, rfl⟩ := Option.map_eq_some_iff.mp h1
  cases hm

/-- Every step of a walk goes to a lower cell and leaves a cell at or above NSYMS, which bounds its length (R153). -/
theorem TreeFor.walk_length (ht : TreeFor freq node root) (p : List Bit) : ∀ i j, p ≠ [] → walkPath node i p = some j →
    p.length + (keys freq).length ≤ i.toNat + 1 := by
  induction p with
  | nil => intro i j h; exact absurd rfl h
  | cons b q ih =>
    intro i j _ h
    simp only [walkPath] at h
    rcases hn : nodeAt? node i with _ | n
    · rw [hn] at h; cases h
    rw [hn] at h
    simp only at h
    rcases hm : move n b with k | _ | _
    · rw [hm] at h
      have hlt := ht.child_lt hn (move_mem_children hm)
      have hk := ht.keys_le_of_move hn hm
      rw [List.length_cons]
      by_cases hq : q = []
      · subst hq; simp; omega
      · have := ih k j hq h
        omega
    · rw [hm] at h; cases h
    · rw [hm] at h; cases h

end tree

end Sys2Proof.Machine
end

