-- ==== Sys2Proof/Laws/Optimal.lean ====
section
/-! SUPPORT. Optimality of the code of the greedy tree (spec/41_tree_builder.md rule R143), for the builder without a heap
(R134): the weighted code length of its tree is the cost of its merges, which `greedyCost_le` says no other code is below. -/

namespace Sys2Proof.Machine

/-! ### What a merge does to the codes -/

/-- The weights of a pool. -/
def poolWeights (node : List Node) (pool : List NodeIx) : Multiset Nat :=
  (pool.map fun x => (nodeFreq? node x).getD 0 : List Nat)

/-- The sum over the keys of count times length, for any assignment of bit strings. -/
def weightedLength (freq : Table Nat) (path : Symbol → List Bit) : Nat :=
  ((keys freq).map fun c => freq.read c * (path c).length).sum

/-- The trees below the indices of a pool: `own c` is the pool's index above the leaf of the key `c`, `path c`
the way down. -/
structure Grove (freq : Table Nat) (node : List Node) (pool : List NodeIx) (own : Symbol → NodeIx)
    (path : Symbol → List Bit) : Prop where
  path : ∀ c ∈ keys freq, PathTo node (own c) c (path c)
  mem : ∀ c ∈ keys freq, own c ∈ pool
  weight : ∀ x ∈ pool, nodeFreq? node x = some (((keys freq).map fun c => if own c = x then freq.read c else 0).sum)
  nodup : pool.Nodup

theorem PathTo.cons {node : List Node} {x y : NodeIx} {n : Node} {b : Bit} {c : Symbol} {p : List Bit}
    (hn : nodeAt? node x = some n) (hm : move n b = .to y) (h : PathTo node y c p) : PathTo node x c (b :: p) := by
  obtain ⟨i, f, h1, h2⟩ := h
  exact ⟨i, f, by simp only [walkPath, hn, hm]; exact h1, h2⟩

theorem nodeAt?_append_some {node : List Node} {x : NodeIx} {n : Node} (h : nodeAt? node x = some n) (l : List Node) :
    nodeAt? (node ++ l) x = some n := by
  rw [nodeAt?, List.getElem?_append_left (nodeAt?_lt h)]; exact h

theorem PathTo.append {node : List Node} {c : Symbol} (l : List Node) : ∀ {p : List Bit} {x : NodeIx},
    PathTo node x c p → PathTo (node ++ l) x c p := by
  intro p
  induction p with
  | nil =>
    rintro x ⟨i, f, h1, h2⟩
    exact ⟨i, f, h1, nodeAt?_append_some h2 l⟩
  | cons b p ih =>
    rintro x ⟨i, f, h1, h2⟩
    simp only [walkPath] at h1
    rcases hn : nodeAt? node x with _ | n
    · rw [hn] at h1; cases h1
    rw [hn] at h1
    simp only at h1
    rcases hm : move n b with y | _ | _
    · rw [hm] at h1
      exact PathTo.cons (nodeAt?_append_some hn l) hm (ih ⟨i, f, h1, h2⟩)
    · rw [hm] at h1; cases h1
    · rw [hm] at h1; cases h1

theorem sum_map_add {α : Type} (l : List α) (f g h : α → Nat) (hh : ∀ c ∈ l, h c = f c + g c) :
    (l.map h).sum = (l.map f).sum + (l.map g).sum := by
  induction l with
  | nil => rfl
  | cons a l ih =>
    have := ih fun c hc => hh c (List.mem_cons_of_mem _ hc)
    have := hh a List.mem_cons_self
    simp only [List.map_cons, List.sum_cons]
    omega

/-- One merge: the paths below the two roots get one bit longer, which costs the sum of their frequencies (R135). -/
theorem Grove.merge {freq : Table Nat} {node : List Node} {a b : NodeIx} {rest : List NodeIx} {own : Symbol → NodeIx}
    {path : Symbol → List Bit} (hg : Grove freq node (a :: b :: rest) own path) (hin : InNode node (a :: b :: rest))
    (hlen : node.length < 512) {fa fb : Nat} (ha : nodeFreq? node a = some fa) (hb : nodeFreq? node b = some fb) :
    ∃ own' path', Grove freq (node ++ [.internal (fa + fb) a b]) (BitVec.ofNat 9 node.length :: rest) own' path' ∧
      weightedLength freq path' = weightedLength freq path + (fa + fb) := by
  have hab : a ≠ b := fun h => by have := hg.nodup; simp [h] at this
  have hra : a ∉ rest := fun h => by have := hg.nodup; simp [h] at this
  have hrb : b ∉ rest := fun h => by have := hg.nodup; simp [h] at this
  set m : NodeIx := BitVec.ofNat 9 node.length with hm
  have hmn : m.toNat = node.length := toNat_newIx hlen
  have hmx : ∀ x ∈ a :: b :: rest, x ≠ m := fun x hx h => by have := hin x hx; rw [h, hmn] at this; omega
  have hnode : nodeAt? (node ++ [.internal (fa + fb) a b]) m = some (.internal (fa + fb) a b) := by
    rw [nodeAt?, hmn]; simp
  refine ⟨fun c => if own c = a ∨ own c = b then m else own c,
    fun c => if own c = a then 0 :: path c else if own c = b then 1 :: path c else path c, ⟨?_, ?_, ?_, ?_⟩, ?_⟩
  · intro c hc
    have hp := (hg.path c hc).append [.internal (fa + fb) a b]
    by_cases h1 : own c = a
    · simp only [h1, true_or, if_true]
      exact PathTo.cons hnode (by simp [move]) (h1 ▸ hp)
    · by_cases h2 : own c = b
      · simp only [h2, or_true, if_true, if_neg hab.symm]
        exact PathTo.cons hnode (by simp [move]) (h2 ▸ hp)
      · simp only [h1, h2, or_self, if_false]; exact hp
  · intro c hc
    have := hg.mem c hc
    simp only [List.mem_cons] at this ⊢
    split
    · exact .inl rfl
    · rename_i h
      rcases this with h' | h' | h'
      · exact absurd (.inl h') h
      · exact absurd (.inr h') h
      · exact .inr h'
  · intro x hx
    rcases List.mem_cons.mp hx with rfl | hx
    · rw [nodeFreq?, hnode]
      have h1 := hg.weight a (by simp)
      have h2 := hg.weight b (by simp)
      rw [ha, Option.some_inj] at h1
      rw [hb, Option.some_inj] at h2
      simp only [Option.map_some, Node.freq, Option.some_inj]
      rw [h1, h2]
      symm
      refine sum_map_add _ _ _ _ fun c hc => ?_
      have hom := hmx _ (hg.mem c hc)
      by_cases e1 : own c = a
      · simp [e1, hab]
      · by_cases e2 : own c = b
        · simp [e2, hab.symm]
        · simp [e1, e2, hom]
    · rw [nodeFreq?_append_left (hin x (by simp [hx])), hg.weight x (by simp [hx])]
      have hxm := hmx x (by simp [hx])
      congr 2
      refine List.map_congr_left fun c hc => ?_
      by_cases e1 : own c = a
      · simp [e1, Ne.symm hxm, show a ≠ x by rintro rfl; exact hra hx]
      · by_cases e2 : own c = b
        · simp [e2, Ne.symm hxm, show b ≠ x by rintro rfl; exact hrb hx]
        · simp [e1, e2]
  · have hnd := hg.nodup
    simp only [List.nodup_cons] at hnd ⊢
    exact ⟨fun h => hmx m (by simp [h]) rfl, hnd.2.2⟩
  · have h1 := hg.weight a (by simp)
    have h2 := hg.weight b (by simp)
    rw [ha, Option.some_inj] at h1
    rw [hb, Option.some_inj] at h2
    rw [weightedLength, weightedLength, h1, h2]
    rw [← sum_map_add (keys freq) _ _ _ (fun c hc => rfl)]
    refine sum_map_add _ _ _ _ fun c hc => ?_
    by_cases e1 : own c = a
    · simp [e1, hab]; ring
    · by_cases e2 : own c = b
      · simp [e2, hab.symm]; ring
      · simp [e1, e2]

theorem Grove.perm {freq : Table Nat} {node : List Node} {p q : List NodeIx} {own : Symbol → NodeIx}
    {path : Symbol → List Bit} (hg : Grove freq node p own path) (h : p.Perm q) : Grove freq node q own path where
  path := hg.path
  mem := fun c hc => h.mem_iff.mp (hg.mem c hc)
  weight := fun x hx => hg.weight x (h.mem_iff.mpr hx)
  nodup := h.nodup_iff.mp hg.nodup

theorem nodeFreq_le_of_key_le {node : List Node} {x y : NodeIx} {f g : Nat} (hx : nodeFreq? node x = some f)
    (hy : nodeFreq? node y = some g) (h : nodeKey node x ≤ nodeKey node y) : f ≤ g := by
  rw [nodeKey, nodeKey, hx, hy] at h
  have := x.isLt; have := y.isLt
  simp at h
  omega

/-- All merges: the pool is merged greedily, and the paths from the last index grow by exactly the cost of the merges. -/
theorem refMerge_spec {freq : Table Nat} : ∀ (k : Nat) (node : List Node) (pool : List NodeIx) (own : Symbol → NodeIx)
    (path : Symbol → List Bit), pool.length = k + 1 → InNode node pool → node.length + k < 512 → Grove freq node pool own path →
    ∃ (r : NodeIx) (c : Nat) (path' : Symbol → List Bit), GreedyCost (poolWeights node pool) c ∧
      (k = 0 → pool = [r]) ∧ (k ≠ 0 → r.toNat + 1 = (refMerge k node pool).length) ∧
      (∀ d ∈ keys freq, PathTo (refMerge k node pool) r d (path' d)) ∧
      weightedLength freq path' = weightedLength freq path + c := by
  intro k
  induction k with
  | zero =>
    intro node pool own path hl hin hlen hg
    obtain ⟨r, rfl⟩ := List.length_eq_one_iff.mp hl
    refine ⟨r, 0, path, .one _, fun _ => rfl, fun h => absurd rfl h, fun d hd => ?_, by omega⟩
    have h1 := hg.mem d hd
    simp only [List.mem_singleton] at h1
    exact h1 ▸ hg.path d hd
  | succ k ih =>
    intro node pool own path hl hin hlen hg
    obtain ⟨a, la, hma, hlea⟩ := leastOf_spec pool hin (by rintro rfl; simp at hl)
    have hpa := List.perm_cons_erase hma
    have hl1 : (pool.erase a).length = k + 1 := by have := hpa.length_eq; simp at this; omega
    have hin1 : InNode node (pool.erase a) := fun x hx => hin x (List.mem_of_mem_erase hx)
    obtain ⟨b, lb, hmb, hleb⟩ := leastOf_spec (pool.erase a) hin1 (by intro h; rw [h] at hl1; simp at hl1)
    have hpb := List.perm_cons_erase hmb
    have hp : pool.Perm (a :: b :: (pool.erase a).erase b) := hpa.trans (hpb.cons a)
    have hin2 : InNode node (a :: b :: (pool.erase a).erase b) := fun x hx => hin x (hp.mem_iff.mpr hx)
    obtain ⟨fa, hfa⟩ := nodeFreq?_isSome (hin a hma)
    obtain ⟨fb, hfb⟩ := nodeFreq?_isSome (hin1 b hmb)
    have hmrg : mergedNode? node a b = some (.internal (fa + fb) a b) := by simp only [mergedNode?, hfa, hfb]
    have hstep : refMerge (k + 1) node pool = refMerge k (node ++ [.internal (fa + fb) a b])
        (BitVec.ofNat 9 node.length :: (pool.erase a).erase b) := by rw [refMerge]; simp only [la, lb, hmrg]
    obtain ⟨own', path', hg', hw⟩ := (hg.perm hp).merge hin2 (by omega) hfa hfb
    have hl2 := hp.length_eq
    simp only [List.length_cons] at hl2
    have hmn : (BitVec.ofNat 9 node.length).toNat = node.length := toNat_newIx (by omega)
    obtain ⟨r, c, path'', h1, h2, h3, h4, h5⟩ := ih (node ++ [.internal (fa + fb) a b])
      (BitVec.ofNat 9 node.length :: (pool.erase a).erase b) own' path' (by simp; omega) (fun x hx => by
        rw [List.length_append, List.length_singleton]
        rcases List.mem_cons.mp hx with rfl | hx
        · omega
        · have := hin2 x (by simp [hx]); omega) (by simp; omega) hg'
    refine ⟨r, fa + fb + c, path'', ?_, fun h => absurd h (by omega), fun _ => ?_, by rw [hstep]; exact h4, by omega⟩
    · have e : poolWeights node pool = fa ::ₘ fb ::ₘ poolWeights node ((pool.erase a).erase b) := by
        have := hp.map fun x => (nodeFreq? node x).getD 0
        rw [poolWeights, Multiset.coe_eq_coe.mpr this]
        simp [poolWeights, hfa, hfb]
      have e2 : poolWeights (node ++ [.internal (fa + fb) a b]) (BitVec.ofNat 9 node.length :: (pool.erase a).erase b) =
          (fa + fb) ::ₘ poolWeights node ((pool.erase a).erase b) := by
        rw [poolWeights, poolWeights, List.map_cons, nodeFreq?_new (by omega), Option.getD_some, ← Multiset.cons_coe]
        congr 2
        refine List.map_congr_left fun x hx => ?_
        rw [nodeFreq?_append_left (hin2 x (by simp [hx]))]
      rw [e2] at h1
      rw [e]
      refine .merge (nodeFreq_le_of_key_le hfa hfb (hlea b (List.mem_of_mem_erase hmb))) (fun w hw => ?_) h1
      obtain ⟨x, hx, rfl⟩ := List.mem_map.mp (Multiset.mem_coe.mp hw)
      obtain ⟨fx, hfx⟩ := nodeFreq?_isSome (hin2 x (by simp [hx]))
      rw [hfx, Option.getD_some]
      exact nodeFreq_le_of_key_le hfb hfx (hleb x (List.mem_of_mem_erase hx))
    · by_cases hk : k = 0
      · subst hk
        have := h2 rfl
        simp only [List.cons.injEq] at this
        rw [hstep, refMerge, ← this.1, hmn]; simp
      · rw [hstep]; exact h3 hk


/-! ### From the leaves to the code table -/

theorem sum_ite_eq_of_nodup {α β : Type} [DecidableEq β] (l : List α) (key : α → β) (f : α → Nat)
    (hk : (l.map key).Nodup) {c : α} (hc : c ∈ l) :
    (l.map fun d => if key d = key c then f d else 0).sum = f c := by
  induction l with
  | nil => cases hc
  | cons a l ih =>
    rw [List.map_cons, List.nodup_cons] at hk
    rw [List.map_cons, List.sum_cons]
    rcases List.mem_cons.mp hc with rfl | h
    · rw [if_pos rfl]
      have : (l.map fun d => if key d = key c then f d else 0) = l.map fun _ => 0 :=
        List.map_congr_left fun d hd => if_neg fun (he : key d = key c) => hk.1 (he ▸ List.mem_map_of_mem hd)
      rw [this]; simp
    · rw [if_neg fun (he : key a = key c) => hk.1 (he.symm ▸ List.mem_map_of_mem h), ih hk.2 h, Nat.zero_add]

/-- The cell of the leaf of a key (R131). -/
def leafIx (freq : Table Nat) (c : Symbol) : NodeIx := BitVec.ofNat 9 ((keys freq).idxOf c)

theorem toNat_leafIx (freq : Table Nat) {c : Symbol} (hc : c ∈ keys freq) :
    (leafIx freq c).toNat = (keys freq).idxOf c := by
  have h1 := List.idxOf_lt_length_of_mem hc
  have h2 := length_keys_le freq
  exact toNat_newIx (by omega)

theorem nodeAt?_leafIx (freq : Table Nat) {c : Symbol} (hc : c ∈ keys freq) :
    nodeAt? (leavesOf freq) (leafIx freq c) = some (.leaf (freq.read c) c) := by
  rw [nodeAt?, toNat_leafIx freq hc, leavesOf, List.getElem?_map, List.getElem?_idxOf hc]; rfl

theorem map_leafIx (freq : Table Nat) :
    (keys freq).map (leafIx freq) = (List.range (keys freq).length).map (BitVec.ofNat 9) := by
  refine List.ext_getElem (by simp) fun i h1 h2 => ?_
  simp only [List.getElem_map, List.getElem_range, leafIx]
  rw [(nodup_keys freq).idxOf_getElem]

/-- After `TB_LEAVES` every leaf is its own root (R131). -/
theorem grove_leaves (freq : Table Nat) :
    Grove freq (leavesOf freq) ((List.range (keys freq).length).map (BitVec.ofNat 9)) (leafIx freq) fun _ => [] := by
  have hnd : ((keys freq).map (leafIx freq)).Nodup := by
    refine List.Nodup.map_on (fun c hc d hd h => ?_) (nodup_keys freq)
    have := congrArg BitVec.toNat h
    rw [toNat_leafIx freq hc, toNat_leafIx freq hd] at this
    exact (List.idxOf_inj hc).mp this
  rw [← map_leafIx]
  refine ⟨fun c hc => ⟨_, _, rfl, nodeAt?_leafIx freq hc⟩, fun c hc => List.mem_map_of_mem hc, fun x hx => ?_, hnd⟩
  obtain ⟨c, hc, rfl⟩ := List.mem_map.mp hx
  rw [nodeFreq?, nodeAt?_leafIx freq hc, Option.map_some, Node.freq, sum_ite_eq_of_nodup _ _ _ hnd hc]

theorem poolWeights_leaves (freq : Table Nat) :
    poolWeights (leavesOf freq) ((List.range (keys freq).length).map (BitVec.ofNat 9)) =
      ((keys freq).map freq.read : List Nat) := by
  rw [poolWeights, ← map_leafIx, List.map_map]
  congr 1
  refine List.map_congr_left fun c hc => ?_
  simp [nodeFreq?, nodeAt?_leafIx freq hc, Node.freq]

/-- The cost of the code table of the greedy tree is the cost of the greedy merges. -/
theorem greedyCost_code {x : Session} (hb : x.Built) (hn : x.node = refBuild x.freq) (h2 : (keys x.freq).length ≠ 1) :
    GreedyCost ((keys x.freq).map x.freq.read : List Nat) (weightedLength x.freq x.code.read) := by
  have hpos := List.length_pos_of_ne_nil hb.tree.nonempty
  have hle := length_keys_le x.freq
  rw [refBuild, if_neg h2] at hn
  obtain ⟨r, c, path, h1, _, h3, h4, h5⟩ := refMerge_spec ((keys x.freq).length - 1) (leavesOf x.freq)
    ((List.range (keys x.freq).length).map (BitVec.ofNat 9)) _ _ (by simp; omega)
    (fun y hy => by
      obtain ⟨i, hi, rfl⟩ := List.mem_map.mp hy
      rw [List.mem_range] at hi
      rw [toNat_newIx (by omega), length_leavesOf]; exact hi)
    (by rw [length_leavesOf]; omega) (grove_leaves x.freq)
  rw [← hn] at h3 h4
  have hr : r = x.root := BitVec.eq_of_toNat_eq (by have := h3 (by omega); have := hb.tree.root_last; omega)
  subst hr
  rw [poolWeights_leaves] at h1
  have hz : weightedLength x.freq (fun _ => []) = 0 := by simp [weightedLength]
  have : weightedLength x.freq x.code.read = weightedLength x.freq path := by
    rw [weightedLength, weightedLength]
    congr 1
    refine List.map_congr_left fun d hd => ?_
    obtain ⟨i, f, e1, e2⟩ := h4 d hd
    obtain ⟨j, g, e3, e4⟩ := hb.code.path d ((hb.code.entry d).mpr (mem_keys.mp hd))
    obtain rfl := hb.tree.leaf_unique e2 e4
    rw [hb.tree.walk_unique _ _ _ e1 e3]
  rw [this, h5, hz, Nat.zero_add]
  exact h1

/-- Symbols that are no keys add nothing to the cost. -/
theorem codeCost_eq (freq : Table Nat) (code : Symbol → List Bit) : codeCost freq code = weightedLength freq code := by
  rw [codeCost, weightedLength, keys]
  induction allSymbols with
  | nil => rfl
  | cons a l ih => by_cases h : freq.read a = 0 <;> simp [h, ih]

/-- The code table of a built session is a prefix code for its table (R28 (a), (c)). -/
theorem Session.Built.prefixCodeFor {x : Session} (hb : x.Built) : PrefixCodeFor x.freq x.code.read where
  entry := fun c hc => (hb.code.entry c).mpr hc
  free := fun c d hc hd hne hp => hne (PathTo.unique_of_isPrefix (hb.code.path c ((hb.code.entry c).mpr hc))
    (hb.code.path d ((hb.code.entry d).mpr hd)) hp)

/-- The code of the greedy tree costs no more than any other (R143). -/
theorem weightedLength_le {x : Session} (hb : x.Built) (hn : x.node = refBuild x.freq) {other : Symbol → List Bit}
    (ho : PrefixCodeFor x.freq other) : weightedLength x.freq x.code.read ≤ weightedLength x.freq other := by
  by_cases h1 : (keys x.freq).length = 1
  · obtain ⟨c, hc⟩ := List.length_eq_one_iff.mp h1
    have hck : c ∈ keys x.freq := by simp [hc]
    obtain ⟨i, f, h2, h3⟩ := hb.code.path c ((hb.code.entry c).mpr (mem_keys.mp hck))
    have h4 := hb.tree.walk_length _ _ _ ((hb.code.entry c).mpr (mem_keys.mp hck)) h2
    have h5 := hb.tree.root_last
    have h6 := hb.tree.count
    rw [if_pos h1] at h6
    have h7 := List.length_pos_of_ne_nil (ho.entry c (mem_keys.mp hck))
    simp only [weightedLength, hc, List.map_cons, List.map_nil, List.sum_cons, List.sum_nil, Nat.add_zero]
    exact Nat.mul_le_mul_left _ (by omega)
  · have h := greedyCost_le (greedyCost_code hb hn h1)
      ((keys x.freq).map fun c => (x.freq.read c, (other c).length) : List (Nat × Nat))
      (by simp [Function.comp_def]) (by
        have := kraft_le_one (((keys x.freq).map fun c => (other c).length).sum) ((keys x.freq).map other)
          (fun p hp => by
            obtain ⟨c, hc, rfl⟩ := List.mem_map.mp hp
            exact List.single_le_sum (by simp) _ (List.mem_map_of_mem hc))
          (List.pairwise_map.mpr ((nodup_keys x.freq).imp_of_mem fun hc hd hcd =>
            ⟨ho.free _ _ (mem_keys.mp hc) (mem_keys.mp hd) hcd,
              ho.free _ _ (mem_keys.mp hd) (mem_keys.mp hc) (Ne.symm hcd)⟩))
        simpa [kraftSum, Function.comp_def] using this)
    simpa [lengthsCost, weightedLength, Function.comp_def] using h

/-- The code of the greedy tree is optimal for its table (R143). -/
theorem code_optimal {x : Session} (hb : x.Built) (hn : x.node = refBuild x.freq) : OptimalFor x.freq x.code.read :=
  ⟨hb.prefixCodeFor, fun other ho => by rw [codeCost_eq, codeCost_eq]; exact weightedLength_le hb hn ho⟩

end Sys2Proof.Machine
end

