-- ==== Sys2Proof/Laws/Outside.lean ====
section
/-! SUPPORT. What host sequences do over the block's step (spec/30_encoding.md rules R103 and R105): a sequence runs its
parts one after another, and its first failing status is that of the first part that fails. -/

namespace Sys2Proof.Machine

/-- The host issues a command whose word decodes to it (R106). -/
theorem issue_eq {i : Instr} {s t : State} {r : Response} (hd : decode (encode i) = some i) (h : exec i s = .next t)
    (hr : t.rsp = some r) : issue i s = some (r, t) := by
  have hstep : step (presentWord s (encode i)) = exec i s := by
    simp only [presentWord, step, takeAction, State.setHost_host, runWord, hd]
    rfl
  rw [issue, transact, hstep, h]
  simp [hr]

theorem issueAll_append (a b : List Instr) : ∀ s, issueAll (a ++ b) s =
    match issueAll a s with
    | none => none
    | some (rs, t) => (issueAll b t).map fun p => (rs ++ p.1, p.2) := by
  induction a with
  | nil => intro s; simp [issueAll]
  | cons i a ih =>
    intro s
    simp only [List.cons_append, issueAll]
    rcases issue i s with _ | ⟨r, t⟩
    · rfl
    simp only [ih]
    rcases issueAll a t with _ | ⟨rs, u⟩
    · rfl
    simp only [Option.map_some]
    rcases issueAll b u with _ | ⟨rs', u'⟩ <;> rfl

theorem firstError_append (a b : List Response) :
    firstError (a ++ b) = none ↔ firstError a = none ∧ firstError b = none := by
  induction a with
  | nil => simp [firstError]
  | cons r a ih => simp only [List.cons_append, firstError]; split <;> simp [ih]

end Sys2Proof.Machine
end

