-- ==== Sys2Proof/Laws/PerInstr.lean ====
section
/-! SUPPORT. The family `EncodeRow`, one lemma per command: the row of R93 that matches the word of a command is the row of
its own mnemonic (spec/30_encoding.md rules R91 and R93). -/

namespace Sys2Proof.Laws.EncodeRow

/-- The word of the command selects the row of its mnemonic. -/
def Statement (i : Instr) : Prop := i.mnemonic.selects (encode i)

/-- The shared argument: the operands stay below the row's match word. -/
theorem of_payload (i : Instr) : Statement i := by
  have hz := matchWord_mod i.mnemonic
  have h1 := payload_lt i
  have h2 := Nat.div_add_mod i.mnemonic.matchWord.toNat (2 ^ i.mnemonic.operandWidth)
  rw [Statement, selects_iff_div, toNat_encode]
  rw [hz] at h2
  generalize 2 ^ i.mnemonic.operandWidth = d at *
  have hd : 0 < d := by omega
  rw [← h2, Nat.add_zero, Nat.mul_add_div hd, Nat.mul_div_cancel_left _ hd, Nat.div_eq_of_lt h1, Nat.add_zero]

theorem nop : Statement .nop := of_payload _
theorem reset : Statement .reset := of_payload _
theorem symClr : Statement .symClr := of_payload _
theorem symPush (v : Symbol) : Statement (.symPush v) := of_payload _
theorem bitClr : Statement .bitClr := of_payload _
theorem bitPush (b : Bit) : Statement (.bitPush b) := of_payload _
theorem compress : Statement .compress := of_payload _
theorem decompress : Statement .decompress := of_payload _
theorem rdReg (r : BitVec 4) : Statement (.rdReg r) := of_payload _
theorem rdFreq (s : Symbol) : Statement (.rdFreq s) := of_payload _
theorem rdCodelen (s : Symbol) : Statement (.rdCodelen s) := of_payload _
theorem rdCodebit (s : Symbol) (k : BitVec 8) : Statement (.rdCodebit s k) := of_payload _
theorem rdNodeFreq (i : NodeIx) : Statement (.rdNodeFreq i) := of_payload _
theorem rdNodeLink (i : NodeIx) : Statement (.rdNodeLink i) := of_payload _
theorem rdBit (i : BitVec 28) : Statement (.rdBit i) := of_payload _
theorem rdSym (i : BitVec 28) : Statement (.rdSym i) := of_payload _

end Sys2Proof.Laws.EncodeRow
end

