-- ==== Sys2Proof/Laws/WellFormed.lean ====
section
/-! SUPPORT. A term of `Instr` carries its operands at their widths, so it is well formed (spec/30_encoding.md rules R92
and R101), and its script form stands for it. -/

namespace Sys2Proof

theorem operandsFit_cons {w v : Nat} {ws vs : List Nat} :
    operandsFit (w :: ws) (v :: vs) = true ↔ v < 2 ^ w ∧ operandsFit ws vs = true := by
  simp [operandsFit]

theorem Instr.toInstr?_raw (i : Instr) (h : i.wellFormed = true) : i.raw.toInstr? = some i := by
  rw [Instr.wellFormed] at h
  rw [RawCommand.toInstr?, if_pos h]
  cases i <;> simp [Instr.raw, Instr.mnemonic, Instr.operands]

end Sys2Proof
end

