-- ==== Sys2Proof/Tests/Slice0.lean ====
section
/-! SUPPORT. Small tests whose expected results are the worked examples of spec/ (the rule stands at each test), the
refusals of the well-formedness check, and for every statement with hypotheses a concrete state and operands that meet
them all. -/

namespace Sys2Proof.Tests

open Sys2Proof.Machine

/-! ### States to test on -/

/-- A small configuration: three symbols, two bits. -/
def tinyConfig : Config := { cntW := 4, textCap := 3, bitCap := 2 }

/-- Reset with a text loaded. -/
def withText (text : List Symbol) : State := State.reset.setSymIn text

/-- The state after `COMPRESS` of "aaaabbc", as R155 and R165 give it. -/
def exampleState : State := (State.reset.setSession exampleSession).setBitBuf exampleStream

/-- The session of the text "zzz", as R137, R155 and R199 give it. -/
def zSession : Session where
  freq := Table.write (Vector.replicate 256 0) 0x7A 3
  nsyms := 1
  node := [.leaf 3 0x7A, .synth 3 0]
  root := 1
  treeValid := true
  code := emptyCode.write 0x7A [0]

/-- The state after `COMPRESS` of "zzz". -/
def zState : State := (State.reset.setSession zSession).setBitBuf [0, 0, 0]

/-- The state of a next outcome; the reset state elsewhere. -/
def after (o : Host.Outcome State Fault Refusal) : State :=
  match o with
  | .next t => t
  | .fault _ => State.reset
  | .refused _ => State.reset

/-- The response of a next outcome. -/
def answerOf (o : Host.Outcome State Fault Refusal) : Option (Status × Word) :=
  match o with
  | .next t => t.rsp.map fun r => (r.status, r.data)
  | .fault _ => none
  | .refused _ => none

/-! ### Well-formedness: each check refuses (R101) -/

theorem test_wf_refuses_operand_of_N : RawCommand.wellFormed ⟨.nop, [0]⟩ = false := by decide
theorem test_wf_refuses_missing_operand : RawCommand.wellFormed ⟨.symPush, []⟩ = false := by decide
theorem test_wf_refuses_second_operand : RawCommand.wellFormed ⟨.rdFreq, [1, 2]⟩ = false := by decide
theorem test_wf_refuses_wide_V8 : RawCommand.wellFormed ⟨.symPush, [256]⟩ = false := by decide
theorem test_wf_refuses_wide_V1 : RawCommand.wellFormed ⟨.bitPush, [2]⟩ = false := by decide
theorem test_wf_refuses_wide_R4 : RawCommand.wellFormed ⟨.rdReg, [16]⟩ = false := by decide
theorem test_wf_refuses_wide_S8 : RawCommand.wellFormed ⟨.rdCodelen, [256]⟩ = false := by decide
theorem test_wf_refuses_wide_s_of_SK : RawCommand.wellFormed ⟨.rdCodebit, [256, 0]⟩ = false := by decide
theorem test_wf_refuses_wide_k_of_SK : RawCommand.wellFormed ⟨.rdCodebit, [0, 256]⟩ = false := by decide
theorem test_wf_refuses_wide_I9 : RawCommand.wellFormed ⟨.rdNodeLink, [512]⟩ = false := by decide
theorem test_wf_refuses_wide_I28 : RawCommand.wellFormed ⟨.rdBit, [2 ^ 28]⟩ = false := by decide
theorem test_wf_takes_greatest : RawCommand.wellFormed ⟨.rdCodebit, [255, 255]⟩ = true := by decide
theorem test_config_refuses : Config.ofNats? 4 16 2 = none := by decide

/-! ### Decoding: every command's word written out bit by bit from R91 and R93 -/

theorem test_decode_nop : decode 0b00000000000000000000000000000000 = some .nop := by decide
theorem test_decode_reset : decode 0b00010000000000000000000000000000 = some .reset := by decide
theorem test_decode_symClr : decode 0b00100000000000000000000000000000 = some .symClr := by decide
theorem test_decode_symPush : decode 0b00110000000000000000000010000001 = some (.symPush 129) := by decide
theorem test_decode_bitClr : decode 0b01000000000000000000000000000000 = some .bitClr := by decide
theorem test_decode_bitPush : decode 0b01010000000000000000000000000001 = some (.bitPush 1) := by decide
theorem test_decode_compress : decode 0b01100000000000000000000000000000 = some .compress := by decide
theorem test_decode_decompress : decode 0b01110000000000000000000000000000 = some .decompress := by decide
theorem test_decode_rdReg : decode 0b10000000000000000000000000001001 = some (.rdReg 9) := by decide
theorem test_decode_rdFreq : decode 0b10010000000000000000000010000001 = some (.rdFreq 129) := by decide
theorem test_decode_rdCodelen : decode 0b10100000000000000000000010000001 = some (.rdCodelen 129) := by decide
theorem test_decode_rdCodebit : decode 0b10110000000000001000001000000001 = some (.rdCodebit 1 130) := by decide
theorem test_decode_rdNodeFreq : decode 0b11000000000000000000000100000010 = some (.rdNodeFreq 258) := by decide
theorem test_decode_rdNodeLink : decode 0b11010000000000000000000100000010 = some (.rdNodeLink 258) := by decide
theorem test_decode_rdBit : decode 0b11101000000000000000000000000001 = some (.rdBit 0x8000001) := by decide
theorem test_decode_rdSym : decode 0b11111000000000000000000000000001 = some (.rdSym 0x8000001) := by decide
/-- R186, R189, R191: the illegal words of the rules' examples; R232: an illegal word with `op == 0x1`. -/
theorem test_decode_illegal : decode 0x00000001 = none ∧ decode 0x30000161 = none ∧ decode 0x50000002 = none ∧
    decode 0x10000001 = none := by decide
theorem test_decode_lowest_reserved_bits : decode 0x80000010 = none ∧ decode 0xB0010000 = none ∧ decode 0xC0000200 = none := by
  decide
theorem test_decodeTableWord : decodeTableWord 32 0xB0000162 = some (.rdCodebit 0x62 1) := by decide

/-! ### Single commands on small states -/

/-- R189: the push that fills the last cell succeeds and returns TEXT_CAP; the next one fails. -/
theorem test_symPush_last_cell :
    answerOf (exec (.symPush 0) { State.reset with cfg := tinyConfig, symIn := [1, 2] }) = some (.ok, 3) := by decide
theorem test_symPush_full :
    answerOf (exec (.symPush 0) { State.reset with cfg := tinyConfig, symIn := [1, 2, 3] }) = some (.capacity, 0) := by
  decide
/-- R191. -/
theorem test_bitPush_full :
    answerOf (exec (.bitPush 1) { State.reset with cfg := tinyConfig, bitBuf := [0, 0] }) = some (.capacity, 0) := by decide
theorem test_bitPush_appends : (after (exec (.bitPush 1) exampleState)).bitBuf = [1, 1, 1, 1, 0, 1, 0, 1, 0, 0, 1] := by
  decide
/-- R194: the examples of the rule; R33: an unimplemented register. -/
theorem test_rdReg_root : answerOf (exec (.rdReg 7) exampleState) = some (.ok, 0x80000004) := by decide
theorem test_rdReg_range : answerOf (exec (.rdReg 10) exampleState) = some (.range, 0) := by decide
/-- R195. -/
theorem test_rdFreq_key : answerOf (exec (.rdFreq 0x61) exampleState) = some (.ok, 4) := by decide +kernel
/-- R196. -/
theorem test_rdCodelen : answerOf (exec (.rdCodelen 0x63) exampleState) = some (.ok, 2) := by decide +kernel
/-- R197. -/
theorem test_rdCodebit : answerOf (exec (.rdCodebit 0x62 1) exampleState) = some (.ok, 1) := by decide +kernel
theorem test_rdCodebit_range : answerOf (exec (.rdCodebit 0x62 2) exampleState) = some (.range, 0) := by decide +kernel
/-- R198. -/
theorem test_rdNodeFreq : answerOf (exec (.rdNodeFreq 3) exampleState) = some (.ok, 3) := by decide
theorem test_rdNodeFreq_range : answerOf (exec (.rdNodeFreq 5) exampleState) = some (.range, 0) := by decide
/-- R199, R99. -/
theorem test_rdNodeLink_internal : answerOf (exec (.rdNodeLink 3) exampleState) = some (.ok, 0x40010002) := by decide
theorem test_rdNodeLink_synth : answerOf (exec (.rdNodeLink 1) zState) = some (.ok, 0x80000000) := by decide
/-- R200. -/
theorem test_rdBit : answerOf (exec (.rdBit 3) exampleState) = some (.ok, 1) := by decide
theorem test_rdBit_range : answerOf (exec (.rdBit 10) exampleState) = some (.range, 0) := by decide
/-- R201. -/
theorem test_rdSym : answerOf (exec (.rdSym 6) (exampleState.setSymOut exampleText)) = some (.ok, 0x63) := by decide
theorem test_rdSym_range : answerOf (exec (.rdSym 7) (exampleState.setSymOut exampleText)) = some (.range, 0) := by decide
/-- R232: an illegal word with `op == 0x1` does not reset anything. -/
theorem test_illegal_keeps_stream :
    (after (step (exampleState.withFetchWord 32 0x10000001))).bitBuf = exampleStream := by decide

/-! ### The units -/

/-- R132: the heap of the three leaves of R131 after each insertion. -/
theorem test_heapInsert :
    (siftUp exampleSession.node 1 [0, 1] 1) = some [1, 0] ∧ (siftUp exampleSession.node 2 [1, 0, 2] 2) = some [2, 0, 1] := by
  decide
/-- R133: the two extractions. -/
theorem test_heapExtractMin :
    removeRoot exampleSession.node [0, 1] = some [1, 0] ∧ removeRoot exampleSession.node [0] = some [0] := by decide
/-- R139, R155, R165: the text "aaaabbc". -/
theorem test_compress_nodes : (after (exec .compress (withText exampleText))).session.node =
    [.leaf 4 0x61, .leaf 2 0x62, .leaf 1 0x63, .internal 3 2 1, .internal 7 3 0] := by decide +kernel
/-- R140, R165: the text "abcc", a tie between a leaf and an internal node. -/
theorem test_compress_tie : (after (exec .compress (withText [0x61, 0x62, 0x63, 0x63]))).bitBuf = [1, 0, 1, 1, 0, 0] := by
  decide +kernel
/-- R171: the stream "1111010100" against the tree of "aaaabbc". -/
theorem test_decompress : (after (exec .decompress exampleState)).symOut = exampleText := by decide
/-- R174: the stream "0010" against the tree of "zzz". -/
theorem test_decompress_missing_child :
    answerOf (exec .decompress (zState.setBitBuf [0, 0, 1, 0])) = some (.badStream, 0) := by decide
/-- R175: the stream "10" ends inside a code. -/
theorem test_decompress_inside_code :
    answerOf (exec .decompress (exampleState.setBitBuf [1, 0])) = some (.badStream, 0) := by decide
/-- R162: a symbol missing from the table. -/
theorem test_encoder_no_code : encRun (exampleState.setSymIn [0x61, 0x7A]) =
    .raised .noCode ((exampleState.setSymIn [0x61, 0x7A]).setBitBuf []) := by
  have h1 : exampleSession.code.read 0x61 = [1] := by decide +kernel
  simp only [encRun, State.setBitBuf, State.setSymIn, encText, encSymbol, exampleState, State.setSession, h1]
  rfl

/-! ### The two built sessions -/

theorem test_keys_example : keys exampleSession.freq = [0x61, 0x62, 0x63] := by decide +kernel

theorem test_tree_example : TreeFor exampleSession.freq exampleSession.node exampleSession.root where
  nonempty := by rw [test_keys_example]; decide
  count := by rw [test_keys_example]; decide
  leaves := by
    rw [leavesOf, test_keys_example]
    decide +kernel
  inner := fun p n hp hn => by
    rw [test_keys_example] at hp
    have hlt : p < 5 := (List.getElem?_eq_some_iff.mp hn).1
    have h34 : p = 3 ∨ p = 4 := by simp at hp; omega
    rcases h34 with rfl | rfl
    · cases hn
      exact ⟨by rw [test_keys_example]; decide, by decide, by decide, by decide, 1, 2, rfl, rfl, rfl⟩
    · cases hn
      exact ⟨by rw [test_keys_example]; decide, by decide, by decide, by decide, 3, 4, rfl, rfl, rfl⟩
  owned := by decide
  root_last := by decide
  root_freq := by decide +kernel

theorem test_code_example (c : Symbol) : exampleSession.code.read c =
    if c = 0x63 then [0, 0] else if c = 0x62 then [0, 1] else if c = 0x61 then [1] else [] := by
  simp only [exampleSession, Table.read_write, emptyCode, Table.read_replicate]

theorem test_freq_example (c : Symbol) : exampleSession.freq.read c =
    if c = 0x63 then 1 else if c = 0x62 then 2 else if c = 0x61 then 4 else 0 := by
  simp only [exampleSession, Table.read_write, Table.read_replicate]

theorem test_built_example : exampleSession.Built where
  valid := rfl
  nsyms := by rw [countKeys, test_keys_example]; rfl
  tree := test_tree_example
  code :=
    { entry := fun c => by
        rw [test_code_example, test_freq_example]
        split_ifs <;> simp
      path := fun c hc => by
        rw [test_code_example] at hc ⊢
        split_ifs at hc ⊢ with h1 h2 h3
        · subst h1; exact ⟨2, 1, rfl, rfl⟩
        · subst h2; exact ⟨1, 2, rfl, rfl⟩
        · subst h3; exact ⟨0, 4, rfl, rfl⟩
        · exact absurd rfl hc }

theorem test_built_for_example : exampleSession.BuiltFor exampleText := by
  refine ⟨Table.ext_read fun c => ?_, test_built_example⟩
  rw [read_countText, test_freq_example]
  simp only [exampleText, List.count_cons, List.count_nil, beq_iff_eq, eq_comm (b := c)]
  split_ifs <;> simp_all

theorem test_inv_example : exampleState.Inv :=
  ⟨by decide, ⟨rfl, rfl, rfl⟩, .inr ⟨test_built_example, by decide +kernel⟩⟩

theorem test_keys_z : keys zSession.freq = [0x7A] := by decide +kernel

theorem test_built_z : zSession.Built where
  valid := rfl
  nsyms := by rw [countKeys, test_keys_z]; rfl
  tree :=
    { nonempty := by rw [test_keys_z]; decide
      count := by rw [test_keys_z]; decide
      leaves := by
        rw [leavesOf, test_keys_z]
        decide +kernel
      inner := fun p n hp hn => by
        rw [test_keys_z] at hp
        have hlt : p < 2 := (List.getElem?_eq_some_iff.mp hn).1
        obtain rfl : p = 1 := by simp at hp; omega
        cases hn
        exact ⟨by rw [test_keys_z]; decide, rfl, rfl⟩
      owned := by decide
      root_last := by decide
      root_freq := by decide +kernel }
  code :=
    { entry := fun c => by
        simp only [zSession, Table.read_write, emptyCode, Table.read_replicate]
        split_ifs <;> simp
      path := fun c hc => by
        simp only [zSession, Table.read_write, emptyCode, Table.read_replicate] at hc ⊢
        split_ifs at hc ⊢ with h
        · subst h; exact ⟨0, 3, rfl, rfl⟩
        · exact absurd rfl hc }

/-! ### Witnesses: for every statement with hypotheses, a concrete state and operands that meet them, clause by clause -/

theorem test_reset_inv : State.reset.Inv := ⟨by decide, ⟨rfl, rfl, rfl⟩, .inl rfl⟩

theorem test_witness_DecodeThenEncode :
    decode 0xFFFFFFFF = some (.rdSym 0xFFFFFFF) ∧ decode 0x00000000 = some .nop := by decide

theorem test_witness_WordSelectsAtMostOneRow :
    Mnemonic.rdReg.selects 0x8000000F ∧ Mnemonic.rdSym.selects 0xFFFFFFFF ∧ Mnemonic.nop.selects 0 := by decide

/-- The lowest and the highest reserved bit of a format. -/
theorem test_witness_IllegalExactlyWhenReservedBitSet :
    decode 0x80000010 = none ∧ decode 0x88000000 = none ∧
      (State.reset.setHost [.command 0x80000010]).host = .command 0x80000010 :: [] := by decide

theorem test_witness_StepRunsPresentedCommand :
    (State.reset.setHost [.command 0x30000061]).host = .command 0x30000061 :: [] ∧
      decode 0x30000061 = some (.symPush 0x61) := by decide

theorem test_witness_FetchWordRunsNext : decodeTableWord 32 0x80000007 = some (.rdReg 7) := by decide

theorem test_witness_ResetStateValues :
    (∃ t, exec .reset exampleState = .next t) ∧
      ((∃ rest, (exampleState.setHost [.rst]).host = .rst :: rest) ∧ ∃ t, step (exampleState.setHost [.rst]) = .next t) :=
  ⟨⟨_, rfl⟩, ⟨[], rfl⟩, ⟨_, rfl⟩⟩

theorem test_witness_NopChangesNothing : opField 0x00000001 = 0 ∧ opField 0x0FFFFFFF = 0 := by decide

theorem test_witness_ResetReachesResetState : (exampleState.setHost [.rst]).host = .rst :: [] ∧
    (State.reset.setBitBuf [1]).session = State.reset.session := ⟨rfl, rfl⟩

theorem test_witness_SymPushAppendsSymbol :
    ([1, 2] : List Symbol).length < tinyConfig.textCap ∧ ([1, 2, 3] : List Symbol).length = tinyConfig.textCap := by decide

theorem test_witness_BitPushAppendsBit :
    ([0] : List Bit).length < tinyConfig.bitCap ∧ ([0, 1] : List Bit).length = tinyConfig.bitCap := by decide

theorem test_witness_RdRegAnswersRegister : exampleState.session.treeValid = true ∧
    (State.reset.session.treeValid = false ∧ State.reset.Inv) ∧ 9 < (10 : BitVec 4).toNat ∧ 9 < (15 : BitVec 4).toNat ∧
    exampleState.session = exampleSession ∧ exampleState.bitBuf = exampleStream :=
  ⟨rfl, ⟨rfl, test_reset_inv⟩, by decide, by decide, rfl, rfl⟩

theorem test_witness_RdFreqAnswersCount : exampleState.Inv ∧ State.reset.session = Session.nothing ∧
    exampleState.session = exampleSession := ⟨test_inv_example, rfl, rfl⟩

theorem test_witness_RdCodelenAnswersLength : State.reset.session = Session.nothing ∧ exampleState.session = exampleSession :=
  ⟨rfl, rfl⟩

/-- The last bit of a code, and the position after it. -/
theorem test_witness_RdCodebitAnswersBit : (1 : BitVec 8).toNat < (exampleState.session.code.read 0x62).length ∧
    (exampleState.session.code.read 0x62).length ≤ (2 : BitVec 8).toNat ∧
    (exampleState.session.code.read 0x00).length ≤ (0 : BitVec 8).toNat := by decide +kernel

/-- The last record, and the index after it. -/
theorem test_witness_RdNodeFreqAnswersFrequency : (4 : NodeIx).toNat < exampleState.session.node.length ∧ exampleState.Inv ∧
    exampleState.session.node.length ≤ (5 : NodeIx).toNat ∧ State.reset.Inv ∧ State.reset.session.treeValid = false :=
  ⟨by decide, test_inv_example, by decide, ⟨by decide, ⟨rfl, rfl, rfl⟩, .inl rfl⟩, rfl⟩

theorem test_witness_RdNodeLinkAnswersLinkWord : exampleState.session.node[(2 : NodeIx).toNat]? = some (.leaf 1 0x63) ∧
    exampleState.session.node[(4 : NodeIx).toNat]? = some (.internal 7 3 0) ∧
    zState.session.node[(1 : NodeIx).toNat]? = some (.synth 3 0) ∧
    exampleState.session.node.length ≤ (5 : NodeIx).toNat := by decide

theorem test_witness_RdBitAnswersStreamBit : (9 : BitVec 28).toNat < exampleState.bitBuf.length ∧
    exampleState.bitBuf.length ≤ (10 : BitVec 28).toNat ∧ exampleState.bitBuf = exampleStream := by decide

theorem test_witness_RdSymAnswersDecodedSymbol : (6 : BitVec 28).toNat < (exampleState.setSymOut exampleText).symOut.length ∧
    (exampleState.setSymOut exampleText).symOut.length ≤ (7 : BitVec 28).toNat := by decide

theorem test_witness_ReadsHaveNoSideEffect : isRead (.rdBit 10) = true ∧ ∃ t, exec (.rdBit 10) exampleState = .next t :=
  ⟨rfl, _, rfl⟩

theorem test_witness_CompressEmptyText : exampleState.symIn = [] := rfl

/-- A non-empty text whose stream fits, and one whose stream does not: one bit more than the two of `tinyConfig`. -/
theorem test_witness_CompressBuildsAndEncodes : (withText exampleText).symIn ≠ [] ∧
    exampleSession.BuiltFor exampleText ∧ (codesOf exampleSession.code exampleText).length ≤ State.reset.cfg.bitCap ∧
    tinyConfig.bitCap < (codesOf exampleSession.code [0x61, 0x62]).length :=
  ⟨by decide, test_built_for_example, by decide +kernel, by decide +kernel⟩

/-- The empty text, and a text that just fits. -/
theorem test_witness_CompressCompletesWithinCapacity : State.reset.Idle ∧
    State.reset.symIn.length * max 1 ((keys (countText State.reset.symIn)).length - 1) ≤ State.reset.cfg.bitCap ∧
    ([0x7A, 0x7A] : List Symbol).length * max 1 ((keys (countText [0x7A, 0x7A])).length - 1) ≤ tinyConfig.bitCap :=
  ⟨⟨rfl, rfl, rfl⟩, by decide +kernel, by decide +kernel⟩

theorem test_witness_CompressExample : (withText exampleText).symIn = exampleText ∧ 10 ≤ (withText exampleText).cfg.bitCap :=
  ⟨rfl, by decide⟩

theorem test_compress_answers {s : State} (h : s.symIn ≠ []) : ∃ t, exec .compress s = .next t := by
  obtain ⟨node, root, code, _, _, he⟩ := compressUnits_spec h
  rw [exec, execCompress, he]
  split <;> exact ⟨_, rfl⟩

theorem test_witness_CompressIsFunctionOfText :
    (withText exampleText).symIn = (exampleState.setSymIn exampleText).symIn ∧
    (∃ t, exec .compress (withText exampleText) = .next t) ∧
    (∃ t, exec .compress (exampleState.setSymIn exampleText) = .next t) ∧
    (withText exampleText).cfg.bitCap = (exampleState.setSymIn exampleText).cfg.bitCap :=
  ⟨rfl, test_compress_answers (by decide), test_compress_answers (by decide), rfl⟩

theorem test_witness_CountsFitTheirWidth : exampleState.Inv ∧ (.internal 7 3 0) ∈ exampleState.session.node :=
  ⟨test_inv_example, by decide⟩

theorem test_witness_HeapKeepsOrderAndReturnsLeast : HeapIndices exampleSession.node [1, 0] ∧
    HeapOrdered exampleSession.node [1, 0] ∧ (2 : NodeIx).toNat < exampleSession.node.length ∧
    (2 : NodeIx) ∉ ([1, 0] : List NodeIx) ∧ ([1, 0] : List NodeIx) ≠ [] := by
  refine ⟨⟨by decide, by decide⟩, fun k h1 h2 => ?_, by decide, by decide, by decide⟩
  obtain rfl : k = 1 := by simp at h2; omega
  decide

theorem test_witness_HeapBuilderEqualsMinimumSelection : keys exampleState.session.freq ≠ [] ∧
    keys zState.session.freq ≠ [] :=
  ⟨by rw [show exampleState.session.freq = exampleSession.freq from rfl, test_keys_example]; decide,
    by rw [show zState.session.freq = zSession.freq from rfl, test_keys_z]; decide⟩

theorem test_witness_EmptyTableRefused : ∀ c, State.reset.session.freq.read c = 0 := fun _ => Table.read_replicate _ _

theorem test_witness_CodeTableInvariants : (exampleState.Inv ∧ exampleState.session.treeValid = true ∧
      2 ≤ exampleState.session.nsyms.toNat ∧ exampleState.session.code.read 0x62 ≠ [] ∧
      exampleState.session.code.read 0x63 ≠ []) ∧
    (zState.session.nsyms = 1 ∧ zState.session.code.read 0x7A ≠ []) ∧
    (State.reset.Inv ∧ State.reset.session.treeValid = false) :=
  ⟨⟨test_inv_example, rfl, by decide, by decide +kernel, by decide +kernel⟩, ⟨rfl, by decide +kernel⟩, test_reset_inv, rfl⟩

theorem test_witness_CodeIsTheOnlyPath : exampleSession.Built ∧ PathTo exampleSession.node exampleSession.root 0x63 [0, 0] :=
  ⟨test_built_example, 2, 1, rfl, rfl⟩

/-- The example's table lacks 'z'. The text before it fits the default capacity, and is one bit over that of `tinyConfig`. -/
theorem test_witness_EncoderTestsInOrder : (∀ d ∈ ([0x62, 0x61] : List Symbol), exampleSession.code.read d ≠ []) ∧
    exampleSession.code.read 0x7A = [] ∧ (codesOf exampleSession.code [0x62, 0x61]).length ≤ State.reset.cfg.bitCap ∧
    tinyConfig.bitCap < (codesOf exampleSession.code [0x62, 0x61]).length := by decide +kernel

theorem test_witness_DecompressGuard : State.reset.session.treeValid = false ∧ (zState.setBitBuf []).bitBuf = [] := ⟨rfl, rfl⟩

theorem test_witness_DecompressCodes : exampleState.session.Built ∧ exampleState.walk = none ∧
    (∀ c ∈ exampleText, exampleState.session.freq.read c ≠ 0) ∧
    exampleState.bitBuf = codesOf exampleState.session.code exampleText :=
  ⟨test_built_example, rfl, by decide +kernel, by decide +kernel⟩

theorem test_witness_DecompressAcceptsExactlyCodes : exampleState.session.Built ∧ exampleState.walk = none :=
  ⟨test_built_example, rfl⟩

theorem test_witness_MissingRightChildIsBadStream : zSession.Built ∧ zSession.nsyms = 1 ∧ zState.walk = none ∧
    (1 : Bit) ∈ (zState.setBitBuf [0, 0, 1, 0]).bitBuf := ⟨test_built_z, rfl, rfl, by decide⟩

theorem test_witness_StreamEndingInsideCodeIsBadStream : exampleState.walk = none ∧ exampleState.session.Built ∧
    (∀ d ∈ ([0x61] : List Symbol), exampleState.session.freq.read d ≠ 0) ∧
    exampleState.session.code.read 0x62 = [0] ++ [1] ∧
    [1, 0] = codesOf exampleState.session.code [0x61] ++ [0] :=
  ⟨rfl, test_built_example, by decide +kernel, by decide +kernel, by decide +kernel⟩

theorem test_witness_RoundTrip : (withText exampleText).symIn ≠ [] ∧
    answerOf (exec .compress (withText exampleText)) = some (.ok, 10) := ⟨by decide, by decide +kernel⟩

theorem test_witness_DecoderTransitionTable :
    (exampleState.setWalk (some ⟨4, .atRoot, 0⟩)).walk = some ⟨4, .atRoot, 0⟩ ∧ exampleState.bitBuf[0]? = some 1 ∧
    nodeAt? exampleSession.node 4 = some (.internal 7 3 0) ∧ nodeAt? exampleSession.node 0 = some (.leaf 4 0x61) ∧
    nodeAt? exampleSession.node 3 = some (.internal 3 2 1) ∧ nodeAt? zSession.node 1 = some (.synth 3 0) ∧
    nodeAt? zSession.node 0 = some (.leaf 3 0x7A) ∧ zState.bitBuf[0]? = some 0 := by decide

theorem test_witness_StepKeepsInvariant : exampleState.Inv ∧ ∃ t, step exampleState = .next t :=
  ⟨test_inv_example, _, rfl⟩

theorem test_witness_LastErrAfterEveryStep :
    answerOf (step (exampleState.setHost [.command 0x80000010])) = some (.illegalCmd, 0) ∧
    answerOf (step (exampleState.setHost [.command 0x80000006])) = some (.ok, 5) ∧
    answerOf (step (exampleState.setHost [.command 0x10000000])) = some (.ok, 0) ∧
    ∃ t, step (exampleState.setHost [.rst]) = .next t := ⟨by decide, by decide, by decide +kernel, _, rfl⟩

theorem test_witness_TreeInvariants : ((withText exampleText).symIn ≠ [] ∧ ∃ t, exec .compress (withText exampleText) = .next t) ∧
    (State.reset.symIn = [] ∧ ∃ t, exec .compress State.reset = .next t) ∧ (∃ t, exec .reset exampleState = .next t) ∧
    ∃ t, exec .symClr exampleState = .next t :=
  ⟨⟨by decide, test_compress_answers (by decide)⟩, ⟨rfl, _, rfl⟩, ⟨_, rfl⟩, _, rfl⟩

theorem test_witness_StreamLength : (withText exampleText).symIn ≠ [] ∧
    answerOf (exec .compress (withText exampleText)) = some (.ok, 10) := test_witness_RoundTrip

/-- The fixed 8-bit code of R164. -/
def fixedCode (c : Symbol) : List Bit := (List.range 8).map fun k => c.extractLsb' k 1

theorem test_fixedCode_free {c d : Symbol} (h : c ≠ d) : ¬ fixedCode c <+: fixedCode d := by
  intro hp
  have he := List.map_inj_left.mp (hp.eq_of_length (by simp [fixedCode]))
  refine h (BitVec.eq_of_getLsbD_eq fun i hi => ?_)
  simpa using congrArg (fun v : Bit => v.getLsbD 0) (he i (List.mem_range.mpr hi))

/-- The cost of the worked example is the 10 bits of its stream (R155, R165), below the 56 of the fixed code. -/
theorem test_codeCost_example : codeCost exampleSession.freq exampleSession.code.read = 10 ∧
    codeCost exampleSession.freq fixedCode = 56 := by decide +kernel

theorem test_witness_CodeIsOptimal : (withText exampleText).symIn ≠ [] ∧
    (∃ t, exec .compress (withText exampleText) = .next t ∧ PrefixCodeFor t.session.freq fixedCode) ∧
    8 * (withText exampleText).symIn.length ≤ (withText exampleText).cfg.bitCap := by
  obtain ⟨t, ht⟩ := test_compress_answers (s := withText exampleText) (by decide)
  exact ⟨by decide, ⟨t, ht, fun c _ => by simp [fixedCode], fun c d _ _ h => test_fixedCode_free h⟩, by decide⟩

theorem test_witness_StatusesOfEachCommand : ∃ t, exec (.rdBit 10) exampleState = .next t := ⟨_, rfl⟩

theorem test_witness_SessionChangedOnlyByCompressAndReset : Instr.symClr ≠ .compress ∧ Instr.symClr ≠ .reset ∧
    ∃ t, exec .symClr exampleState = .next t := ⟨by decide, by decide, _, rfl⟩

theorem test_witness_ErrorIsNotSticky : Instr.decompress ≠ .rdReg 1 ∧ answerOf (exec .decompress exampleState) = some (.ok, 7) := by
  decide

theorem test_witness_StepTakesOneHostAction : ∃ t, step (exampleState.setHost [.rst, .rst]) = .next t := ⟨_, rfl⟩

/-- The least and the greatest legal values, and one step beyond a bound. -/
theorem test_witness_IllegalConfigurationRefused : (Config.ofNats? 1 1 1).isSome = true ∧
    (Config.ofNats? 32 (2 ^ 28) (2 ^ 28)).isSome = true ∧ Config.ofNats? 32 (2 ^ 28 + 1) 1 = none ∧
    Config.ofNats? 33 1 1 = none ∧ Config.ofNats? 4 15 0 = none ∧ (Config.ofNats? 4 15 1).isSome = true := by decide

theorem test_witness_LoadTextLoads : ([1, 2, 3] : List Symbol).length ≤ tinyConfig.textCap := by decide

/-- The text "zz" through the wrapper: a result, not an error. -/
theorem test_witness_WrapperRoundTrip : State.reset.Inv ∧
    (compressOp [0x7A, 0x7A] State.reset).map Prod.fst = some (.value [0x30, 0x30]) :=
  ⟨test_reset_inv, by decide +kernel⟩

end Sys2Proof.Tests
end

section
/-! The configuration check of R7 (spec/00_scope.md). -/

namespace Sys2Proof

/-- The nested constraints of `ConfigLegal` as the flat list in which R7 states them. -/
theorem configLegal_iff {cntW textCap bitCap : Nat} : ConfigLegal cntW textCap bitCap ↔
    1 ≤ cntW ∧ cntW ≤ 32 ∧ 1 ≤ textCap ∧ textCap ≤ 2 ^ cntW - 1 ∧ textCap ≤ 2 ^ 28 ∧ 1 ≤ bitCap ∧ bitCap ≤ 2 ^ 28 := by
  simp only [ConfigLegal, and_assoc]

theorem Config.ofNats?_of_legal {cntW textCap bitCap : Nat} (h : ConfigLegal cntW textCap bitCap) :
    Config.ofNats? cntW textCap bitCap = some ⟨cntW, textCap, bitCap, h⟩ :=
  dif_pos h

theorem Config.ofNats?_of_not_legal {cntW textCap bitCap : Nat} (h : ¬ ConfigLegal cntW textCap bitCap) :
    Config.ofNats? cntW textCap bitCap = none :=
  dif_neg h

/-- Settles O56: the check of `Config.ofNats?` is the conjunction of R7's constraints. -/
theorem illegalConfigurationRefused : Obligations.IllegalConfigurationRefused := by
  intro cntW textCap bitCap
  rw [← configLegal_iff]
  constructor
  · intro legal
    exact ⟨_, Config.ofNats?_of_legal legal, rfl, rfl, rfl⟩
  · exact Config.ofNats?_of_not_legal

end Sys2Proof
end

section
/-! What a command that answers has done (spec/45_host_commands.md rule R185), said once: its effect on the state, then its
end. The statements about steps are read off these two relations. -/

namespace Sys2Proof.Machine

/-! ### The end of a command -/

/-- The two ends of a command (R185) from the state `u` its work has left. -/
inductive EndsAs (u : State) : State → Prop
  | ok (d : Word) : EndsAs u (u.setRsp (some ⟨.ok, d⟩))
  | error (e : Status) (he : e ≠ .ok) : EndsAs u ((u.setLastErr e).setRsp (some ⟨e, 0⟩))

namespace EndsAs
variable {u t : State}

theorem session_eq (h : EndsAs u t) : t.session = u.session := by cases h <;> rfl
theorem cfg_eq (h : EndsAs u t) : t.cfg = u.cfg := by cases h <;> rfl
theorem host_eq (h : EndsAs u t) : t.host = u.host := by cases h <;> rfl

/-- The response, and LAST_ERR with it (R32, R97). -/
theorem response (h : EndsAs u t) : ∃ r, t.rsp = some r ∧ (r.status ≠ .ok → r.data = 0 ∧ t.lastErr = r.status) ∧
    (r.status = .ok → t.lastErr = u.lastErr) := by
  cases h with
  | ok d => exact ⟨_, rfl, fun hne => absurd rfl hne, fun _ => rfl⟩
  | error e he => exact ⟨_, rfl, fun _ => ⟨rfl, rfl⟩, fun hok => absurd hok he⟩

/-- The end of a command writes nothing that the invariant speaks of. -/
theorem inv (h : EndsAs u t) (hu : u.Inv) : t.Inv := by
  obtain ⟨hmem, hidle, hses⟩ := hu
  cases h <;> exact ⟨hmem, hidle, hses⟩

end EndsAs

theorem endsAs_respond (d : Word) (u : State) : ∃ t, respond d u = .next t ∧ EndsAs u t := ⟨_, rfl, .ok d⟩

theorem endsAs_raise {e : Status} (he : e ≠ .ok) (u : State) : ∃ t, raise e u = .next t ∧ EndsAs u t :=
  ⟨_, rfl, .error e he⟩

theorem endsAs_answer (v : Option Word) (u : State) : ∃ t, answer v u = .next t ∧ EndsAs u t := by
  cases v with
  | none => exact endsAs_raise (by decide) u
  | some d => exact endsAs_respond d u

/-! ### The effect of a command -/

/-- What a command has done to the state when its end is reached. -/
inductive Effect (s : State) : Instr → State → Prop
  /-- `NOP`, a read, or a refused push. -/
  | unchanged {i : Instr} (hc : i ≠ .compress) (hr : i ≠ .reset) : Effect s i s
  | reset : Effect s .reset (resetState s)
  | symClr : Effect s .symClr (s.setSymIn [])
  | symPush (v : Symbol) (hroom : s.symIn.length < s.cfg.textCap) : Effect s (.symPush v) (s.setSymIn (s.symIn ++ [v]))
  | bitClr : Effect s .bitClr (s.setBitBuf [])
  | bitPush (b : Bit) (hroom : s.bitBuf.length < s.cfg.bitCap) : Effect s (.bitPush b) (s.setBitBuf (s.bitBuf ++ [b]))
  | compressEmpty (hnil : s.symIn = []) : Effect s .compress ((s.setSession Session.nothing).setBitBuf [])
  | compressText (x : Session) (bits : List Bit) (hx : x.BuiltFor s.symIn) (hbits : bits.length ≤ s.cfg.bitCap) :
      Effect s .compress ((s.withBuilt x).setBitBuf bits)
  /-- The bound and the idle walk need a session in one of its two conditions (R41). -/
  | decompress (out : List Symbol) (w : Option Walk)
      (hout : s.session.Wf s.cfg → s.walk = none → out.length ≤ s.bitBuf.length ∧ w = none) :
      Effect s .decompress ((s.setSymOut out).setWalk w)

/-- The command answers, and its next state is that of an effect and an end. -/
def Completes (i : Instr) (s : State) : Prop := ∃ u t, Effect s i u ∧ EndsAs u t ∧ exec i s = .next t

section completes
variable {i : Instr} {s u : State} (hu : Effect s i u)
include hu

theorem Effect.completes_respond {d : Word} (he : exec i s = respond d u) : Completes i s := by
  obtain ⟨t, ht, hend⟩ := endsAs_respond d u
  exact ⟨u, t, hu, hend, he.trans ht⟩

theorem Effect.completes_raise {e : Status} (hne : e ≠ .ok) (he : exec i s = raise e u) : Completes i s := by
  obtain ⟨t, ht, hend⟩ := endsAs_raise hne u
  exact ⟨u, t, hu, hend, he.trans ht⟩

theorem Effect.completes_answer {v : Option Word} (he : exec i s = answer v u) : Completes i s := by
  obtain ⟨t, ht, hend⟩ := endsAs_answer v u
  exact ⟨u, t, hu, hend, he.trans ht⟩

end completes

theorem completes_symPush (v : Symbol) (s : State) : Completes (.symPush v) s := by
  rcases execSymPush_cases v s with ⟨hroom, he⟩ | ⟨_, he⟩
  · exact (Effect.symPush v hroom).completes_respond he
  · exact (Effect.unchanged (by simp) (by simp)).completes_raise (by decide) he

theorem completes_bitPush (b : Bit) (s : State) : Completes (.bitPush b) s := by
  rcases execBitPush_cases b s with ⟨hroom, he⟩ | ⟨_, he⟩
  · exact (Effect.bitPush b hroom).completes_respond he
  · exact (Effect.unchanged (by simp) (by simp)).completes_raise (by decide) he

/-- `COMPRESS` (R192): whether the stream fits or not, the session is built for the text. -/
theorem completes_compress (s : State) : Completes .compress s := by
  by_cases hnil : s.symIn = []
  · exact (Effect.compressEmpty hnil).completes_respond (by rw [exec, execCompress, compressUnits_nil hnil, UnitEnd.finish])
  obtain ⟨node, root, code, htree, hcode, hunits⟩ := compressUnits_spec hnil
  have hx := builtSession_builtFor htree hcode
  by_cases hfit : (codesOf code s.symIn).length ≤ s.cfg.bitCap
  · exact (Effect.compressText _ _ hx hfit).completes_respond
      (by rw [exec, execCompress, hunits, if_pos hfit, UnitEnd.finish])
  · refine (Effect.compressText _ [] hx (Nat.zero_le _)).completes_raise (e := .capacity) (by decide) ?_
    rw [exec, execCompress, hunits, if_neg hfit]
    rfl

theorem Session.Wf.built {cfg : Config} {x : Session} (h : x.Wf cfg) (hv : x.treeValid = true) : x.Built := by
  rcases h with rfl | ⟨hb, _⟩
  · cases hv
  · exact hb

theorem Session.Wf.eq_nothing {cfg : Config} {x : Session} (h : x.Wf cfg) (hv : x.treeValid = false) :
    x = Session.nothing := by
  rcases h with h | ⟨hb, _⟩
  · exact h
  · exact absurd (hb.valid.symm.trans hv) (by decide)

/-- The units of `DECOMPRESS` on a session in one of its two conditions (R41): they end with a text no longer than the
stream. -/
theorem decompressUnits_of_wf {s : State} (hs : s.session.Wf s.cfg) (hw : s.walk = none) :
    ∃ out, out.length ≤ s.bitBuf.length ∧ (decompressUnits (s.setSymOut []) = .done (s.setSymOut out) ∨
      decompressUnits (s.setSymOut []) = .raised .badStream (s.setSymOut out)) := by
  have hidle (out : List Symbol) : ((s.setSymOut []).setSymOut out).setWalk none = s.setSymOut out := by
    rw [← hw]; rfl
  by_cases hguard : s.session.treeValid = false ∨ s.bitBuf = []
  · exact ⟨[], Nat.zero_le _, .inl (decompressUnits_guard hguard)⟩
  obtain ⟨hv, hb⟩ := not_or.mp hguard
  have hv : s.session.treeValid = true := by simpa using hv
  rw [decompressUnits_run (s := s.setSymOut []) hv hb]
  rcases decRun_any (s := s.setSymOut []) (hs.built hv).tree with ⟨out, he, hlen⟩ | he
  · exact ⟨out, hlen, .inl (by rw [he, hidle])⟩
  · exact ⟨[], Nat.zero_le _, .inr (by rw [he, hidle])⟩

theorem completes_decompress {s : State} (hs : s.session.Wf s.cfg) (hw : s.walk = none) : Completes .decompress s := by
  obtain ⟨out, hlen, hunits⟩ := decompressUnits_of_wf hs hw
  have heff : Effect s .decompress (s.setSymOut out) := by
    exact Effect.decompress out s.walk fun _ hw => ⟨hlen, hw⟩
  rcases hunits with he | he
  · exact heff.completes_respond (by rw [exec, execDecompress, he, UnitEnd.finish])
  · exact heff.completes_raise (e := .badStream) (by decide) (by rw [exec, execDecompress, he, UnitEnd.finish])

/-- Every command but `DECOMPRESS` completes from any state at all. -/
theorem completes_of_ne_decompress {i : Instr} (hi : i ≠ .decompress) (s : State) : Completes i s := by
  cases i with
  | reset => exact Effect.reset.completes_respond rfl
  | symClr => exact Effect.symClr.completes_respond rfl
  | symPush v => exact completes_symPush v s
  | bitClr => exact Effect.bitClr.completes_respond rfl
  | bitPush b => exact completes_bitPush b s
  | compress => exact completes_compress s
  | decompress => exact absurd rfl hi
  | nop | rdFreq | rdCodelen => exact (Effect.unchanged (by simp) (by simp)).completes_respond rfl
  | rdReg | rdCodebit | rdNodeFreq | rdNodeLink | rdBit | rdSym =>
    exact (Effect.unchanged (by simp) (by simp)).completes_answer rfl

/-- With the session in one of its two conditions and the walk idle every command completes (R230). -/
theorem completes_of_wf (i : Instr) {s : State} (hs : s.session.Wf s.cfg) (hw : s.walk = none) : Completes i s := by
  by_cases hi : i = .decompress
  · exact hi ▸ completes_decompress hs hw
  · exact completes_of_ne_decompress hi s

/-- The effect and the end of a command that completes. -/
theorem Completes.effect {i : Instr} {s t : State} (hc : Completes i s) (h : exec i s = .next t) :
    ∃ u, Effect s i u ∧ EndsAs u t := by
  obtain ⟨u, t', hu, ht, he⟩ := hc
  cases he.symm.trans h
  exact ⟨u, hu, ht⟩

/-- `DECOMPRESS` from any state (R170): it writes the decoded text and the walk registers only. -/
theorem exec_decompress_effect {s t : State} (h : exec .decompress s = .next t) :
    ∃ u, Effect s .decompress u ∧ EndsAs u t := by
  by_cases hs : s.session.Wf s.cfg ∧ s.walk = none
  · exact (completes_decompress hs.1 hs.2).effect h
  have heff (out : List Symbol) (w : Option Walk) := Effect.decompress (s := s) out w fun h1 h2 => absurd ⟨h1, h2⟩ hs
  have hfrom := decodesFrom_decompressUnits (s.setSymOut [])
  rw [exec, execDecompress] at h
  cases hunits : decompressUnits (s.setSymOut []) with rw [hunits] at h hfrom
  | done u =>
    obtain ⟨out, w, rfl⟩ := hfrom
    cases h
    exact ⟨_, heff out w, .ok _⟩
  | raised e u =>
    obtain ⟨rfl, _, out, w, rfl⟩ := hfrom
    cases h
    exact ⟨_, heff out w, .error _ (by decide)⟩
  | fault f => cases h
  | refused r => cases h

/-- A command that answers has an effect and an end: what `exec` can do, from any state. -/
theorem exec_effect {i : Instr} {s t : State} (h : exec i s = .next t) : ∃ u, Effect s i u ∧ EndsAs u t := by
  by_cases hi : i = .decompress
  · subst hi
    exact exec_decompress_effect h
  · exact (completes_of_ne_decompress hi s).effect h

namespace Effect
variable {i : Instr} {s u : State}

theorem cfg_eq (h : Effect s i u) : u.cfg = s.cfg := by cases h <;> rfl
theorem host_eq (h : Effect s i u) : u.host = s.host := by cases h <;> rfl

/-- Only `RESET` clears LAST_ERR before the end of a command (R32). -/
theorem lastErr_eq (h : Effect s i u) (hr : i ≠ .reset) : u.lastErr = s.lastErr := by
  cases h with
  | reset => exact absurd rfl hr
  | _ => rfl

theorem lastErr_of_reset (h : Effect s .reset u) : u.lastErr = .ok := by
  cases h with
  | unchanged _ hr => exact absurd rfl hr
  | reset => rfl

/-- Only `COMPRESS` and `RESET` write the session (R41, R71). -/
theorem session_eq (h : Effect s i u) (hc : i ≠ .compress) (hr : i ≠ .reset) : u.session = s.session := by
  cases h with
  | reset => exact absurd rfl hr
  | compressEmpty | compressText => exact absurd rfl hc
  | _ => rfl

/-- `COMPRESS` of a non-empty text builds the session for it (R192). -/
theorem builtFor_of_compress (h : Effect s .compress u) (hne : s.symIn ≠ []) : u.session.BuiltFor s.symIn := by
  cases h with
  | unchanged hc _ => exact absurd rfl hc
  | compressEmpty hnil => exact absurd hnil hne
  | compressText x bits hx _ => exact hx

/-- `COMPRESS` of the empty text leaves nothing built (R192 (a)). -/
theorem nothing_of_compress (h : Effect s .compress u) (hnil : s.symIn = []) : u.session = Session.nothing := by
  cases h with
  | unchanged hc _ => exact absurd rfl hc
  | compressEmpty => rfl
  | compressText x bits hx _ =>
    rw [hnil] at hx
    exact absurd (hx.1 ▸ hx.2.tree.nonempty) (by simp [countText_nil, keys_replicate_zero])

theorem nothing_of_reset (h : Effect s .reset u) : u.session = Session.nothing := by
  cases h with
  | unchanged _ hr => exact absurd rfl hr
  | reset => rfl

end Effect

/-- Settles O52, by the effect of the command. -/
theorem sessionChangedOnlyByCompressAndReset : Obligations.SessionChangedOnlyByCompressAndReset := by
  intro i s t hc hr h
  obtain ⟨u, hu, ht⟩ := exec_effect h
  exact ht.session_eq.trans (hu.session_eq hc hr)

end Sys2Proof.Machine
end

section
/-! One step (spec/30_encoding.md rule R106, spec/45_host_commands.md rule R185): which host action it takes, and what it
does with it. -/

namespace Sys2Proof.Machine

/-- What a presented word has done to the state when the end of its command is reached. -/
inductive WordEffect (s : State) (w : Word) : State → Prop
  | illegal (hd : decode w = none) : WordEffect s w s
  | legal (i : Instr) (u : State) (hd : decode w = some i) (heff : Effect s i u) : WordEffect s w u

theorem runWord_effect {w : Word} {s t : State} (h : runWord w s = .next t) : ∃ u, WordEffect s w u ∧ EndsAs u t := by
  unfold runWord at h
  split at h
  · obtain ⟨u, hu, ht⟩ := exec_effect h
    exact ⟨u, .legal _ u ‹_› hu, ht⟩
  · cases h
    exact ⟨s, .illegal ‹_›, .error .illegalCmd (by decide)⟩

theorem runWord_answers {s : State} (hs : s.session.Wf s.cfg) (hw : s.walk = none) (w : Word) : Answers (runWord w s) := by
  unfold runWord
  split
  · obtain ⟨_, t, _, _, he⟩ := completes_of_wf ‹Instr› hs hw
    exact ⟨t, he⟩
  · exact ⟨_, rfl⟩

section
variable {s : State} {rest : List HostAction}

theorem step_of_host_nil (h : s.host = []) : step s = .next (s.setRsp none) := by
  rw [step, takeAction, h]
  rfl

theorem step_of_host_rst (h : s.host = .rst :: rest) : step s = .next (resetState (s.setHost rest)) := by
  rw [step, takeAction, h]
  rfl

theorem step_of_host_command {w : Word} (h : s.host = .command w :: rest) : step s = runWord w (s.setHost rest) := by
  rw [step, takeAction, h]

end

/-- What a step that answers has done: stayed idle, taken a reset, or carried out a word. -/
inductive Stepped (s : State) : State → Prop
  | idle (hhost : s.host = []) : Stepped s (s.setRsp none)
  | rst (rest : List HostAction) (hhost : s.host = .rst :: rest) : Stepped s (resetState (s.setHost rest))
  | command (w : Word) (rest : List HostAction) (u t : State) (hhost : s.host = .command w :: rest)
      (hword : WordEffect (s.setHost rest) w u) (hend : EndsAs u t) : Stepped s t

theorem step_stepped {s t : State} (h : step s = .next t) : Stepped s t := by
  rcases hhost : s.host with _ | ⟨w | _, rest⟩
  · cases (step_of_host_nil hhost).symm.trans h
    exact .idle hhost
  · obtain ⟨u, hword, hend⟩ := runWord_effect ((step_of_host_command hhost).symm.trans h)
    exact .command w rest u t hhost hword hend
  · cases (step_of_host_rst hhost).symm.trans h
    exact .rst rest hhost

namespace WordEffect
variable {s u : State} {w : Word}

theorem cfg_eq (h : WordEffect s w u) : u.cfg = s.cfg := by
  cases h with
  | illegal => rfl
  | legal i _ _ heff => exact heff.cfg_eq

theorem host_eq (h : WordEffect s w u) : u.host = s.host := by
  cases h with
  | illegal => rfl
  | legal i _ _ heff => exact heff.host_eq

theorem lastErr_eq (h : WordEffect s w u) (hr : decode w ≠ some .reset) : u.lastErr = s.lastErr := by
  cases h with
  | illegal => rfl
  | legal i _ hd heff => exact heff.lastErr_eq fun hi => hr (hi ▸ hd)

end WordEffect

/-- Settles O55, by the case of the step. -/
theorem stepTakesOneHostAction : Obligations.StepTakesOneHostAction := by
  intro s t h
  cases step_stepped h with
  | idle hhost => exact ⟨rfl, by simp [hhost]⟩
  | rst rest hhost => exact ⟨rfl, by simp [hhost]⟩
  | command w rest u _ hhost hword hend =>
    exact ⟨hend.cfg_eq.trans hword.cfg_eq, by rw [hend.host_eq, hword.host_eq, hhost]; rfl⟩

/-- `RESET` ends `OK` (R187), so that LAST_ERR is cleared after its end too. -/
theorem lastErr_of_exec_reset {s t : State} (h : exec .reset s = .next t) : t.lastErr = .ok := by
  cases h
  rfl

/-- Settles O50: the end of a command gives the response, and LAST_ERR is that of its effect unless the end raises an
error. -/
theorem lastErrAfterEveryStep : Obligations.LastErrAfterEveryStep := by
  intro s t h
  refine ⟨fun w rest hhost => ?_, fun rest hhost => ?_⟩
  · have hrun := (step_of_host_command hhost).symm.trans h
    obtain ⟨u, hword, hend⟩ := runWord_effect hrun
    obtain ⟨r, hr, herr, hok⟩ := hend.response
    refine ⟨r, hr, herr, fun hs hd => (hok hs).trans (hword.lastErr_eq hd), fun hd => ?_⟩
    rw [runWord, hd] at hrun
    exact lastErr_of_exec_reset hrun
  · cases (step_of_host_rst hhost).symm.trans h
    exact ⟨rfl, rfl⟩

end Sys2Proof.Machine
end

section
/-! The invariant of the machine (spec/10_state.md rules R20, R41 to R43): it holds at reset, and every step keeps it. -/

namespace Sys2Proof.Machine

/-- The counts of a text sum to its length (R124). -/
theorem freqSum_countText (text : List Symbol) : freqSum (countText text) = text.length := by
  have hall : ∀ c ∈ (text : Multiset Symbol), c ∈ allSymbols.toFinset := fun c _ =>
    List.mem_toFinset.mpr (mem_allSymbols c)
  have hread : (countText text).read = fun c => (text : Multiset Symbol).count c := funext fun c => by
    rw [read_countText, Multiset.coe_count]
  rw [freqSum, hread, ← List.sum_toFinset _ nodup_allSymbols, Multiset.sum_count_eq_card hall, Multiset.coe_card]

theorem inv_resetState (s : State) : (resetState s).Inv := ⟨memory_wf_resetState s, ⟨rfl, rfl, rfl⟩, .inl rfl⟩

namespace State.Inv
variable {s : State} (h : s.Inv)
include h

theorem setRsp (r : Option Response) : (s.setRsp r).Inv := ⟨memory_wf_setRsp h.memory r, h.idle, h.session⟩

theorem setHost (l : List HostAction) : (s.setHost l).Inv := ⟨memory_wf_setHost h.memory l, h.idle, h.session⟩

theorem setSymIn {l : List Symbol} (hl : l.length ≤ s.cfg.textCap) : (s.setSymIn l).Inv :=
  ⟨⟨hl, h.memory.2⟩, h.idle, h.session⟩

theorem setBitBuf {l : List Bit} (hl : l.length ≤ s.cfg.bitCap) : (s.setBitBuf l).Inv :=
  ⟨memory_wf_setBitBuf h.memory hl, h.idle, h.session⟩

theorem setSymOut {l : List Symbol} (hl : l.length ≤ s.cfg.bitCap) : (s.setSymOut l).Inv :=
  ⟨memory_wf_setSymOut h.memory hl, h.idle, h.session⟩

theorem setNothing : (s.setSession Session.nothing).Inv :=
  ⟨memory_wf_setSession h.memory (by decide), h.idle, .inl rfl⟩

/-- A session built for the text has at most TEXT_CAP symbols to count, and at most 511 nodes (R24, R26 (g)). -/
theorem withBuilt {x : Session} (hx : x.BuiltFor s.symIn) : (s.withBuilt x).Inv := by
  obtain ⟨hfreq, hbuilt⟩ := hx
  have hnode : x.node.length < nodeCap := Nat.lt_succ_of_le hbuilt.tree.length_le
  have hsum : freqSum x.freq ≤ s.cfg.textCap := by rw [hfreq, freqSum_countText]; exact h.memory.1
  obtain ⟨_, _, hwalk⟩ := h.idle
  exact ⟨memory_wf_withBuilt h.memory hnode, ⟨rfl, rfl, hwalk⟩, .inr ⟨hbuilt, hsum⟩⟩

end State.Inv

/-- The effect of a command keeps the invariant. -/
theorem Effect.inv {i : Instr} {s u : State} (he : Effect s i u) (h : s.Inv) : u.Inv := by
  cases he with
  | unchanged => exact h
  | reset => exact inv_resetState s
  | symClr => exact h.setSymIn (Nat.zero_le _)
  | symPush v hroom => exact h.setSymIn (by simpa using hroom)
  | bitClr => exact h.setBitBuf (Nat.zero_le _)
  | bitPush b hroom => exact h.setBitBuf (by simpa using hroom)
  | compressEmpty => exact h.setNothing.setBitBuf (Nat.zero_le _)
  | compressText x bits hx hbits => exact (h.withBuilt hx).setBitBuf hbits
  | decompress out w hout =>
    obtain ⟨hheap, hstack, hwalk⟩ := h.idle
    obtain ⟨hlen, rfl⟩ := hout h.session hwalk
    obtain ⟨_, hbits, _⟩ := h.memory
    have hset := h.setSymOut (hlen.trans hbits)
    exact ⟨hset.memory, ⟨hheap, hstack, rfl⟩, hset.session⟩

theorem WordEffect.inv {s u : State} {w : Word} (he : WordEffect s w u) (h : s.Inv) : u.Inv := by
  cases he with
  | illegal => exact h
  | legal i _ _ heff => exact heff.inv h

/-- Settles O47. -/
theorem invariantAtReset : Obligations.InvariantAtReset := inv_resetState State.reset

/-- Settles O48, by the case of the step: a reset leaves the reset state, and neither the effect of a word nor the end of its
command breaks the invariant. -/
theorem stepKeepsInvariant : Obligations.StepKeepsInvariant := by
  intro s t hinv h
  cases step_stepped h with
  | idle => exact hinv.setRsp none
  | rst rest => exact inv_resetState _
  | command w rest u _ _ hword hend => exact hend.inv (hword.inv (hinv.setHost rest))

/-- With the session in one of its two conditions and the walk idle the block answers whatever the host does (R230). -/
theorem step_answers {s : State} (hs : s.session.Wf s.cfg) (hw : s.walk = none) : Answers (step s) := by
  rcases hhost : s.host with _ | ⟨w | _, rest⟩
  · exact ⟨_, step_of_host_nil hhost⟩
  · rw [step_of_host_command hhost]
    exact runWord_answers (s := s.setHost rest) hs hw w
  · exact ⟨_, step_of_host_rst hhost⟩

theorem read_freq_nothing (c : Symbol) : Session.nothing.freq.read c = 0 := Table.read_replicate 0 c

theorem read_code_nothing (c : Symbol) : Session.nothing.code.read c = [] := Table.read_replicate [] c

/-- The two ways into reset and the state after reset itself leave the values of R43, whatever the response port shows. -/
theorem eq_resetState {s t : State}
    (h : exec .reset s = .next t ∨ (∃ rest, s.host = .rst :: rest) ∧ step s = .next t ∨ t = State.reset) :
    ∃ s' r, t = (resetState s').setRsp r := by
  rcases h with h | ⟨⟨rest, hhost⟩, h⟩ | rfl
  · cases h
    exact ⟨s, _, rfl⟩
  · cases (step_of_host_rst hhost).symm.trans h
    exact ⟨s.setHost rest, none, rfl⟩
  · exact ⟨State.reset, none, rfl⟩

/-- Settles O8: all three are a reset state up to its response, and such a state has nothing built, so the block answers. -/
theorem resetStateValues : Obligations.ResetStateValues := by
  intro s t h
  obtain ⟨s', r, rfl⟩ := eq_resetState h
  simp only [State.setRsp_session, resetState_session]
  exact ⟨read_freq_nothing, rfl, rfl, rfl, rfl, read_code_nothing, rfl, rfl, rfl, rfl, rfl, rfl, rfl,
    fun w rest => step_answers (.inl rfl) rfl⟩

end Sys2Proof.Machine
end

section
/-! The tree and the code table of a built session (spec/10_state.md rules R26 and R28). -/

namespace Sys2Proof.Machine

section tree
variable {freq : Table Nat} {node : List Node} {root : NodeIx}

theorem exists_move_of_mem_children {n : Node} {c : NodeIx} (h : c ∈ n.children) : ∃ b, move n b = .to c := by
  cases n with
  | leaf f a => cases h
  | internal f l r =>
    rcases List.mem_pair.mp h with rfl | rfl
    · exact ⟨0, rfl⟩
    · exact ⟨1, rfl⟩
  | synth f l =>
    cases List.mem_singleton.mp h
    exact ⟨0, rfl⟩

/-- A walk to a cell goes on to each child of the cell. -/
theorem walkPath_to_child {x c : NodeIx} {p : List Bit} (hp : walkPath node root p = some x) (hc : c ∈ childrenAt node x) :
    ∃ q, walkPath node root q = some c := by
  rcases hn : nodeAt? node x with _ | n
  · simp [childrenAt, hn] at hc
  · rw [childrenAt_eq hn] at hc
    obtain ⟨b, hb⟩ := exists_move_of_mem_children hc
    exact ⟨p ++ [b], walkPath_snoc hp hn hb⟩

open Classical in
/-- The cells that a walk from the root leads to. -/
noncomputable def reached (node : List Node) (root : NodeIx) : List NodeIx :=
  (Finset.univ : Finset NodeIx).toList.filter fun y => ∃ p, walkPath node root p = some y

theorem mem_reached {y : NodeIx} : y ∈ reached node root ↔ ∃ p, walkPath node root p = some y := by
  simp [reached]

/-- Every cell is reachable from the root (R26 (e)): the cells reached hold the root and, with a cell, its children. -/
theorem TreeFor.walk_exists (ht : TreeFor freq node root) (y : NodeIx) (hy : y.toNat < node.length) :
    ∃ p, walkPath node root p = some y := by
  refine mem_reached.mp (ht.mem_of_closed (mem_reached.mpr ⟨[], rfl⟩) (fun x hx c hc => ?_) y hy)
  obtain ⟨p, hp⟩ := mem_reached.mp hx
  exact mem_reached.mpr (walkPath_to_child hp hc)

theorem TreeFor.walk_exists_index (ht : TreeFor freq node root) {k : Nat} (hk : k < node.length) :
    ∃ p j, walkPath node root p = some j ∧ j.toNat = k := by
  have hix : (BitVec.ofNat 9 k).toNat = k := toNat_newIx (hk.trans_le (ht.length_le.trans (by omega)))
  obtain ⟨p, hp⟩ := ht.walk_exists (BitVec.ofNat 9 k) (hix.symm ▸ hk)
  exact ⟨p, _, hp, hix⟩

/-- In the tree of more than one key a path is at most one shorter than the number of keys (R28 (d)). -/
theorem TreeFor.path_length_le (ht : TreeFor freq node root) (h2 : (keys freq).length ≠ 1) {p : List Bit} (hp : p ≠ [])
    {j : NodeIx} (hj : walkPath node root p = some j) : p.length ≤ (keys freq).length - 1 := by
  have hlen := ht.walk_length p root j hp hj
  have hcount := ht.count
  rw [if_neg h2] at hcount
  have hlast := ht.root_last
  omega

/-- In the tree of one key the only path that takes a step is "0": the root is synthetic, its child a leaf (R153). -/
theorem TreeFor.path_eq_zero (ht : TreeFor freq node root) (h1 : (keys freq).length = 1) {p : List Bit} (hp : p ≠ [])
    {j : NodeIx} (hj : walkPath node root p = some j) : p = [0] := by
  have hlen := ht.walk_length p root j hp hj
  have hcount := ht.count
  rw [if_pos h1] at hcount
  have hlast := ht.root_last
  obtain ⟨b, rfl⟩ := List.length_eq_one_iff.mp (show p.length = 1 by have := List.length_pos_of_ne_nil hp; omega)
  obtain ⟨n, hn⟩ := TreeFor.nodeAt_isSome ht.root_lt
  have hinner := ht.inner root.toNat n (by omega) hn
  cases n with
  | leaf => exact hinner.elim
  | internal => exact absurd h1 hinner.1
  | synth f l =>
    rcases bit_cases b with rfl | rfl
    · rfl
    · simp [walkPath, hn, move] at hj

end tree

theorem toNat_countKeys (freq : Table Nat) : (countKeys freq).toNat = (keys freq).length :=
  toNat_newIx (Nat.lt_of_le_of_lt (length_keys_le freq) (by decide))

/-- Settles O34: `COMPRESS` of a non-empty text builds the session for it, whose tree has R26 (a) to (g); the empty text and
`RESET` leave nothing built; every other command leaves the session (h). -/
theorem treeInvariants : Obligations.TreeInvariants := by
  intro s t i h
  obtain ⟨u, hu, hend⟩ := exec_effect h
  rw [hend.session_eq]
  refine ⟨?_, ?_, ?_, fun hc hr => ?_⟩
  · rintro rfl hne
    obtain ⟨hfreq, hb⟩ := hu.builtFor_of_compress hne
    have ht := hb.tree
    refine ⟨hb.valid, ht, ?_, fun k => ht.walk_exists_index, fun n => ht.root_not_leaf, ?_⟩
    · rw [hb.nsyms, toNat_countKeys]
    · rw [ht.root_freq, hfreq, freqSum_countText]
  · rintro rfl hnil
    rw [hu.nothing_of_compress hnil]
    rfl
  · rintro rfl
    rw [hu.nothing_of_reset]
    rfl
  · rw [hu.session_eq hc hr]
    exact ⟨rfl, rfl, rfl, rfl, rfl⟩

namespace Session.Built
variable {x : Session} (hb : x.Built)
include hb

/-- No code begins another (R28 (c)). -/
theorem code_prefix_free {c d : Symbol} (hne : c ≠ d) (hc : x.code.read c ≠ []) (hd : x.code.read d ≠ []) :
    ¬ x.code.read c <+: x.code.read d := fun hpre =>
  hne ((hb.code.path c hc).unique_of_isPrefix (hb.code.path d hd) hpre)

/-- The lengths of R28 (d) with two keys or more. -/
theorem code_length_le (h2 : 2 ≤ x.nsyms.toNat) {c : Symbol} (hc : x.code.read c ≠ []) :
    (x.code.read c).length ≤ x.nsyms.toNat - 1 := by
  rw [hb.nsyms, toNat_countKeys] at h2 ⊢
  obtain ⟨j, _, hj, _⟩ := hb.code.path c hc
  exact hb.tree.path_length_le (by omega) hc hj

/-- The code of the only key (R28 (d), R153). -/
theorem code_eq_zero (h1 : x.nsyms = 1) {c : Symbol} (hc : x.code.read c ≠ []) : x.code.read c = [0] := by
  have hkeys : (keys x.freq).length = 1 := by
    rw [← toNat_countKeys, ← hb.nsyms, h1]
    rfl
  obtain ⟨j, _, hj, _⟩ := hb.code.path c hc
  exact hb.tree.path_eq_zero hkeys hc hj

end Session.Built

/-- Settles O35: with a valid tree the session is built, and a code is a path of its tree; without one nothing is built. -/
theorem codeTableInvariants : Obligations.CodeTableInvariants := by
  intro s hinv
  refine ⟨fun hv => ?_, fun hv c => ?_⟩
  · have hb := hinv.session.built hv
    refine ⟨fun c => ?_, hb.code.path, fun c d hne => hb.code_prefix_free hne, fun h2 c hc => ?_,
      fun h1 c => hb.code_eq_zero h1⟩
    · rw [← hb.code.entry c, Ne, List.length_eq_zero_iff]
    · exact ⟨List.length_pos_of_ne_nil hc, hb.code_length_le h2 hc⟩
  · rw [hinv.session.eq_nothing hv]
    exact read_code_nothing c

end Sys2Proof.Machine
end

section
/-! The character adapter at the ends of the buffers (spec/20_memory.md rule R67). -/

namespace Sys2Proof.Machine

theorem bitOfChar_charOfBit (b : Bit) : bitOfChar (charOfBit b) = b := by
  rcases BitVec.eq_zero_or_eq_one b with rfl | rfl
  · rfl
  · rfl

/-- Settles O57: both maps compute, and on either bit the second undoes the first. -/
theorem characterAdapter : Obligations.CharacterAdapter :=
  ⟨rfl, rfl, fun _ => rfl, bitOfChar_charOfBit⟩

end Sys2Proof.Machine
end

section
/-! The eight reads have no side effect (spec/20_memory.md rule R70): each is `answer` on one value, and the value read
survives the answer. -/

namespace Sys2Proof.Machine

/-- The value a read command names, `none` where its operand names none (R194 to R201). Other commands name no value. -/
def readValue? (s : State) : Instr → Option Word
  | .rdReg r => regValue? s r
  | .rdFreq c => some (freqValue s c)
  | .rdCodelen c => some (codeLenValue s c)
  | .rdCodebit c k => codeBitValue? s c k
  | .rdNodeFreq n => nodeFreqValue? s n
  | .rdNodeLink n => nodeLinkValue? s n
  | .rdBit n => bitValue? s n
  | .rdSym n => symValue? s n
  | .nop | .reset | .symClr | .symPush _ | .bitClr | .bitPush _ | .compress | .decompress => none

theorem exec_eq_answer {i : Instr} (hi : isRead i = true) (s : State) : exec i s = answer (readValue? s i) s := by
  cases i with
  | rdReg | rdFreq | rdCodelen | rdCodebit | rdNodeFreq | rdNodeLink | rdBit | rdSym => rfl
  | nop | reset | symClr | symPush | bitClr | bitPush | compress | decompress => cases hi

/-- A register is implemented or not whatever the state holds (R33). -/
theorem regValue?_eq_none_iff {s : State} {r : BitVec 4} : regValue? s r = none ↔ 10 ≤ r.toNat := by
  unfold regValue?
  split <;> simp only [reduceCtorEq, imp_false, false_iff, true_iff] at * <;> omega

/-- No value that a read command names depends on the response port. -/
theorem readValue?_answered (i : Instr) (s : State) (d : Word) : readValue? (s.answered d) i = readValue? s i := by
  cases i <;> rfl

/-- LAST_ERR is read as register 1 only, and a read of register 1 does not fail: a failing read fails again. -/
theorem readValue?_failed_eq_none {i : Instr} {s : State} (e : Status) (h : readValue? s i = none) :
    readValue? (s.failed e) i = none := by
  cases i with
  | rdReg r => exact regValue?_eq_none_iff.mpr (regValue?_eq_none_iff.mp h)
  | _ => exact h

/-- Settles O23, by the two ends of a read: in either, the state answered names the same value again. -/
theorem readsHaveNoSideEffect : Obligations.ReadsHaveNoSideEffect := by
  intro i s hi
  have hends := answer_cases (readValue? s i) s
  rw [← exec_eq_answer hi] at hends
  rcases hends with ⟨d, hv, he⟩ | ⟨hv, he⟩
  · refine ⟨⟨.ok, d⟩, he, fun t ht => ?_⟩
    cases he.symm.trans ht
    rw [exec_eq_answer hi, readValue?_answered, hv]
    rfl
  · refine ⟨⟨.range, 0⟩, he, fun t ht => ?_⟩
    cases he.symm.trans ht
    rw [exec_eq_answer hi, readValue?_failed_eq_none .range hv]
    rfl

end Sys2Proof.Machine
end

section
/-! The buffers fill only by appending (spec/20_memory.md rule R77): what each command writes to the text, the stream and
the decoded text. -/

namespace Sys2Proof.Machine

namespace EndsAs
variable {u t : State}

theorem symIn_eq (h : EndsAs u t) : t.symIn = u.symIn := by cases h <;> rfl
theorem bitBuf_eq (h : EndsAs u t) : t.bitBuf = u.bitBuf := by cases h <;> rfl
theorem symOut_eq (h : EndsAs u t) : t.symOut = u.symOut := by cases h <;> rfl

end EndsAs

namespace Effect
variable {i : Instr} {s u : State}

theorem symIn_cases (h : Effect s i u) : u.symIn = s.symIn ∨ (∃ v, i = .symPush v ∧ u.symIn = s.symIn ++ [v]) ∨
    (i = .symClr ∨ i = .reset) ∧ u.symIn = [] := by
  cases h with
  | symPush v => exact .inr (.inl ⟨v, rfl, rfl⟩)
  | symClr => exact .inr (.inr ⟨.inl rfl, rfl⟩)
  | reset => exact .inr (.inr ⟨.inr rfl, rfl⟩)
  | _ => exact .inl rfl

/-- The stream, `COMPRESS` apart: what that command leaves in it is `exec_compress_bitBuf`. -/
theorem bitBuf_cases (h : Effect s i u) (hc : i ≠ .compress) :
    u.bitBuf = s.bitBuf ∨ (∃ b, i = .bitPush b ∧ u.bitBuf = s.bitBuf ++ [b]) ∨
      (i = .bitClr ∨ i = .reset) ∧ u.bitBuf = [] := by
  cases h with
  | bitPush b => exact .inr (.inl ⟨b, rfl, rfl⟩)
  | bitClr => exact .inr (.inr ⟨.inl rfl, rfl⟩)
  | reset => exact .inr (.inr ⟨.inr rfl, rfl⟩)
  | compressEmpty | compressText => exact absurd rfl hc
  | _ => exact .inl rfl

theorem symOut_cases (h : Effect s i u) : u.symOut = s.symOut ∨ i = .decompress ∨ i = .reset ∧ u.symOut = [] := by
  cases h with
  | decompress => exact .inr (.inl rfl)
  | reset => exact .inr (.inr ⟨rfl, rfl⟩)
  | _ => exact .inl rfl

end Effect

/-- `COMPRESS` leaves the codes of the text in the stream, or nothing where the text is empty or its codes do not fit
(R192). -/
theorem exec_compress_bitBuf {s t : State} (h : exec .compress s = .next t) :
    t.bitBuf = [] ∨ t.bitBuf = codesOf t.session.code s.symIn := by
  rw [exec, execCompress] at h
  by_cases hnil : s.symIn = []
  · rw [compressUnits_nil hnil] at h
    cases h
    exact .inl rfl
  obtain ⟨node, root, code, _, _, hunits⟩ := compressUnits_spec hnil
  rw [hunits] at h
  split at h
  · cases h
    exact .inr rfl
  · cases h
    exact .inl rfl

/-- Settles O53, by the effect of the command on each buffer; of `COMPRESS` on the stream, by its units. -/
theorem buffersFillOnlyByAppending : Obligations.BuffersFillOnlyByAppending := by
  intro i s t h
  obtain ⟨u, hu, ht⟩ := exec_effect h
  refine ⟨ht.symIn_eq ▸ hu.symIn_cases, ?_, ht.symOut_eq ▸ hu.symOut_cases⟩
  by_cases hc : i = .compress
  · subst hc
    rcases exec_compress_bitBuf h with hb | hb
    · exact .inr (.inr (.inl ⟨.inr (.inr rfl), hb⟩))
    · exact .inr (.inr (.inr ⟨rfl, hb⟩))
  · rcases ht.bitBuf_eq ▸ hu.bitBuf_cases hc with hb | hb | ⟨hi, hb⟩
    · exact .inl hb
    · exact .inr (.inl hb)
    · exact .inr (.inr (.inl ⟨hi.imp_right .inl, hb⟩))

end Sys2Proof.Machine
end

section
/-! The command word (spec/30_encoding.md rules R90 to R94): the row that a word selects, the decoder and the encoder as
inverses of each other, and the words that no row matches. -/

namespace Sys2Proof

/-! ### The decoder by rows -/

/-- The decoder gives the row that matches, whichever way the row was found (R94). -/
theorem decode_of_selects {m : Mnemonic} {w : Word} (h : m.selects w) : decode w = some (m.withOperands w) := by
  simp only [decode, opMnemonic_of_selects h, if_pos h]

theorem decode_eq_none_iff (w : Word) : decode w = none ↔ ¬ (opMnemonic (opField w)).selects w := by
  simp [decode]

theorem decode_eq_some {w : Word} {i : Instr} (h : decode w = some i) :
    ∃ m : Mnemonic, m.selects w ∧ m.withOperands w = i := by
  rw [decode] at h
  split_ifs at h with hsel
  exact ⟨_, hsel, Option.some_inj.mp h⟩

/-- Settles O3: a matching row is the row of the word's opcode. -/
theorem wordSelectsAtMostOneRow : Obligations.WordSelectsAtMostOneRow := by
  intro w m h
  exact ⟨fun m' h' => (opMnemonic_of_selects h').symm.trans (opMnemonic_of_selects h), decode_of_selects h⟩

/-! ### The operands -/

theorem mnemonic_withOperands (m : Mnemonic) (w : Word) : (m.withOperands w).mnemonic = m := by
  cases m <;> rfl

/-- The subfields of a row together hold the word's low bits (R91, R92). -/
theorem payload_withOperands (m : Mnemonic) (w : Word) : (m.withOperands w).payload = w.toNat % 2 ^ m.operandWidth := by
  cases m with
  | nop | reset | symClr | bitClr | compress | decompress => exact (Nat.mod_one _).symm
  | symPush | bitPush | rdReg | rdFreq | rdCodelen | rdNodeFreq | rdNodeLink | rdBit | rdSym =>
    exact BitVec.extractLsb'_toNat ..
  | rdCodebit =>
    simp [Mnemonic.withOperands, Instr.payload, Mnemonic.operandWidth, Mnemonic.format, Format.widths, symField, posField,
      Nat.shiftRight_eq_div_pow]
    omega

/-- A match word has no bit set below the opcode (R93). -/
theorem matchWord_mod_of_le (m : Mnemonic) {n : Nat} (hn : n ≤ 28) : m.matchWord.toNat % 2 ^ n = 0 := by
  have h28 : 2 ^ 28 ∣ m.matchWord.toNat := by cases m <;> decide
  exact Nat.mod_eq_zero_of_dvd ((Nat.pow_dvd_pow 2 hn).trans h28)

/-- A subfield at the bottom of a command's word holds the low bits of its operands. -/
theorem extractLsb'_encode (i : Instr) {n : Nat} (hn : n ≤ 28) :
    (encode i).extractLsb' 0 n = BitVec.ofNat n i.payload := by
  refine BitVec.eq_of_toNat_eq ?_
  rw [BitVec.extractLsb'_toNat, BitVec.toNat_ofNat, toNat_encode, Nat.shiftRight_zero, Nat.add_mod, matchWord_mod_of_le _ hn,
    Nat.zero_add, Nat.mod_mod]

theorem symField_rdCodebit (s : Symbol) (k : BitVec 8) : symField (encode (.rdCodebit s k)) = s := by
  rw [symField, extractLsb'_encode _ (by decide)]
  refine BitVec.eq_of_toNat_eq ?_
  simpa [Instr.payload] using s.isLt

theorem posField_rdCodebit (s : Symbol) (k : BitVec 8) : posField (encode (.rdCodebit s k)) = k := by
  refine BitVec.eq_of_toNat_eq ?_
  rw [posField, BitVec.extractLsb'_toNat, toNat_encode, Nat.shiftRight_eq_div_pow]
  simp [Instr.mnemonic, Mnemonic.matchWord, Instr.payload]
  omega

/-- The row of a command reads its operands back from its word (R92). -/
theorem withOperands_encode (i : Instr) : i.mnemonic.withOperands (encode i) = i := by
  cases i with
  | nop | reset | symClr | bitClr | compress | decompress => rfl
  | rdCodebit s k => rw [Instr.mnemonic, Mnemonic.withOperands, symField_rdCodebit, posField_rdCodebit]
  | symPush | bitPush | rdReg | rdFreq | rdCodelen | rdNodeFreq | rdNodeLink | rdBit | rdSym =>
    simp only [Instr.mnemonic, Mnemonic.withOperands, symField, bitField, regField, nodeField, argField]
    rw [extractLsb'_encode _ (by decide), Instr.payload, BitVec.ofNat_toNat, BitVec.setWidth_eq]

/-! ### Decoder and encoder -/

theorem decode_encode (i : Instr) : decode (encode i) = some i := by
  rw [decode_of_selects (Laws.EncodeRow.of_payload i), withOperands_encode]

theorem Instr.wellFormed_eq_true (i : Instr) : i.wellFormed = true := by
  cases i with
  | nop | reset | symClr | bitClr | compress | decompress => rfl
  | symPush v | bitPush v | rdReg v | rdFreq v | rdCodelen v | rdNodeFreq v | rdNodeLink v | rdBit v | rdSym v =>
    exact operandsFit_cons.mpr ⟨v.isLt, rfl⟩
  | rdCodebit s k => exact operandsFit_cons.mpr ⟨s.isLt, operandsFit_cons.mpr ⟨k.isLt, rfl⟩⟩

/-- Settles O1: the word of a command selects the row of its mnemonic, and that row reads the operands back. -/
theorem encodeThenDecode : Obligations.EncodeThenDecode := fun i => ⟨i.wellFormed_eq_true, decode_encode i⟩

/-- The encoder writes a matching row's command as the very word: the row's match word gives the bits above the operands, the
operands the bits below (R91, R93). -/
theorem encode_withOperands {m : Mnemonic} {w : Word} (h : m.selects w) : encode (m.withOperands w) = w := by
  rw [selects_iff_div] at h
  refine BitVec.eq_of_toNat_eq ?_
  calc (encode (m.withOperands w)).toNat
      = m.matchWord.toNat + w.toNat % 2 ^ m.operandWidth := by
        rw [toNat_encode, mnemonic_withOperands, payload_withOperands]
    _ = 2 ^ m.operandWidth * (w.toNat / 2 ^ m.operandWidth) + w.toNat % 2 ^ m.operandWidth := by
        rw [h, Nat.mul_div_cancel' (Nat.dvd_of_mod_eq_zero (matchWord_mod m))]
    _ = w.toNat := Nat.div_add_mod _ _

/-- Settles O2. -/
theorem decodeThenEncode : Obligations.DecodeThenEncode := by
  intro w i h
  obtain ⟨m, hsel, rfl⟩ := decode_eq_some h
  exact encode_withOperands hsel

/-- Settles O5: each word is the word of its command. -/
theorem writtenOutWordsDecode : Obligations.WrittenOutWordsDecode :=
  ⟨decode_encode .nop, decode_encode .reset, decode_encode .symClr, decode_encode (.symPush 0x61), decode_encode .bitClr,
    decode_encode (.bitPush 1), decode_encode .compress, decode_encode .decompress, decode_encode (.rdReg 7),
    decode_encode (.rdFreq 0x64), decode_encode (.rdCodelen 0x63), decode_encode (.rdCodebit 0x62 1),
    decode_encode (.rdNodeFreq 4), decode_encode (.rdNodeLink 4), decode_encode (.rdBit 9), decode_encode (.rdSym 6)⟩

/-! ### Illegal words -/

/-- The match word of an opcode's row is the opcode with every bit of `arg` 0 (R93). -/
theorem matchWord_opMnemonic (op : BitVec 4) : (opMnemonic op).matchWord = op ++ 0#28 := by
  revert op
  decide

/-- A row's mask has a 1 for every bit that is not an operand bit (R93). -/
theorem mask_eq (m : Mnemonic) : m.mask = BitVec.allOnes 32 <<< m.operandWidth := by
  cases m <;> rfl

theorem operandWidth_le (m : Mnemonic) : m.operandWidth ≤ 28 := by
  cases m <;> decide

theorem getLsbD_and_highMask (w : Word) (n : Nat) {k : Nat} (hk : k < 32) :
    (w &&& BitVec.allOnes 32 <<< n).getLsbD k = (decide (n ≤ k) && w.getLsbD k) := by
  have hk' : k - n < 32 := by omega
  rw [BitVec.getLsbD_and, BitVec.getLsbD_shiftLeft, BitVec.getLsbD_allOnes]
  by_cases h : n ≤ k
  · simp [hk, hk', h]
  · simp [h, Nat.lt_of_not_le h]

theorem getLsbD_opField_append (w : Word) {k : Nat} (hk : k < 32) :
    (opField w ++ 0#28).getLsbD k = (decide (28 ≤ k) && w.getLsbD k) := by
  rw [BitVec.getLsbD_append, opField, BitVec.getLsbD_extractLsb']
  by_cases h : k < 28
  · simp [h]
  · have hk' : k - 28 < 4 := by omega
    have hadd : 28 + (k - 28) = k := by omega
    simp [h, hk', hadd]
    omega

/-- A word selects the row of its opcode exactly when every must-be-zero bit is 0 (R91, R94). -/
theorem selects_opMnemonic_iff (w : Word) : (opMnemonic (opField w)).selects w ↔
    ∀ k, k < 28 → (opMnemonic (opField w)).operandWidth ≤ k → w.getLsbD k = false := by
  rw [Mnemonic.selects, mask_eq, matchWord_opMnemonic]
  generalize hn : (opMnemonic (opField w)).operandWidth = n
  have hle : n ≤ 28 := hn ▸ operandWidth_le _
  constructor
  · intro h k hk hnk
    have hbit := congrArg (BitVec.getLsbD · k) h
    simp only [getLsbD_and_highMask w n (k := k) (by omega), getLsbD_opField_append w (k := k) (by omega)] at hbit
    simpa [hnk, hk, Nat.not_le.mpr hk] using hbit
  · intro h
    refine BitVec.eq_of_getLsbD_eq fun k hk => ?_
    rw [getLsbD_and_highMask w n hk, getLsbD_opField_append w hk]
    by_cases hop : 28 ≤ k
    · simp [hop, hle.trans hop]
    · by_cases hnk : n ≤ k
      · simp [h k (by omega) hnk]
      · simp [hop, hnk]

end Sys2Proof

namespace Sys2Proof.Machine

theorem runWord_of_decode_none {w : Word} (h : decode w = none) (s : State) : runWord w s = illegal s := by
  rw [runWord, h]

/-- Settles O4: the row test is the definition's; a word with a must-be-zero bit set fails the test of its opcode's row, and
no other row can match it. -/
theorem illegalExactlyWhenReservedBitSet : Obligations.IllegalExactlyWhenReservedBitSet := by
  intro w
  refine ⟨?_, ?_, ?_, ?_⟩
  · rintro m rfl
    rfl
  · rw [decode_eq_none_iff]
    exact ⟨fun h m hm => h (opMnemonic_of_selects hm ▸ hm), fun h => h _⟩
  · rw [decode_eq_none_iff, selects_opMnemonic_iff]
    simp [opField]
  · intro h s rest hhost
    rw [step_of_host_command hhost, runWord_of_decode_none h]
    rfl

/-- The step runs the word presented last, in the very state in which it was presented (R106). -/
theorem step_presentWord (s : State) (w : Word) : step (presentWord s w) = runWord w s :=
  step_of_host_command (s := presentWord s w) rfl

theorem runWord_of_decode_some {w : Word} {i : Instr} (h : decode w = some i) (s : State) : runWord w s = exec i s := by
  rw [runWord, h]

/-- Settles O7. -/
theorem fetchWordRunsNext : Obligations.FetchWordRunsNext := by
  intro s nbits w i h
  exact (step_presentWord s (tableWord nbits w)).trans (runWord_of_decode_some h s)

end Sys2Proof.Machine
end

section
/-! Host sequences over the step (spec/30_encoding.md rules R103 and R105): the load of a buffer, the read-out of a buffer,
and the operation that loads, runs and reads. -/

namespace Sys2Proof.Machine

/-- A transaction is one `exec`: every command's word decodes to it (R106). -/
theorem issue_eq_some_iff {i : Instr} {s t : State} {r : Response} :
    issue i s = some (r, t) ↔ exec i s = .next t ∧ t.rsp = some r := by
  rw [issue, transact, step_presentWord, runWord_of_decode_some (decode_encode i)]
  cases exec i s with
  | next u =>
    simp only [Option.map_eq_some_iff, Prod.mk.injEq, Host.Outcome.next.injEq]
    constructor
    · rintro ⟨_, hr, rfl, rfl⟩
      exact ⟨rfl, hr⟩
    · rintro ⟨rfl, hr⟩
      exact ⟨r, hr, rfl, rfl⟩
  | fault f => simp
  | refused r => simp

theorem issueAll_cons {i : Instr} {is : List Instr} {s t : State} {r : Response} (h : issue i s = some (r, t)) :
    issueAll (i :: is) s = (issueAll is t).map fun p => (r :: p.1, p.2) := by
  rw [issueAll, h]

theorem issueAll_cons_eq_some {i : Instr} {is : List Instr} {s u : State} {rs : List Response}
    (h : issueAll (i :: is) s = some (rs, u)) :
    ∃ r t rs', issue i s = some (r, t) ∧ issueAll is t = some (rs', u) ∧ rs = r :: rs' := by
  rw [issueAll] at h
  split at h
  · cases h
  · next r t hi =>
    obtain ⟨⟨rs', u'⟩, hrest, heq⟩ := Option.map_eq_some_iff.mp h
    cases heq
    exact ⟨r, t, rs', hi, hrest, rfl⟩

theorem firstError_cons_eq_none {r : Response} {rs : List Response} :
    firstError (r :: rs) = none ↔ r.status = .ok ∧ firstError rs = none := by
  rw [firstError]
  split_ifs with h <;> simp [h]

theorem firstError_ok {β : Type} (w : β → Word) (l : List β) : firstError (l.map fun k => ⟨.ok, w k⟩) = none := by
  induction l with
  | nil => rfl
  | cons k l ih => exact firstError_cons_eq_none.mpr ⟨rfl, ih⟩

/-! ### Loading a buffer (R103) -/

/-- A clear command and a push command over a buffer of `cap` cells (R188 to R191): `buf l` is the state in which the buffer
holds `l` and the response port shows its length. -/
structure Loads {α : Type} (clear : Instr) (push : α → Instr) (cap : Nat) (s : State) (buf : List α → State) :
    Prop where
  exec_clear : exec clear s = .next (buf [])
  exec_push : ∀ l v, l.length < cap → exec (push v) (buf l) = .next (buf (l ++ [v]))
  exec_push_full : ∀ l v, cap ≤ l.length → exec (push v) (buf l) = raise .capacity (buf l)
  rsp_eq : ∀ l, (buf l).rsp = some ⟨.ok, countWord l.length⟩

/-- The state after a load of SYM_IN. -/
def State.textLoaded (s : State) (text : List Symbol) : State :=
  (s.setSymIn text).setRsp (some ⟨.ok, countWord text.length⟩)

/-- The state after a load of BITBUF. -/
def State.bitsLoaded (s : State) (bits : List Bit) : State :=
  (s.setBitBuf bits).setRsp (some ⟨.ok, countWord bits.length⟩)

theorem loads_text (s : State) : Loads .symClr .symPush s.cfg.textCap s s.textLoaded where
  exec_clear := rfl
  exec_push l v h := by
    refine (if_neg (Nat.not_le.mpr h)).trans ?_
    simp only [State.textLoaded, List.length_append, List.length_singleton]
    rfl
  exec_push_full l v h := if_pos h
  rsp_eq _ := rfl

theorem loads_bits (s : State) : Loads .bitClr .bitPush s.cfg.bitCap s s.bitsLoaded where
  exec_clear := rfl
  exec_push l v h := by
    refine (if_neg (Nat.not_le.mpr h)).trans ?_
    simp only [State.bitsLoaded, List.length_append, List.length_singleton]
    rfl
  exec_push_full l v h := if_pos h
  rsp_eq _ := rfl

namespace Loads
variable {α : Type} {clear : Instr} {push : α → Instr} {cap : Nat} {s : State} {buf : List α → State}

theorem issue_clear (hl : Loads clear push cap s buf) : issue clear s = some (⟨.ok, 0⟩, buf []) :=
  issue_eq_some_iff.mpr ⟨hl.exec_clear, hl.rsp_eq []⟩

/-- Pushes that fit: each answers the new length. -/
theorem issueAll_pushes (hl : Loads clear push cap s buf) (xs : List α) : ∀ l, l.length + xs.length ≤ cap →
    issueAll (xs.map push) (buf l) =
      some ((List.range xs.length).map fun k => ⟨.ok, countWord (l.length + (k + 1))⟩, buf (l ++ xs)) := by
  induction xs with
  | nil => intro l _; simp [issueAll]
  | cons x xs ih =>
    intro l hfit
    rw [List.length_cons] at hfit
    have hx : issue (push x) (buf l) = some (⟨.ok, countWord (l.length + 1)⟩, buf (l ++ [x])) :=
      issue_eq_some_iff.mpr ⟨hl.exec_push l x (by omega), by rw [hl.rsp_eq, List.length_append, List.length_singleton]⟩
    rw [List.map_cons, issueAll_cons hx, ih _ (by simp; omega)]
    simp [List.range_succ_eq_map, Nat.add_assoc, Nat.add_comm 1, Function.comp_def]

/-- A load that fits. -/
theorem issueAll_load (hl : Loads clear push cap s buf) {xs : List α} (hfit : xs.length ≤ cap) :
    issueAll (clear :: xs.map push) s =
      some (⟨.ok, 0⟩ :: (List.range xs.length).map fun k => ⟨.ok, countWord (k + 1)⟩, buf xs) := by
  rw [issueAll_cons hl.issue_clear, hl.issueAll_pushes xs [] (by simpa using hfit)]
  simp

/-- Pushes that are all answered `OK` did fit. -/
theorem fits_of_pushes (hl : Loads clear push cap s buf) (xs : List α) : ∀ (l : List α) (rs : List Response) (u : State),
    l.length ≤ cap → issueAll (xs.map push) (buf l) = some (rs, u) → firstError rs = none →
    l.length + xs.length ≤ cap := by
  induction xs with
  | nil => intro l _ _ hroom _ _; exact hroom
  | cons x xs ih =>
    intro l rs u hroom h hok
    obtain ⟨r, t, rs', hx, hrest, rfl⟩ := issueAll_cons_eq_some h
    obtain ⟨hexec, hrsp⟩ := issue_eq_some_iff.mp hx
    obtain ⟨hr, hok'⟩ := firstError_cons_eq_none.mp hok
    by_cases hfull : cap ≤ l.length
    · cases (hl.exec_push_full l x hfull).symm.trans hexec
      obtain rfl := Option.some_inj.mp hrsp
      cases hr
    · have hlt : (l ++ [x]).length ≤ cap := by simp; omega
      cases (hl.exec_push l x (Nat.lt_of_not_le hfull)).symm.trans hexec
      have hsum := ih _ rs' u hlt hrest hok'
      simp at hsum ⊢
      omega

/-- A load that is answered `OK` throughout did fit, and has loaded the buffer. -/
theorem of_issueAll (hl : Loads clear push cap s buf) {xs : List α} {rs : List Response} {u : State}
    (h : issueAll (clear :: xs.map push) s = some (rs, u)) (hok : firstError rs = none) :
    xs.length ≤ cap ∧ u = buf xs := by
  have hfit : xs.length ≤ cap := by
    rw [issueAll_cons hl.issue_clear] at h
    obtain ⟨⟨rs', u'⟩, hpush, heq⟩ := Option.map_eq_some_iff.mp h
    cases heq
    simpa using hl.fits_of_pushes xs [] rs' _ (Nat.zero_le _) hpush (firstError_cons_eq_none.mp hok).2
  rw [hl.issueAll_load hfit] at h
  cases h
  exact ⟨hfit, rfl⟩

end Loads

/-- Settles O58. -/
theorem loadTextLoads : Obligations.LoadTextLoads :=
  fun s _ hfit => (loads_text s).issueAll_load hfit

/-- The responses of a load that fits are all `OK`. -/
theorem firstError_load (n : Nat) :
    firstError (⟨.ok, 0⟩ :: (List.range n).map fun k => ⟨.ok, countWord (k + 1)⟩) = none :=
  firstError_cons_eq_none.mpr ⟨rfl, firstError_ok _ _⟩

/-! ### Reading a buffer (R103) -/

theorem exec_of_readValue? {i : Instr} {s : State} {d : Word} (h : readValue? s i = some d) :
    exec i s = .next (s.answered d) := by
  have hread : isRead i = true := by
    cases i with
    | nop | reset | symClr | symPush | bitClr | bitPush | compress | decompress => cases h
    | rdReg | rdFreq | rdCodelen | rdCodebit | rdNodeFreq | rdNodeLink | rdBit | rdSym => rfl
  rw [exec_eq_answer hread, h]
  rfl

theorem issue_of_readValue? {i : Instr} {s : State} {d : Word} (h : readValue? s i = some d) :
    issue i s = some (⟨.ok, d⟩, s.answered d) :=
  issue_eq_some_iff.mpr ⟨exec_of_readValue? h, rfl⟩

/-- A sequence of reads that all name a value answers the values and writes the response port only. -/
theorem issueAll_reads (is : List Instr) : ∀ (vs : List Word) (s : State), is.map (readValue? s) = vs.map some →
    ∃ r, issueAll is s = some (vs.map (⟨.ok, ·⟩), s.setRsp r) := by
  induction is with
  | nil =>
    intro vs s h
    obtain rfl : vs = [] := by simpa using h.symm
    exact ⟨s.rsp, rfl⟩
  | cons i is ih =>
    intro vs s h
    obtain ⟨v, vs, rfl⟩ : ∃ v vs', vs = v :: vs' := by
      cases vs with
      | nil => simp at h
      | cons v vs => exact ⟨v, vs, rfl⟩
    obtain ⟨hv, hvs⟩ := List.cons.inj h
    have hkeep : readValue? (s.answered v) = readValue? s := funext fun j => readValue?_answered j s v
    obtain ⟨r, hr⟩ := ih vs (s.answered v) (by rw [hkeep]; exact hvs)
    refine ⟨r, ?_⟩
    rw [issueAll_cons (issue_of_readValue? hv), hr]
    rfl

/-- A host loop over a buffer whose words are `l` reads them all and writes the response port only. -/
theorem readCells_eq {count : Instr} {cell : Nat → Instr} {s : State} {l : List Word} (hlen : l.length ≤ 2 ^ 28)
    (hcount : readValue? s count = some (countWord l.length))
    (hcell : ∀ k, k < l.length → readValue? s (cell k) = l[k]?) :
    ∃ r, readCells count cell s = some (l, s.setRsp r) := by
  have hdata : (countWord l.length).toNat = l.length := by
    rw [countWord, BitVec.toNat_ofNat, Nat.mod_eq_of_lt (by omega)]
  have hvals : ((List.range l.length).map cell).map (readValue? (s.answered (countWord l.length))) = l.map some := by
    refine List.ext_getElem (by simp) fun k hk _ => ?_
    have hk' : k < l.length := by simpa using hk
    simp [readValue?_answered, hcell k hk', hk']
  obtain ⟨r, hr⟩ := issueAll_reads _ _ _ hvals
  refine ⟨r, ?_⟩
  rw [readCells, issue_of_readValue? hcount]
  simp only [hdata, hr, Option.map_some, List.map_map, Function.comp_def, List.map_id']
  rfl

theorem toNat_ofNat_28 {k n : Nat} (hk : k < n) (hn : n ≤ 2 ^ 28) : (BitVec.ofNat 28 k).toNat = k := by
  rw [BitVec.toNat_ofNat, Nat.mod_eq_of_lt (hk.trans_le hn)]

/-- `READ_BITS` reads the stream. -/
theorem readBits_eq {s : State} (hlen : s.bitBuf.length ≤ 2 ^ 28) : ∃ r, readBits s = some (s.bitBuf, s.setRsp r) := by
  obtain ⟨r, hr⟩ := readCells_eq (count := .rdReg 3) (cell := fun k => .rdBit (BitVec.ofNat 28 k)) (s := s)
    (l := s.bitBuf.map (BitVec.setWidth 32)) (by simpa using hlen) (by rw [List.length_map]; rfl) fun k hk => by
      rw [readValue?, bitValue?, toNat_ofNat_28 (by simpa using hk) hlen, List.getElem?_map]
  refine ⟨r, ?_⟩
  rw [readBits, hr]
  simp [Function.comp_def]

/-- `READ_TEXT` reads the decoded text. -/
theorem readText_eq {s : State} (hlen : s.symOut.length ≤ 2 ^ 28) : ∃ r, readText s = some (s.symOut, s.setRsp r) := by
  obtain ⟨r, hr⟩ := readCells_eq (count := .rdReg 4) (cell := fun k => .rdSym (BitVec.ofNat 28 k)) (s := s)
    (l := s.symOut.map (BitVec.setWidth 32)) (by simpa using hlen) (by rw [List.length_map]; rfl) fun k hk => by
      rw [readValue?, symValue?, toNat_ofNat_28 (by simpa using hk) hlen, List.getElem?_map]
  refine ⟨r, ?_⟩
  rw [readText, hr]
  simp [Function.comp_def]

/-! ### Load, run and read (R105) -/

theorem issueAll_concat_eq_some {is : List Instr} {i : Instr} {s u : State} {rs : List Response} :
    issueAll (is ++ [i]) s = some (rs, u) ↔
      ∃ rs' t r, issueAll is s = some (rs', t) ∧ issue i t = some (r, u) ∧ rs = rs' ++ [r] := by
  rw [issueAll_append]
  rcases issueAll is s with _ | ⟨rs', t⟩
  · simp
  · rcases hi : issue i t with _ | ⟨r, u'⟩
    · simp [issueAll, hi]
    · simp [issueAll, hi, and_comm, eq_comm]

/-- An operation returns a value exactly when its load and its run are answered `OK` and the read-out gives that value. -/
theorem loadRunRead_eq_value_iff {α : Type} {load : List Instr} {run : Instr} {read : State → Option (α × State)}
    {s u : State} {a : α} : loadRunRead load run read s = some (.value a, u) ↔
      ∃ rs s' d t, issueAll load s = some (rs, s') ∧ firstError rs = none ∧ issue run s' = some (⟨.ok, d⟩, t) ∧
        read t = some (a, u) := by
  have hall : loadRunRead load run read s = some (.value a, u) ↔
      ∃ rs t, issueAll (load ++ [run]) s = some (rs, t) ∧ firstError rs = none ∧ read t = some (a, u) := by
    rw [loadRunRead]
    rcases issueAll (load ++ [run]) s with _ | ⟨rs, t⟩
    · simp
    · rcases hok : firstError rs with _ | e <;> simp [hok]
  rw [hall]
  constructor
  · rintro ⟨_, t, hseq, hok, hread⟩
    obtain ⟨rs, s', ⟨st, d⟩, hload, hrun, rfl⟩ := issueAll_concat_eq_some.mp hseq
    obtain ⟨hokLoad, hlast⟩ := (firstError_append _ _).mp hok
    obtain ⟨rfl : st = .ok, _⟩ := firstError_cons_eq_none.mp hlast
    exact ⟨rs, s', d, t, hload, hokLoad, hrun, hread⟩
  · rintro ⟨rs, s', d, t, hload, hok, hrun, hread⟩
    exact ⟨_, t, issueAll_concat_eq_some.mpr ⟨rs, s', _, hload, hrun, rfl⟩, (firstError_append _ _).mpr ⟨hok, rfl⟩,
      hread⟩

end Sys2Proof.Machine
end

section
/-! The round trip (spec/44_decoder.md rule R178), at the commands and through the operations of R105. -/

namespace Sys2Proof.Machine

/-- `COMPRESS` answered `OK` has left the codes of the text in the stream, none for the empty text. -/
theorem exec_compress_ok_bitBuf {s t : State} {d : Word} (h : exec .compress s = .next t) (hok : t.rsp = some ⟨.ok, d⟩) :
    t.bitBuf = codesOf t.session.code s.symIn := by
  rw [exec, execCompress] at h
  by_cases hnil : s.symIn = []
  · rw [compressUnits_nil hnil] at h
    cases h
    rw [hnil]
    rfl
  obtain ⟨node, root, code, _, _, hunits⟩ := compressUnits_spec hnil
  rw [hunits] at h
  split at h
  · cases h
    rfl
  · cases h
    cases hok

theorem Session.BuiltFor.code_ne_nil {x : Session} {text : List Symbol} (hx : x.BuiltFor text) {c : Symbol}
    (hc : c ∈ text) : x.code.read c ≠ [] := by
  obtain ⟨hfreq, hbuilt⟩ := hx
  rw [hbuilt.code.entry, hfreq, read_countText]
  exact (List.count_pos_iff.mpr hc).ne'

/-- `DECOMPRESS` on the session and the stream that `COMPRESS` has left decodes the text, the empty text included
(R176, R178). -/
theorem exec_decompress_of_compress {s t u : State} {d : Word} (h : exec .compress s = .next t)
    (hok : t.rsp = some ⟨.ok, d⟩) (hbits : u.bitBuf = t.bitBuf) (hses : u.session = t.session) (hwalk : u.walk = none) :
    exec .decompress u = .next ((u.setSymOut s.symIn).setRsp (some ⟨.ok, countWord s.symIn.length⟩)) := by
  obtain ⟨v, heff, hend⟩ := exec_effect h
  have hvu : u.session = v.session := hses.trans hend.session_eq
  have hunits : decompressUnits (u.setSymOut []) = .done (u.setSymOut s.symIn) := by
    by_cases hnil : s.symIn = []
    · rw [hnil]
      refine decompressUnits_guard (.inl ?_)
      rw [State.setSymOut_session, hvu, heff.nothing_of_compress hnil]
      rfl
    · have hbuilt : u.session.BuiltFor s.symIn := hvu ▸ heff.builtFor_of_compress hnil
      have hstream : u.bitBuf = codesOf u.session.code s.symIn := by
        rw [hbits, hses, exec_compress_ok_bitBuf h hok]
      exact decompressUnits_codes (s := u.setSymOut []) hbuilt.2 hwalk rfl (fun c hc => hbuilt.code_ne_nil hc) hstream
  rw [exec, execDecompress, hunits]
  rfl

/-- A command that answers keeps the invariant. -/
theorem State.Inv.of_exec {s t : State} {i : Instr} (hinv : s.Inv) (h : exec i s = .next t) : t.Inv := by
  obtain ⟨u, heff, hend⟩ := exec_effect h
  exact hend.inv (heff.inv hinv)

theorem State.Inv.textLoaded {s : State} (hinv : s.Inv) {text : List Symbol} (hfit : text.length ≤ s.cfg.textCap) :
    (s.textLoaded text).Inv :=
  (hinv.setSymIn hfit).setRsp _

theorem State.Inv.bitBuf_length_le {s : State} (hinv : s.Inv) : s.bitBuf.length ≤ s.cfg.bitCap := by
  obtain ⟨_, hbits, _⟩ := hinv.memory
  exact hbits

theorem State.Inv.walk_eq {s : State} (hinv : s.Inv) : s.walk = none := by
  obtain ⟨_, _, hwalk⟩ := hinv.idle
  exact hwalk

theorem Config.textCap_le (cfg : Config) : cfg.textCap ≤ 2 ^ 28 := by
  obtain ⟨_, ⟨_, _, h⟩, _⟩ := cfg.legal
  exact h

theorem Config.bitCap_le (cfg : Config) : cfg.bitCap ≤ 2 ^ 28 := by
  obtain ⟨_, _, _, h⟩ := cfg.legal
  exact h

/-- `LOAD_CHARS` of the characters of a stream is `LOAD_BITS` of the stream (R67, R103). -/
theorem loadChars_map_charOfBit (bits : List Bit) : loadChars (bits.map charOfBit) = .bitClr :: bits.map .bitPush := by
  simp [loadChars, Function.comp_def, bitOfChar_charOfBit]

/-- What the compress operation has done when it returns a string (R105): the text was loaded, `COMPRESS` was answered `OK`,
and the string is the stream it left, which the read-out did not change. -/
theorem of_compressOp {s t : State} {text chars : List Symbol} (hinv : s.Inv)
    (h : compressOp text s = some (.value chars, t)) :
    ∃ d t' r, text.length ≤ s.cfg.textCap ∧ exec .compress (s.textLoaded text) = .next t' ∧ t'.rsp = some ⟨.ok, d⟩ ∧
      t'.Inv ∧ chars = t'.bitBuf.map charOfBit ∧ t = t'.setRsp r := by
  obtain ⟨rs, s', d, t', hload, hok, hrun, hread⟩ := loadRunRead_eq_value_iff.mp h
  obtain ⟨hfit, rfl⟩ := (loads_text s).of_issueAll hload hok
  obtain ⟨hexec, hrsp⟩ := issue_eq_some_iff.mp hrun
  have hinv' : t'.Inv := (hinv.textLoaded hfit).of_exec hexec
  obtain ⟨r, hbits⟩ := readBits_eq (hinv'.bitBuf_length_le.trans (Config.bitCap_le _))
  rw [hbits] at hread
  cases hread
  exact ⟨d, t', r, hfit, hexec, hrsp, hinv', rfl, rfl⟩

/-- Settles O59: the operation on the string loads the very stream that `COMPRESS` left, on the session it built, so that
`DECOMPRESS` decodes the text and the read-out returns it. -/
theorem wrapperRoundTrip : Obligations.WrapperRoundTrip := by
  intro s t text chars hinv h
  obtain ⟨d, t', r, hfit, hexec, hrsp, hinv', rfl, rfl⟩ := of_compressOp hinv h
  have hload := (loads_bits (t'.setRsp r)).issueAll_load hinv'.bitBuf_length_le
  have hrun := exec_decompress_of_compress (u := (t'.setRsp r).bitsLoaded t'.bitBuf) hexec hrsp rfl rfl hinv'.walk_eq
  obtain ⟨r', hread⟩ := readText_eq (s := (((t'.setRsp r).bitsLoaded t'.bitBuf).setSymOut text).setRsp
    (some ⟨.ok, countWord text.length⟩)) (hfit.trans (Config.textCap_le _))
  simp only [decompressOp, loadChars_map_charOfBit]
  exact ⟨_, loadRunRead_eq_value_iff.mpr
    ⟨_, _, _, _, hload, firstError_load _, issue_eq_some_iff.mpr ⟨hrun, rfl⟩, hread⟩⟩

end Sys2Proof.Machine
end

section
/-! The lines of a script (spec/30_encoding.md rule R101). -/

namespace Sys2Proof.Machine

/-- Settles O60: the assembler is evaluated on each line. -/
theorem assemblerExamples : Obligations.AssemblerExamples := by
  unfold Obligations.AssemblerExamples
  decide

end Sys2Proof.Machine
end

section
/-! The Frequency Counter (spec/40_frequency_counter.md rules R120 to R125): what `FC_RUN` writes, and the width its counts and
the sums made of them need. -/

namespace Sys2Proof.Machine

@[simp] theorem fcRun_freq (s : State) : (fcRun s).session.freq = countText s.symIn := rfl

@[simp] theorem fcRun_nsyms (s : State) : (fcRun s).session.nsyms = countKeys (countText s.symIn) := rfl

/-- Settles O29: the table is that of the text, and NSYMS the number of its keys. -/
theorem counterCountsText : Obligations.CounterCountsText := by
  intro s
  refine ⟨countText s.symIn, countKeys (countText s.symIn), rfl, ?_, freqSum_countText s.symIn, read_countText s.symIn,
    fun c => ?_⟩
  · rw [toNat_countKeys, keys]
    exact congrArg List.length (List.filter_congr fun c _ => Bool.eq_iff_iff.mpr (by simp))
  · rw [← mem_keys, mem_keys_countText]

/-- Settles O24, by the short-circuit of the empty text. -/
theorem compressEmptyText : Obligations.CompressEmptyText := by
  intro s hnil
  have htable : countText s.symIn = Vector.replicate 256 0 := by rw [hnil, countText_nil]
  refine ⟨fun c => ?_, ?_, ?_⟩
  · rw [fcRun_freq, htable, Table.read_replicate]
  · rw [fcRun_nsyms, htable, countKeys, keys_replicate_zero]
    rfl
  · rw [exec, execCompress, compressUnits_nil hnil]
    rfl

/-! ### Bounds on the frequencies (R123, R141) -/

theorem read_le_freqSum (freq : Table Nat) (c : Symbol) : freq.read c ≤ freqSum freq :=
  List.le_sum_of_mem (List.mem_map_of_mem (mem_allSymbols c))

/-- A child weighs no more than the cell above it: of the sum of two (R26 (c)) either is a part, and the synthetic root
copies the frequency of its leaf (R26 (b), R137). -/
theorem InnerRecord.child_freq_le {freq : Table Nat} {node : List Node} {p : Nat} {n : Node} (h : InnerRecord freq node p n)
    {c : NodeIx} (hc : c ∈ n.children) {f : Nat} (hf : nodeFreq? node c = some f) : f ≤ n.freq := by
  cases n with
  | leaf => exact h.elim
  | internal g l r =>
    obtain ⟨_, _, _, _, fl, fr, hl, hr, rfl⟩ := h
    rcases List.mem_pair.mp hc with rfl | rfl
    · cases hl.symm.trans hf
      exact Nat.le_add_right _ _
    · cases hr.symm.trans hf
      exact Nat.le_add_left _ _
  | synth g l =>
    obtain ⟨_, rfl, hl⟩ := h
    cases List.mem_singleton.mp hc
    cases hl.symm.trans hf
    exact Nat.le_refl _

section tree
variable {freq : Table Nat} {node : List Node} {root : NodeIx} (ht : TreeFor freq node root)
include ht

/-- The frequency does not grow along a walk from the root, and at the root it is the sum of the table (R140). -/
theorem TreeFor.freq_le_of_walk (p : List Bit) : ∀ {y : NodeIx} {f : Nat}, walkPath node root p = some y →
    nodeFreq? node y = some f → f ≤ freqSum freq := by
  induction p using List.reverseRecOn with
  | nil =>
    intro y f hwalk hf
    cases hwalk
    exact (Option.some_inj.mp (ht.root_freq.symm.trans hf)).ge
  | append_singleton p b ih =>
    intro y f hwalk hf
    obtain ⟨x, n, hx, hn, hmove⟩ := walkPath_snoc_inv hwalk
    have hinner := ht.inner x.toNat n (ht.keys_le_of_move hn hmove) hn
    calc f ≤ n.freq := hinner.child_freq_le (move_mem_children hmove) hf
      _ ≤ freqSum freq := ih hx (by rw [nodeFreq?, hn, Option.map_some])

/-- No node weighs more than the whole table (R141): a walk from the root leads to it. -/
theorem TreeFor.freq_le {n : Node} (hn : n ∈ node) : n.freq ≤ freqSum freq := by
  obtain ⟨k, hk, rfl⟩ := List.getElem_of_mem hn
  obtain ⟨p, j, hwalk, rfl⟩ := ht.walk_exists_index hk
  refine ht.freq_le_of_walk p hwalk ?_
  rw [nodeFreq?, nodeAt?, List.getElem?_eq_getElem hk, Option.map_some]

end tree

theorem freqSum_nothing : freqSum Session.nothing.freq = 0 := freqSum_countText []

/-- In either condition of the session its counts add up to at most TEXT_CAP (R41, R26 (g)). -/
theorem Session.Wf.freqSum_le {cfg : Config} {x : Session} (h : x.Wf cfg) : freqSum x.freq ≤ cfg.textCap := by
  rcases h with rfl | ⟨_, hsum⟩
  · rw [freqSum_nothing]
    exact Nat.zero_le _
  · exact hsum

theorem Session.Wf.node_freq_le {cfg : Config} {x : Session} (h : x.Wf cfg) {n : Node} (hn : n ∈ x.node) :
    n.freq ≤ cfg.textCap := by
  rcases h with rfl | ⟨hbuilt, hsum⟩
  · cases hn
  · exact (hbuilt.tree.freq_le hn).trans hsum

/-- A text that fits has no count wider than CNT_W (R7). -/
theorem Config.textCap_lt (cfg : Config) : cfg.textCap < 2 ^ cfg.cntW := by
  obtain ⟨_, ⟨_, hcap, _⟩, _⟩ := cfg.legal
  exact Nat.lt_of_le_pred (Nat.two_pow_pos _) hcap

/-- Settles O30: every count and every node frequency is a part of a sum that TEXT_CAP bounds, and a part of the text has no
more occurrences of a symbol than the text. -/
theorem countsFitTheirWidth : Obligations.CountsFitTheirWidth := by
  intro s hinv
  have hfit {f : Nat} (hf : f ≤ s.cfg.textCap) : f < 2 ^ s.cfg.cntW := hf.trans_lt (Config.textCap_lt s.cfg)
  obtain ⟨htext, _⟩ := hinv.memory
  refine ⟨fun c => hfit ((read_le_freqSum _ c).trans hinv.session.freqSum_le),
    fun n hn => hfit (hinv.session.node_freq_le hn), fun k c => ?_⟩
  rw [read_countText, read_countText]
  exact ⟨(List.take_sublist k s.symIn).count_le c, hfit (List.count_le_length.trans htext)⟩

end Sys2Proof.Machine
end

section
/-! The heap operations against the order they keep (spec/41_tree_builder.md rules R132 to R134). -/

namespace Sys2Proof.Machine

theorem HeapIndices.perm {node : List Node} {h h' : List NodeIx} (hi : HeapIndices node h) (hp : h'.Perm h) :
    HeapIndices node h' :=
  ⟨InNode.perm hi.1 hp, hp.nodup_iff.mpr hi.2⟩

theorem HeapIndices.cons {node : List Node} {h : List NodeIx} {x : NodeIx} (hi : HeapIndices node h)
    (hx : x.toNat < node.length) (hnew : x ∉ h) : HeapIndices node (x :: h) :=
  ⟨List.forall_mem_cons.mpr ⟨hx, hi.1⟩, List.nodup_cons.mpr ⟨hnew, hi.2⟩⟩

theorem HeapIndices.of_cons {node : List Node} {h : List NodeIx} {x : NodeIx} (hi : HeapIndices node (x :: h)) :
    HeapIndices node h :=
  ⟨(List.forall_mem_cons.mp hi.1).2, (List.nodup_cons.mp hi.2).2⟩

/-- An index of least key is below every other index under `less`: no two indices have one key (R13). -/
theorem less?_of_key_le {node : List Node} {x y : NodeIx} (hx : x.toNat < node.length) (hy : y.toNat < node.length)
    (hle : nodeKey node x ≤ nodeKey node y) (hne : x ≠ y) : less? node x y = some true := by
  have hlt := Nat.lt_of_le_of_ne hle fun he => hne (nodeKey_inj he)
  rw [less?_eq hx hy, decide_eq_true hlt]

/-- Settles O31: the laws of the two operations on keys, read back in terms of `less`. -/
theorem heapKeepsOrderAndReturnsLeast : Obligations.HeapKeepsOrderAndReturnsLeast := by
  intro s hi ho
  have hkeys := (heapOrdered_iff hi.1).mp ho
  refine ⟨fun x hx hnew => ?_, fun hne => ?_⟩
  · obtain ⟨h, he, hp, hk⟩ := heapInsert_spec hx hi.1
    have hi' := (hi.cons hx hnew).perm hp
    exact ⟨h, he, hp, hi', (heapOrdered_iff hi'.1).mpr (hk hkeys)⟩
  · obtain ⟨m, h, he, hp, hk⟩ := heapExtractMin_spec hne hi.1
    obtain ⟨hord, hleast⟩ := hk hkeys
    have him := hi.perm hp
    obtain ⟨hm, hin⟩ := List.forall_mem_cons.mp him.1
    refine ⟨m, h, he, hp.symm, him.of_cons, (heapOrdered_iff hin).mpr hord, fun y hy => ?_⟩
    refine less?_of_key_le hm (hin y hy) (hleast y (hp.subset (List.mem_cons_of_mem m hy))) ?_
    rintro rfl
    exact (List.nodup_cons.mp him.2).1 hy

/-! ### The builder on the empty table (R142) -/

theorem keys_eq_nil {freq : Table Nat} (h : ∀ c, freq.read c = 0) : keys freq = [] :=
  List.filter_eq_nil_iff.mpr fun c _ => by simp [h c]

theorem tbRun_of_keys_nil {s : State} (h : keys s.session.freq = []) : tbRun s = .refused .emptyTable := by
  obtain ⟨heap, he, hp, _⟩ := tbLeaves_spec s
  have hnil : heap = [] := by simpa [h] using hp
  rw [tbRun, he, hnil]
  rfl

/-- `DECOMPRESS` is refused, if at all, where the decoder stands on a leaf (R171). -/
theorem exec_decompress_ne_emptyTable (s : State) : exec .decompress s ≠ .refused .emptyTable := by
  have hfrom := decodesFrom_decompressUnits (s.setSymOut [])
  rw [exec, execDecompress]
  cases hunits : decompressUnits (s.setSymOut []) with rw [hunits] at hfrom
  | refused r =>
    cases hfrom
    simp [UnitEnd.finish]
  | done | raised | fault => simp [UnitEnd.finish, respond, raise]

/-- Settles O33: the leaves of the empty table leave the heap empty; and of the commands only `DECOMPRESS`, which does not run
the builder, can be refused. -/
theorem emptyTableRefused : Obligations.EmptyTableRefused := by
  refine ⟨fun s hz => tbRun_of_keys_nil (keys_eq_nil hz), fun i s => ?_⟩
  by_cases hi : i = .decompress
  · exact hi ▸ exec_decompress_ne_emptyTable s
  · obtain ⟨_, t, _, _, he⟩ := completes_of_ne_decompress hi s
    simp [he]

end Sys2Proof.Machine
end

section
/-! The heap-based builder against minimum selection by scan (spec/41_tree_builder.md rules R134, R135 and R138): each pass of the
merge takes the two indices that the scan takes, so the node memory is that of `refBuild`. -/

namespace Sys2Proof.Machine

/-- No two indices have one key, so the scan finds whatever index has the least (R13). -/
theorem leastOf_eq {node : List Node} {pool : List NodeIx} {m : NodeIx} (hin : InNode node pool) (hm : m ∈ pool)
    (hleast : ∀ y ∈ pool, nodeKey node m ≤ nodeKey node y) : leastOf node pool = some m := by
  obtain ⟨a, ha, hmem, hle⟩ := leastOf_spec pool hin (List.ne_nil_of_mem hm)
  rw [ha, nodeKey_inj (Nat.le_antisymm (hle m hm) (hleast a hmem))]

/-- What the heap needs between two passes: its indices name cells of NODE, in the heap order. -/
structure GoodHeap (node : List Node) (h : List NodeIx) : Prop where
  inNode : InNode node h
  ordered : KeysOrdered node h

/-- Extraction takes the index that a scan of the same indices finds, and leaves the others (R134). -/
theorem heapExtractMin_eq_leastOf {s : State} {pool : List NodeIx} (hg : GoodHeap s.session.node s.heap)
    (hne : s.heap ≠ []) (hp : pool.Perm s.heap) :
    ∃ m h, heapExtractMin s = .ok (m, s.setHeap h) ∧ leastOf s.session.node pool = some m ∧ m.toNat < s.session.node.length ∧
      (pool.erase m).Perm h ∧ GoodHeap s.session.node h ∧ h.length + 1 = s.heap.length := by
  obtain ⟨m, h, he, hperm, hk⟩ := heapExtractMin_spec hne hg.inNode
  obtain ⟨hord, hleast⟩ := hk hg.ordered
  obtain ⟨hm, hin⟩ := List.forall_mem_cons.mp (hg.inNode.perm hperm)
  have hmem : m ∈ pool := (hperm.trans hp.symm).subset List.mem_cons_self
  refine ⟨m, h, he, leastOf_eq (hg.inNode.perm hp) hmem fun y hy => hleast y (hp.subset hy), hm, ?_, ⟨hin, hord⟩,
    hperm.length_eq⟩
  exact ((List.perm_cons_erase hmem).symm.trans (hp.trans hperm.symm)).cons_inv

/-- Allocation keeps the heap good. -/
theorem allocNode_good {n : Node} {s : State} (hg : GoodHeap s.session.node s.heap) (hlen : s.session.node.length < 512) :
    ∃ h, allocNode n s = .ok (s.withForest (s.session.node ++ [n]) h) ∧
      h.Perm (BitVec.ofNat 9 s.session.node.length :: s.heap) ∧ GoodHeap (s.session.node ++ [n]) h := by
  obtain ⟨h, he, hp, ho⟩ := allocNode_spec (n := n) hg.inNode hlen
  refine ⟨h, he, hp, InNode.perm (List.forall_mem_cons.mpr ⟨?_, hg.inNode.append_node n⟩) hp, ho hg.ordered⟩
  rw [toNat_newIx hlen, List.length_append]
  exact Nat.lt_add_one _

/-- One pass of the merge is one pass of minimum selection on the same indices (R135). -/
theorem tbMergePass_eq_refMerge {s : State} {pool : List NodeIx} (hg : GoodHeap s.session.node s.heap)
    (h2 : 2 ≤ s.heap.length) (hlen : s.session.node.length < 512) (hp : pool.Perm s.heap) :
    ∃ n h pool', tbMergePass s = .ok (s.withForest (s.session.node ++ [n]) h) ∧
      (∀ k, refMerge (k + 1) s.session.node pool = refMerge k (s.session.node ++ [n]) pool') ∧
      pool'.Perm h ∧ GoodHeap (s.session.node ++ [n]) h ∧ h.length + 1 = s.heap.length := by
  obtain ⟨a, h1, he1, hl1, ha, hp1, hg1, hn1⟩ :=
    heapExtractMin_eq_leastOf hg (List.ne_nil_of_length_pos (by omega)) hp
  obtain ⟨b, h2, he2, hl2, hb, hp2, hg2, hn2⟩ :=
    heapExtractMin_eq_leastOf (s := s.setHeap h1) hg1 (List.ne_nil_of_length_pos (by simp; omega)) hp1
  obtain ⟨fa, hfa⟩ := nodeFreq?_isSome ha
  obtain ⟨fb, hfb⟩ := nodeFreq?_isSome (node := s.session.node) hb
  have hmerged : mergedNode? s.session.node a b = some (.internal (fa + fb) a b) := by
    simp only [mergedNode?, hfa, hfb]
  obtain ⟨h3, he3, hp3, hg3⟩ := allocNode_good (n := .internal (fa + fb) a b) (s := s.setHeap h2) hg2 hlen
  refine ⟨.internal (fa + fb) a b, h3, _, ?_, fun k => ?_, (hp2.cons _).trans hp3.symm, hg3, ?_⟩
  · simp only [tbMergePass, he1, he2, State.setHeap_session, hmerged]
    exact he3
  · simp only [State.setHeap_session] at hl2 ⊢
    simp only [refMerge, hl1, hl2, hmerged]
  · have := hp3.length_eq
    simp only [List.length_cons, State.setHeap_heap] at this hn2
    omega

/-- The passes of the merge are those of minimum selection, until one index is left (R135). -/
theorem tbMerge_eq_refMerge : ∀ (bound : Nat) (s : State) (pool : List NodeIx), GoodHeap s.session.node s.heap →
    pool.Perm s.heap → s.heap ≠ [] → s.heap.length ≤ bound → s.session.node.length + s.heap.length ≤ 512 →
    ∃ r, tbMerge bound s = .ok (s.withForest (refMerge (s.heap.length - 1) s.session.node pool) [r]) := by
  intro bound
  induction bound with
  | zero => exact fun s _ _ _ hne hb _ => absurd (List.eq_nil_of_length_eq_zero (by omega)) hne
  | succ bound ih =>
    intro s pool hg hp hne hb hlen
    by_cases hle : s.heap.length ≤ 1
    · obtain ⟨r, hr⟩ := List.length_eq_one_iff.mp (hle.antisymm (List.length_pos_of_ne_nil hne))
      have hz : s.heap.length - 1 = 0 := by omega
      refine ⟨r, ?_⟩
      rw [tbMerge, if_pos hle, hz, ← hr]
      rfl
    · obtain ⟨n, h, pool', he, href, hp', hg', hh⟩ := tbMergePass_eq_refMerge hg (by omega) (by omega) hp
      obtain ⟨r, hr⟩ := ih (s.withForest (s.session.node ++ [n]) h) pool' hg' hp'
        (List.ne_nil_of_length_pos (by simp; omega)) (by simp; omega) (by simp; omega)
      refine ⟨r, ?_⟩
      have hk : s.heap.length - 1 = (h.length - 1) + 1 := by omega
      simp only [tbMerge, if_neg hle, he, hr, hk, href]
      rfl

section leaves
variable {s : State} {h : List NodeIx} (hp : (h.map BitVec.toNat).Perm (List.range (keys s.session.freq).length))
include hp

/-- The leaf of a single key gets its synthetic parent (R137). -/
theorem tbJoin_of_one_key (h1 : (keys s.session.freq).length = 1) :
    tbJoin (s.withForest (leavesOf s.session.freq) h) = .ok (s.withForest (refBuild s.session.freq) [1]) := by
  obtain ⟨c, hc⟩ := List.length_eq_one_iff.mp h1
  obtain rfl : h = [0] := by
    rw [h1, List.range_one, List.perm_singleton, List.map_eq_singleton_iff] at hp
    obtain ⟨x, rfl, hx⟩ := hp
    rw [BitVec.eq_of_toNat_eq (y := 0) hx]
  rw [refBuild, if_pos h1, leavesOf, hc]
  rfl

/-- The leaves of two keys or more are merged (R135). -/
theorem tbJoin_of_keys (hk : keys s.session.freq ≠ []) (h1 : (keys s.session.freq).length ≠ 1)
    (ho : KeysOrdered (leavesOf s.session.freq) h) :
    ∃ r, tbJoin (s.withForest (leavesOf s.session.freq) h) = .ok (s.withForest (refBuild s.session.freq) [r]) := by
  have hlen : h.length = (keys s.session.freq).length := by simpa using hp.length_eq
  have hpool : ((List.range (keys s.session.freq).length).map (BitVec.ofNat 9)).Perm h := by
    simpa [Function.comp_def] using (hp.map (BitVec.ofNat 9)).symm
  have hin : InNode (leavesOf s.session.freq) h := fun x hx => by
    rw [length_leavesOf, ← List.mem_range]
    exact hp.subset (List.mem_map_of_mem hx)
  have hle := length_keys_le s.session.freq
  have hpos := List.length_pos_of_ne_nil hk
  obtain ⟨r, hr⟩ := tbMerge_eq_refMerge h.length (s.withForest (leavesOf s.session.freq) h) _ ⟨hin, ho⟩ hpool
    (List.ne_nil_of_length_pos (by simpa [hlen] using hpos)) (by simp) (by simp [length_leavesOf, hlen]; omega)
  refine ⟨r, ?_⟩
  rw [tbJoin, if_neg (by simpa [hlen] using h1), refBuild, if_neg h1]
  rw [← hlen] at hr ⊢
  exact hr

end leaves

/-- `TB_RUN` on a non-empty table builds the tree of minimum selection (R134, R138, R144). -/
theorem tbRun_eq_refBuild {s : State} (hk : keys s.session.freq ≠ []) :
    ∃ root, TreeFor s.session.freq (refBuild s.session.freq) root ∧ tbRun s = .done ((s.setSession
      (((s.session.setNode (refBuild s.session.freq)).setRoot root).setTreeValid true)).setHeap []) := by
  obtain ⟨h, he, hp, ho⟩ := tbLeaves_spec s
  have hne : (s.withForest (leavesOf s.session.freq) h).heap.length ≠ 0 := by
    have hlen : h.length = (keys s.session.freq).length := by simpa using hp.length_eq
    exact fun h0 => hk (List.eq_nil_of_length_eq_zero (hlen ▸ h0))
  obtain ⟨r, hj⟩ : ∃ r, tbJoin (s.withForest (leavesOf s.session.freq) h) =
      .ok (s.withForest (refBuild s.session.freq) [r]) := by
    by_cases h1 : (keys s.session.freq).length = 1
    · exact ⟨1, tbJoin_of_one_key hp h1⟩
    · exact tbJoin_of_keys hp hk h1 ho
  have hrun : tbRun s = .done ((s.setSession
      (((s.session.setNode (refBuild s.session.freq)).setRoot r).setTreeValid true)).setHeap []) := by
    simp only [tbRun, he, if_neg hne, hj]
    rfl
  obtain ⟨node, root, hspec, ht⟩ := tbRun_spec hk
  have hsession := congrArg State.session (UnitEnd.done.inj (hspec.symm.trans hrun))
  obtain rfl : node = refBuild s.session.freq := congrArg Session.node hsession
  obtain rfl : root = r := congrArg Session.root hsession
  exact ⟨root, ht, hrun⟩

/-- Settles O32: the pass-by-pass equality gives NODE, and a tree's root is its last cell. -/
theorem heapBuilderEqualsMinimumSelection : Obligations.HeapBuilderEqualsMinimumSelection := by
  intro s hk
  obtain ⟨root, ht, hrun⟩ := tbRun_eq_refBuild hk
  exact ⟨root, ht.root_last, hrun⟩

end Sys2Proof.Machine
end

section
/-! What `COMPRESS` of a non-empty text leaves, as a function of the text (spec/41_tree_builder.md rule R144,
spec/45_host_commands.md rule R192): the session of the greedy tree, and the stream and response that BIT_CAP decides. -/

namespace Sys2Proof.Machine

/-- The session is built for the text with the tree of minimum selection, which the table determines (R134, R144). -/
structure Session.GreedyFor (x : Session) (text : List Symbol) : Prop where
  builtFor : x.BuiltFor text
  node_eq : x.node = refBuild x.freq

/-- One path leads to the leaf of a symbol. -/
theorem TreeFor.path_unique {freq : Table Nat} {node : List Node} {root : NodeIx} (ht : TreeFor freq node root) {c : Symbol}
    {p q : List Bit} (hp : PathTo node root c p) (hq : PathTo node root c q) : p = q := by
  obtain ⟨i, f, hwalk, hi⟩ := hp
  obtain ⟨j, g, hwalk', hj⟩ := hq
  obtain rfl := ht.leaf_unique hi hj
  exact ht.walk_unique p q _ hwalk hwalk'

/-- A tree has one code table (R154). -/
theorem CodeFor.unique {freq : Table Nat} {node : List Node} {root : NodeIx} {code code' : Table (List Bit)}
    (ht : TreeFor freq node root) (h : CodeFor freq node root code) (h' : CodeFor freq node root code') : code = code' := by
  refine Table.ext_read fun c => ?_
  by_cases hc : freq.read c = 0
  · rw [(not_iff_not.mp (h.entry c)).mpr hc, (not_iff_not.mp (h'.entry c)).mpr hc]
  · exact ht.path_unique (h.path c ((h.entry c).mpr hc)) (h'.path c ((h'.entry c).mpr hc))

/-- A text has one session (R144): its table, the tree of the table, and the code table of the tree. -/
theorem Session.GreedyFor.unique {x y : Session} {text : List Symbol} (hx : x.GreedyFor text) (hy : y.GreedyFor text) : x = y := by
  obtain ⟨⟨hfx, hbx⟩, hnx⟩ := hx
  obtain ⟨⟨hfy, hby⟩, hny⟩ := hy
  have hfreq : x.freq = y.freq := hfx.trans hfy.symm
  have hnode : x.node = y.node := by rw [hnx, hny, hfreq]
  have hroot : x.root = y.root := BitVec.eq_of_toNat_eq <| Nat.succ_injective <|
    hbx.tree.root_last.trans (hnode ▸ hby.tree.root_last.symm)
  refine Session.ext_fields hfreq (by rw [hbx.nsyms, hby.nsyms, hfreq]) hnode hroot (hbx.valid.trans hby.valid.symm) ?_
  have hcode := hby.code
  rw [← hfreq, ← hnode, ← hroot] at hcode
  exact hbx.code.unique hbx.tree hcode

/-- The units of `COMPRESS` on a non-empty text (R192): the session of the greedy tree, and its codes where they fit. -/
theorem compressUnits_greedy {s : State} (hne : s.symIn ≠ []) :
    ∃ x : Session, x.GreedyFor s.symIn ∧ compressUnits s = if (codesOf x.code s.symIn).length ≤ s.cfg.bitCap
      then .done ((s.withBuilt x).setBitBuf (codesOf x.code s.symIn)) else .raised .capacity (s.withBuilt x) := by
  obtain ⟨root, ht, htb⟩ := tbRun_eq_refBuild (s := discardOld (fcRun s)) (keys_countText_ne_nil hne)
  rw [show (discardOld (fcRun s)).session.freq = countText s.symIn from rfl] at ht htb
  obtain ⟨code, hcg, hc⟩ := cgRun_spec (s := ((discardOld (fcRun s)).setSession ((((discardOld (fcRun s)).session.setNode
    (refBuild (countText s.symIn))).setRoot root).setTreeValid true)).setHeap []) ht
  have hx := builtSession_builtFor ht hc
  have henc := encRun_spec (s := (s.withBuilt (builtSession s.symIn _ root code)).setBitBuf []) fun _ => hx.code_ne_nil
  refine ⟨_, ⟨hx, rfl⟩, ?_⟩
  simp only [compressUnits, if_neg (mt List.eq_nil_of_length_eq_zero hne), htb, UnitEnd.andThen, hcg]
  exact henc

/-- The stream and the response of `COMPRESS` where `bits` are the codes of the text (R163, R192). -/
def streamAndResponse (bitCap : Nat) (bits : List Bit) : List Bit × Option Response :=
  if bits.length ≤ bitCap then (bits, some ⟨.ok, countWord bits.length⟩) else ([], some ⟨.capacity, 0⟩)

/-- What `COMPRESS` of a non-empty text leaves. -/
theorem exec_compress_text {s t : State} (hne : s.symIn ≠ []) (h : exec .compress s = .next t) :
    t.session.GreedyFor s.symIn ∧
      (t.bitBuf, t.rsp) = streamAndResponse s.cfg.bitCap (codesOf t.session.code s.symIn) := by
  obtain ⟨x, hx, hunits⟩ := compressUnits_greedy hne
  rw [exec, execCompress, hunits] at h
  by_cases hfit : (codesOf x.code s.symIn).length ≤ s.cfg.bitCap
  · rw [if_pos hfit] at h
    cases h
    exact ⟨hx, (if_pos hfit).symm⟩
  · rw [if_neg hfit] at h
    cases h
    exact ⟨hx, (if_neg hfit).symm⟩

/-- What `COMPRESS` of the empty text leaves (R192 (a)). -/
theorem exec_compress_nil {s t : State} (hnil : s.symIn = []) (h : exec .compress s = .next t) :
    t.session = Session.nothing ∧ t.bitBuf = [] ∧ t.rsp = some ⟨.ok, 0⟩ := by
  rw [exec, execCompress, compressUnits_nil hnil] at h
  cases h
  exact ⟨rfl, rfl, rfl⟩

/-- Settles O28: the empty text leaves constants; of any other text the session is the one greedy session, and its codes with
BIT_CAP give the stream and the response. -/
theorem compressIsFunctionOfText : Obligations.CompressIsFunctionOfText := by
  intro s s' t t' htext h h'
  by_cases hnil : s.symIn = []
  · obtain ⟨hses, hbits, hrsp⟩ := exec_compress_nil hnil h
    obtain ⟨hses', hbits', hrsp'⟩ := exec_compress_nil (htext ▸ hnil) h'
    exact ⟨hses.trans hses'.symm, fun _ => ⟨hbits.trans hbits'.symm, hrsp.trans hrsp'.symm⟩⟩
  · obtain ⟨hx, hout⟩ := exec_compress_text hnil h
    obtain ⟨hx', hout'⟩ := exec_compress_text (htext ▸ hnil) h'
    rw [← htext] at hx' hout'
    have hses := hx.unique hx'
    exact ⟨hses, fun hcap => Prod.mk.inj (by rw [hout, hout', hses, hcap])⟩

end Sys2Proof.Machine
end

section
/-! Optimality of the code that `COMPRESS` leaves (spec/41_tree_builder.md rule R143), and the remark of
spec/43_encoder.md rule R164 that rests on it. -/

namespace Sys2Proof.Machine

theorem Session.GreedyFor.optimal {x : Session} {text : List Symbol} (hx : x.GreedyFor text) :
    OptimalFor x.freq x.code.read :=
  code_optimal hx.builtFor.2 hx.node_eq

/-- The length of the codes of a text is the cost of the code on the text's table (R164). -/
theorem length_codesOf (code : Table (List Bit)) (text : List Symbol) :
    (codesOf code text).length = codeCost (countText text) code.read := by
  have hsub : text.toFinset ⊆ allSymbols.toFinset := fun c _ => List.mem_toFinset.mpr (mem_allSymbols c)
  rw [codesOf, List.length_flatMap, Finset.sum_list_map_count, codeCost, ← List.sum_toFinset _ nodup_allSymbols]
  simp only [read_countText, smul_eq_mul]
  refine Finset.sum_subset hsub fun c _ hc => ?_
  rw [List.count_eq_zero.mpr (mt List.mem_toFinset.mpr hc), Nat.zero_mul]

/-- The eight bits of a symbol. -/
def symbolBits (c : Symbol) : List Bit := List.ofFn fun k : Fin 8 => BitVec.ofBool (c.getLsbD k)

theorem length_symbolBits (c : Symbol) : (symbolBits c).length = 8 := List.length_ofFn

theorem symbolBits_injective : Function.Injective symbolBits := by
  intro c d h
  have hbit := congrFun (List.ofFn_injective h)
  exact BitVec.eq_of_getLsbD_eq fun i hi => by simpa using congrArg (BitVec.getLsbD · 0) (hbit ⟨i, hi⟩)

/-- The eight bits are a code for every table: strings of one length do not begin one another. -/
theorem prefixCodeFor_symbolBits (freq : Table Nat) : PrefixCodeFor freq symbolBits where
  entry := fun c _ => List.ne_nil_of_length_pos (by rw [length_symbolBits]; decide)
  free := fun c d _ _ hne hp => hne <| symbolBits_injective <|
    hp.eq_of_length (by rw [length_symbolBits, length_symbolBits])

theorem codeCost_symbolBits (text : List Symbol) : codeCost (countText text) symbolBits = 8 * text.length := by
  simp only [codeCost, length_symbolBits]
  rw [List.sum_map_mul_right, Nat.mul_comm]
  exact congrArg _ (freqSum_countText text)

/-- The greedy code spends at most eight bits a symbol (R164). -/
theorem Session.GreedyFor.length_codesOf_le {x : Session} {text : List Symbol} (hx : x.GreedyFor text) :
    (codesOf x.code text).length ≤ 8 * text.length := by
  obtain ⟨_, hleast⟩ := hx.optimal
  have hfixed := hleast symbolBits (prefixCodeFor_symbolBits _)
  rwa [hx.builtFor.1, codeCost_symbolBits, ← length_codesOf] at hfixed

/-- Settles O39: the greedy code is optimal, and so no longer than the fixed 8-bit code, which fits. -/
theorem codeIsOptimal : Obligations.CodeIsOptimal := by
  refine ⟨fun s t hne h => (exec_compress_text hne h).1.optimal, fun s hcap => ?_⟩
  obtain ⟨_, t, _, _, h⟩ := completes_compress s
  by_cases hnil : s.symIn = []
  · obtain ⟨_, hbits, hrsp⟩ := exec_compress_nil hnil h
    exact ⟨t, _, h, hrsp, by simp [hbits]⟩
  · obtain ⟨hx, hout⟩ := exec_compress_text hnil h
    have hlen := hx.length_codesOf_le
    rw [streamAndResponse, if_pos (hlen.trans hcap)] at hout
    obtain ⟨hbits, hrsp⟩ := Prod.mk.inj hout
    exact ⟨t, _, h, hrsp, hbits ▸ hlen⟩

end Sys2Proof.Machine
end

section
/-! The code of a symbol as a function of the tree (spec/42_code_generator.md rule R154). -/

namespace Sys2Proof.Machine

/-- Settles O36: a path to a leaf of the symbol makes it a key, a key's code is such a path, and the tree has one. -/
theorem codeIsTheOnlyPath : Obligations.CodeIsTheOnlyPath := by
  intro x c p hb hp
  have hkey : x.freq.read c ≠ 0 := hb.tree.key_of_pathTo hp
  have hcode : PathTo x.node x.root c (x.code.read c) := hb.code.path c ((hb.code.entry c).mpr hkey)
  exact hb.tree.path_unique hcode hp

end Sys2Proof.Machine
end

section
/-! The Encoder's two tests in their order (spec/43_encoder.md rules R161 to R163), and the length of the stream that
`COMPRESS` leaves (R164). -/

namespace Sys2Proof.Machine

theorem encText_append (text rest : List Symbol) (s : State) :
    encText (text ++ rest) s = (encText text s).andThen (encText rest) := by
  induction text generalizing s with
  | nil => rfl
  | cons c cs ih =>
    rw [List.cons_append, encText, encText, UnitEnd.andThen_assoc]
    exact congrArg _ (funext ih)

/-- The lookup test of R162 at a symbol without a code. -/
theorem encText_cons_of_no_code {c : Symbol} {s : State} (hc : s.session.code.read c = []) (cs : List Symbol) :
    encText (c :: cs) s = .raised .noCode (s.setBitBuf []) := by
  rw [encText, encSymbol, if_pos (List.length_eq_zero_iff.mpr hc)]
  rfl

/-- A text whose first symbols all have a code: their codes are placed if they fit, and the rest of the text follows. -/
theorem encRun_append {s : State} {before rest : List Symbol} (htext : s.symIn = before ++ rest)
    (hbefore : ∀ d ∈ before, s.session.code.read d ≠ []) :
    encRun s = if (codesOf s.session.code before).length ≤ s.cfg.bitCap
      then encText rest (s.setBitBuf (codesOf s.session.code before)) else .raised .capacity (s.setBitBuf []) := by
  rw [encRun, htext, encText_append, encText_spec before (s.setBitBuf []) (Nat.zero_le _) hbefore, State.setBitBuf_bitBuf,
    List.length_nil, Nat.zero_add, apply_ite (UnitEnd.andThen · (encText rest))]
  rfl

/-- Settles O37: the run reaches the symbol without a code, and its lookup test, only where the codes before it fit. -/
theorem encoderTestsInOrder : Obligations.EncoderTestsInOrder := by
  intro s before after c htext hbefore hc
  rw [encRun_append htext hbefore]
  refine ⟨fun hfit => ?_, fun hover => ?_⟩
  · rw [if_pos hfit]
    exact encText_cons_of_no_code (s := s.setBitBuf (codesOf s.session.code before)) hc after
  · rw [if_neg (Nat.not_le.mpr hover)]
    rfl

/-! ### The length of the stream (R164) -/

theorem length_codesOf_eq_sum (code : Table (List Bit)) (text : List Symbol) :
    (codesOf code text).length = (text.map fun c => (code.read c).length).sum := List.length_flatMap

namespace Session.Built
variable {x : Session} (hb : x.Built)
include hb

/-- R28 (d) for every number of keys at once: the only key of a table has a code of one bit. -/
theorem code_length_le_max {c : Symbol} (hc : x.code.read c ≠ []) :
    (x.code.read c).length ≤ max 1 (x.nsyms.toNat - 1) := by
  by_cases h2 : 2 ≤ x.nsyms.toNat
  · exact le_max_of_le_right (hb.code_length_le h2 hc)
  · have hpos : 0 < x.nsyms.toNat := by
      rw [hb.nsyms, toNat_countKeys]
      exact List.length_pos_of_ne_nil hb.tree.nonempty
    have h1 : x.nsyms = 1 := BitVec.eq_of_toNat_eq (show x.nsyms.toNat = 1 by omega)
    rw [hb.code_eq_zero h1 hc]
    exact le_max_left _ _

end Session.Built

namespace Session.BuiltFor
variable {x : Session} {text : List Symbol} (hx : x.BuiltFor text)
include hx

theorem toNat_nsyms : x.nsyms.toNat = (keys (countText text)).length := by
  rw [hx.2.nsyms, toNat_countKeys, hx.1]

/-- Each code has one bit at least. -/
theorem le_length_codesOf : text.length ≤ (codesOf x.code text).length := by
  have hone : ∀ n ∈ text.map fun c => (x.code.read c).length, 1 ≤ n :=
    List.forall_mem_map.mpr fun _ hc => List.length_pos_of_ne_nil (hx.code_ne_nil hc)
  simpa [length_codesOf_eq_sum] using List.card_nsmul_le_sum _ _ hone

/-- No code is longer than the bound of R28 (d). -/
theorem length_codesOf_le_mul : (codesOf x.code text).length ≤ text.length * max 1 (x.nsyms.toNat - 1) := by
  have hmax : ∀ n ∈ text.map fun c => (x.code.read c).length, n ≤ max 1 (x.nsyms.toNat - 1) :=
    List.forall_mem_map.mpr fun _ hc => hx.2.code_length_le_max (hx.code_ne_nil hc)
  have hsum := List.sum_le_card_nsmul _ _ hmax
  rwa [List.length_map, smul_eq_mul, ← length_codesOf_eq_sum] at hsum

end Session.BuiltFor

/-- The response of a `COMPRESS` that ends `OK` is the new BLEN, which fits the word (R192). -/
theorem toNat_exec_compress_ok {s t : State} {d : Word} (hne : s.symIn ≠ []) (h : exec .compress s = .next t)
    (hok : t.rsp = some ⟨.ok, d⟩) : d.toNat = t.bitBuf.length := by
  obtain ⟨_, hout⟩ := exec_compress_text hne h
  by_cases hfit : (codesOf t.session.code s.symIn).length ≤ s.cfg.bitCap
  · rw [streamAndResponse, if_pos hfit, hok] at hout
    obtain ⟨hbits, hrsp⟩ := Prod.mk.inj hout
    cases hrsp
    rw [hbits, countWord, BitVec.toNat_ofNat]
    have := Config.bitCap_le s.cfg
    omega
  · rw [streamAndResponse, if_neg hfit, hok] at hout
    cases (Prod.mk.inj hout).2

/-- Settles O38: BLEN is the length of the codes of the text, which is the cost of the code on the table, and lies between
the bounds of R164. -/
theorem streamLength : Obligations.StreamLength := by
  intro s t d hne h hok
  obtain ⟨⟨hx, _⟩, _⟩ := exec_compress_text hne h
  have hlow := hx.le_length_codesOf
  have hhigh := hx.length_codesOf_le_mul
  refine ⟨toNat_exec_compress_ok hne h hok, ?_⟩
  rw [exec_compress_ok_bitBuf h hok]
  refine ⟨length_codesOf_eq_sum _ _, ?_, fun h1 => ?_, fun h2 => ⟨hlow, ?_⟩⟩
  · rw [length_codesOf, hx.1]
    rfl
  · rw [h1] at hhigh
    exact le_antisymm (by simpa using hhigh) hlow
  · rwa [max_eq_right (by omega)] at hhigh

/-- Settles O26: the codes of the text are within the bound of R164, so they fit where the bound does; and an idle state has
no scratch for the empty text to leave. -/
theorem compressCompletesWithinCapacity : Obligations.CompressCompletesWithinCapacity := by
  rintro s ⟨hheap, hstack, _⟩ hcap
  by_cases hnil : s.symIn = []
  · refine ⟨Session.nothing, [], ?_, by rw [hnil]; rfl, fun _ => rfl, fun hne => absurd hnil hne⟩
    rw [exec, execCompress, compressUnits_nil hnil, ← hheap, ← hstack]
    rfl
  · obtain ⟨x, ⟨hx, _⟩, hunits⟩ := compressUnits_greedy hnil
    have hfit : (codesOf x.code s.symIn).length ≤ s.cfg.bitCap :=
      hx.length_codesOf_le_mul.trans (by rwa [hx.toNat_nsyms])
    refine ⟨x, _, ?_, rfl, fun h => absurd h hnil, fun _ => hx⟩
    rw [exec, execCompress, hunits, if_pos hfit]
    rfl

end Sys2Proof.Machine
end

section
/-! One pass of the Decoder, and what a run that ends well has read (spec/44_decoder.md rules R171 to R175). -/

namespace Sys2Proof.Machine

/-! ### One pass -/

theorem move_internal (f : Nat) (l r : NodeIx) (b : Bit) : move (.internal f l r) b = .to (if b = 0 then l else r) :=
  (apply_ite Move.to (b = 0) l r).symm

section pass
variable {s : State} {w : Walk} {b : Bit} {n : Node} (hw : s.walk = some w) (hb : s.bitBuf[w.j]? = some b)
  (hn : nodeAt? s.session.node w.cur = some n)
include hw hb hn

/-- A pass that moves to a child. -/
theorem decPass_of_move {nxt : NodeIx} {m : Node} (hm : move n b = .to nxt) (hx : nodeAt? s.session.node nxt = some m) :
    decPass s = .done (arrive w nxt m s) := by
  simp only [decPass, hw, decBit, hb, hn, hm, hx]

/-- A pass that meets the missing right child (R174). -/
theorem decPass_of_missing (hm : move n b = .missing) : decPass s = badStream s := by
  simp only [decPass, hw, decBit, hb, hn, hm]

end pass

/-- A pass ends well only by a move to a child. -/
theorem decPass_eq_done {s t : State} {w : Walk} (hw : s.walk = some w) (h : decPass s = .done t) :
    ∃ b n nxt m, s.bitBuf[w.j]? = some b ∧ nodeAt? s.session.node w.cur = some n ∧ move n b = .to nxt ∧
      nodeAt? s.session.node nxt = some m ∧ t = arrive w nxt m s := by
  simp only [decPass, hw, decBit] at h
  rcases hb : s.bitBuf[w.j]? with _ | b
  · simp [hb] at h
  rcases hn : nodeAt? s.session.node w.cur with _ | n
  · simp [hb, hn] at h
  rcases hm : move n b with nxt | _ | _
  case missing => simp [hb, hn, hm, badStream] at h
  case atLeaf => simp [hb, hn, hm] at h
  rcases hx : nodeAt? s.session.node nxt with _ | m
  · simp [hb, hn, hm, hx] at h
  simp only [hb, hn, hm, hx, UnitEnd.done.injEq] at h
  exact ⟨b, n, nxt, m, rfl, rfl, hm, hx, h.symm⟩

/-- Settles O46: a row of the table is a pass with the move of its row, and the two ends of the input are the test of
`decEnd`. -/
theorem decoderTransitionTable : Obligations.DecoderTransitionTable := by
  intro s w b f l r hw
  refine ⟨fun hb hn => ⟨fun g c hx => ?_, fun g l' r' hx => ?_⟩, fun hb hn g c hx => ?_, fun hb hn => ?_,
    fun hd => ?_, fun hd => ?_⟩
  · exact decPass_of_move hw hb hn (move_internal f l r b) hx
  · exact decPass_of_move hw hb hn (move_internal f l r b) hx
  · exact decPass_of_move hw hb hn rfl hx
  · exact decPass_of_missing hw hb hn rfl
  · simp only [decEnd, hw, hd]
    rfl
  · simp only [decEnd, hw, hd]
    rfl

/-! ### A run that ends well -/

theorem UnitEnd.andThen_eq_done {u : UnitEnd} {k : State → UnitEnd} {t : State} (h : u.andThen k = .done t) :
    ∃ s, u = .done s ∧ k s = .done t := by
  cases u with
  | done s => exact ⟨s, rfl, h⟩
  | raised | fault | refused => cases h

/-- The stream of `s` read up to the walk `w`: it is the codes of the text `out` emitted so far, and then the path `p` from
the root to the cell where the walk stands. -/
structure ReadAs (s : State) (out : List Symbol) (w : Walk) (p : List Bit) : Prop where
  keys : ∀ c ∈ out, s.session.freq.read c ≠ 0
  bits : s.bitBuf.take w.j = codesOf s.session.code out ++ p
  path : walkPath s.session.node s.session.root p = some w.cur
  atRoot : w.dstate = .atRoot → p = []

/-- `t` is the state of a run of the Decoder from `s` that has read `j` bits. -/
def ReadBits (s : State) (j : Nat) (t : State) : Prop :=
  ∃ out w p, t = (s.setSymOut out).setWalk (some w) ∧ w.j = j ∧ ReadAs s out w p

theorem codesOf_append (code : Table (List Bit)) (text rest : List Symbol) :
    codesOf code (text ++ rest) = codesOf code text ++ codesOf code rest := List.flatMap_append

theorem codesOf_cons (code : Table (List Bit)) (c : Symbol) (text : List Symbol) :
    codesOf code (c :: text) = code.read c ++ codesOf code text := List.flatMap_cons

/-- Arriving at a cell after one more bit: at a leaf the path read is the code of its symbol, which is emitted; at any other
cell the path goes on. -/
theorem ReadAs.arrive {s : State} (hx : s.session.Built) {out : List Symbol} {w : Walk} {p : List Bit}
    (h : ReadAs s out w p) {b : Bit} {nxt : NodeIx} {m : Node} (hb : s.bitBuf[w.j]? = some b)
    (hp : walkPath s.session.node s.session.root (p ++ [b]) = some nxt) (hm : nodeAt? s.session.node nxt = some m) :
    ReadBits s (w.j + 1) (arrive w nxt m ((s.setSymOut out).setWalk (some w))) := by
  have hbits : s.bitBuf.take (w.j + 1) = codesOf s.session.code out ++ (p ++ [b]) := by
    rw [List.take_add_one, hb, h.bits, List.append_assoc]
    rfl
  cases m with
  | leaf f c =>
    have hpath : PathTo s.session.node s.session.root c (p ++ [b]) := ⟨nxt, f, hp, hm⟩
    refine ⟨out ++ [c], _, [], rfl, rfl, fun d hd => ?_, ?_, rfl, fun _ => rfl⟩
    · rcases List.mem_append.mp hd with hd | hd
      · exact h.keys d hd
      · exact List.mem_singleton.mp hd ▸ hx.tree.key_of_pathTo hpath
    · rw [hbits, ← codeIsTheOnlyPath _ c _ hx hpath, codesOf_append, codesOf_cons]
      simp [codesOf]
  | internal | synth => exact ⟨out, _, p ++ [b], rfl, rfl, h.keys, hbits, hp, fun hd => by cases hd⟩

theorem ReadBits.decPass {s t u : State} (hx : s.session.Built) {j : Nat} (h : ReadBits s j t)
    (hpass : decPass t = .done u) : ReadBits s (j + 1) u := by
  obtain ⟨out, w, p, rfl, rfl, hread⟩ := h
  obtain ⟨b, n, nxt, m, hb, hn, hmove, hm, rfl⟩ := decPass_eq_done rfl hpass
  exact hread.arrive hx hb (walkPath_snoc hread.path hn hmove) hm

theorem ReadBits.decLoop {s u : State} (hx : s.session.Built) (n : Nat) : ∀ {j : Nat} {t : State}, ReadBits s j t →
    decLoop n t = .done u → ReadBits s (j + n) u := by
  induction n with
  | zero =>
    intro j t h hloop
    cases hloop
    exact h
  | succ n ih =>
    intro j t h hloop
    obtain ⟨v, hpass, hrest⟩ := UnitEnd.andThen_eq_done hloop
    exact Nat.add_right_comm j 1 n ▸ ih (h.decPass hx hpass) hrest

/-- `DEC_RUN` ends well only on a concatenation of codes (R171, R175). -/
theorem decRun_eq_done {s t : State} (hx : s.session.Built) (h : decRun s = .done t) :
    ∃ text, (∀ c ∈ text, s.session.freq.read c ≠ 0) ∧ s.bitBuf = codesOf s.session.code text := by
  obtain ⟨u, hloop, hend⟩ := UnitEnd.andThen_eq_done h
  have hstart : ReadBits s 0 ((s.setSymOut []).setWalk (some ⟨s.session.root, .atRoot, 0⟩)) :=
    ⟨[], _, [], rfl, rfl, by simp, rfl, rfl, fun _ => rfl⟩
  obtain ⟨out, w, p, rfl, hj, hread⟩ := hstart.decLoop hx _ hloop
  refine ⟨out, hread.keys, ?_⟩
  cases hd : w.dstate with
  | inPath => simp [decEnd, hd, badStream] at hend
  | atRoot =>
    have hbits := hread.bits
    rwa [hread.atRoot hd, List.append_nil, hj, Nat.zero_add, List.take_length] at hbits

end Sys2Proof.Machine
end

section
/-! `DECOMPRESS` (spec/44_decoder.md rules R171 to R178, spec/45_host_commands.md rule R193): it answers `OK` on the
concatenations of codes, and `ERR_BAD_STREAM` on every other stream. -/

namespace Sys2Proof.Machine

/-- Settles O40, by the guard of R176. -/
theorem decompressGuard : Obligations.DecompressGuard := by
  intro s h
  rw [exec, execDecompress, decompressUnits_guard (s := s.setSymOut []) h]
  rfl

/-- Settles O41: a key has a code, so the units decode the codes of the text. -/
theorem decompressCodes : Obligations.DecompressCodes := by
  intro s text hx hw hkeys hb
  have hne : ∀ c ∈ text, s.session.code.read c ≠ [] := fun c hc => (hx.code.entry c).mpr (hkeys c hc)
  rw [exec, execDecompress, decompressUnits_codes (s := s.setSymOut []) hx hw rfl hne hb]
  rfl

/-- A stream that is no concatenation of codes (R174, R175, R236). -/
theorem exec_decompress_of_ne_codesOf {s : State} (hx : s.session.Built) (hw : s.walk = none)
    (hno : ∀ text, (∀ c ∈ text, s.session.freq.read c ≠ 0) → s.bitBuf ≠ codesOf s.session.code text) :
    exec .decompress s = .next ({ s with symOut := [] }.failed .badStream) := by
  have hne : s.bitBuf ≠ [] := hno [] (by simp)
  rw [exec, execDecompress, decompressUnits_run (s := s.setSymOut []) hx.valid hne]
  rcases decRun_any (s := s.setSymOut []) hx.tree with ⟨out, he, _⟩ | he
  · obtain ⟨text, hkeys, hb⟩ := decRun_eq_done (s := s.setSymOut []) hx he
    exact absurd hb (hno text hkeys)
  · rw [he, ← hw]
    rfl

/-- Settles O42: a concatenation of codes is decoded (O41), and a run that ends well has read one. -/
theorem decompressAcceptsExactlyCodes : Obligations.DecompressAcceptsExactlyCodes := by
  intro s hx hw
  by_cases h : ∃ text, (∀ c ∈ text, s.session.freq.read c ≠ 0) ∧ s.bitBuf = codesOf s.session.code text
  · obtain ⟨text, hkeys, hb⟩ := h
    exact .inl ⟨text, hkeys, hb, decompressCodes s text hx hw hkeys hb⟩
  · have hno : ∀ text, (∀ c ∈ text, s.session.freq.read c ≠ 0) → s.bitBuf ≠ codesOf s.session.code text :=
      fun text hkeys hb => h ⟨text, hkeys, hb⟩
    exact .inr ⟨hno, exec_decompress_of_ne_codesOf hx hw hno⟩

/-- Settles O43: the only code of the degenerate tree is "0", so a concatenation of codes has no bit 1. -/
theorem missingRightChildIsBadStream : Obligations.MissingRightChildIsBadStream := by
  intro s hx h1 hw hmem
  refine exec_decompress_of_ne_codesOf hx hw fun text hkeys hb => ?_
  obtain ⟨c, hc, hone⟩ := List.mem_flatMap.mp (hb ▸ hmem)
  rw [hx.code_eq_zero h1 ((hx.code.entry c).mpr (hkeys c hc))] at hone
  exact absurd hone (by decide)

/-! ### A stream that ends inside a code (R175) -/

namespace Session.Built
variable {x : Session} (hb : x.Built)
include hb

/-- Two codes one of which begins the other are codes of one symbol (R28 (c)). -/
theorem eq_of_code_isPrefix {c d : Symbol} (hc : x.code.read c ≠ []) (hd : x.code.read d ≠ [])
    (hpre : x.code.read c <+: x.code.read d) : c = d :=
  by_contra fun hne => hb.code_prefix_free hne hc hd hpre

/-- Codes are read in one way only: a text whose codes begin with those of `text` begins with `text`. -/
theorem isPrefix_of_codesOf_isPrefix {text : List Symbol} : ∀ {text' : List Symbol},
    (∀ c ∈ text, x.code.read c ≠ []) → (∀ c ∈ text', x.code.read c ≠ []) →
    codesOf x.code text <+: codesOf x.code text' → text <+: text' := by
  induction text with
  | nil => exact fun _ _ _ => List.nil_prefix
  | cons c cs ih =>
    intro text' hne hne' hpre
    rw [List.forall_mem_cons] at hne
    rw [codesOf_cons] at hpre
    cases text' with
    | nil => exact absurd (List.append_eq_nil_iff.mp (List.prefix_nil.mp hpre)).1 hne.1
    | cons d ds =>
      rw [List.forall_mem_cons] at hne'
      rw [codesOf_cons] at hpre
      obtain rfl : c = d := by
        rcases List.prefix_or_prefix_of_prefix ((List.prefix_append _ _).trans hpre) (List.prefix_append _ _) with h | h
        · exact hb.eq_of_code_isPrefix hne.1 hne'.1 h
        · exact (hb.eq_of_code_isPrefix hne'.1 hne.1 h).symm
      exact List.cons_prefix_cons.mpr ⟨rfl, ih hne.2 hne'.2 ((List.prefix_append_right_inj _).mp hpre)⟩

/-- A proper beginning of a code is not made of codes. -/
theorem ne_codesOf_of_code_eq_append {c : Symbol} {p q : List Bit} (hc : x.code.read c = p ++ q) (hp : p ≠ []) (hq : q ≠ [])
    {text : List Symbol} (hne : ∀ d ∈ text, x.code.read d ≠ []) : p ≠ codesOf x.code text := by
  rintro rfl
  cases text with
  | nil => exact hp rfl
  | cons d ds =>
    rw [codesOf_cons] at hc
    have hcode : x.code.read c ≠ [] := by simp [hc, hq]
    obtain rfl : d = c := hb.eq_of_code_isPrefix (hne d List.mem_cons_self) hcode ⟨codesOf x.code ds ++ q, by simp [hc]⟩
    simp [hq] at hc

end Session.Built

theorem exec_decompress_of_code_cut {s : State} {text : List Symbol} {c : Symbol} {p q : List Bit} (hx : s.session.Built)
    (hw : s.walk = none) (hkeys : ∀ d ∈ text, s.session.freq.read d ≠ 0) (hc : s.session.code.read c = p ++ q) (hp : p ≠ [])
    (hq : q ≠ []) (hb : s.bitBuf = codesOf s.session.code text ++ p) :
    exec .decompress s = .next ({ s with symOut := [] }.failed .badStream) := by
  have hcodes {l : List Symbol} (h : ∀ d ∈ l, s.session.freq.read d ≠ 0) : ∀ d ∈ l, s.session.code.read d ≠ [] :=
    fun d hd => (hx.code.entry d).mpr (h d hd)
  refine exec_decompress_of_ne_codesOf hx hw fun text' hkeys' hb' => ?_
  have heq : codesOf s.session.code text ++ p = codesOf s.session.code text' := hb.symm.trans hb'
  obtain ⟨rest, rfl⟩ := hx.isPrefix_of_codesOf_isPrefix (hcodes hkeys) (hcodes hkeys') ⟨p, heq⟩
  rw [codesOf_append, List.append_cancel_left_eq] at heq
  exact hx.ne_codesOf_of_code_eq_append hc hp hq (fun d hd => hcodes hkeys' d (List.mem_append_right _ hd)) heq

/-- Settles O44: what follows the codes of the text is not made of codes; the three worked examples are evaluated. -/
theorem streamEndingInsideCodeIsBadStream : Obligations.StreamEndingInsideCodeIsBadStream := by
  rintro ⟨cfg, session, symIn, bitBuf, symOut, lastErr, heap, cgStack, walk, host, rsp⟩ hw
  refine ⟨fun text c p q hx hkeys hc hp hq hb => exec_decompress_of_code_cut hx hw hkeys hc hp hq hb, ?_, ?_⟩
  · rintro rfl (rfl | rfl) <;> cases hw <;> rfl
  · rintro rfl rfl
    cases hw
    rfl

/-- Settles O45: `DECOMPRESS` of the stream and the session that `COMPRESS` has left. -/
theorem roundTrip : Obligations.RoundTrip := by
  rintro s t u - h ⟨d, hok⟩ hbits hses hw
  exact exec_decompress_of_compress h hok hbits hses hw

end Sys2Proof.Machine
end

section
/-! The command words with their operands in place (spec/30_encoding.md rules R91 and R93), and the two data words that are
put together from fields: the link word of R99 and the root register of R33. -/

namespace Sys2Proof

/-- A field put below others in a word of 32 bits. -/
theorem cast_append_eq_or {a n : Nat} (h : a + n = 32) (x : BitVec a) (v : BitVec n) :
    (x ++ v).cast h = (x.setWidth 32 <<< n) ||| v.setWidth 32 := by
  have hlt : (x ++ v).toNat < 2 ^ 32 := h ▸ (x ++ v).isLt
  rw [← BitVec.setWidth_append_eq_shiftLeft_setWidth_or]
  exact BitVec.eq_of_toNat_eq (by rw [BitVec.toNat_cast, BitVec.toNat_setWidth, Nat.mod_eq_of_lt hlt])

theorem encode_symPush (v : Symbol) : encode (.symPush v) = 0x30000000 ||| v.setWidth 32 :=
  cast_append_eq_or (a := 24) rfl (0x3#4 ++ 0#20) v

theorem encode_bitPush (b : Bit) : encode (.bitPush b) = 0x50000000 ||| b.setWidth 32 :=
  cast_append_eq_or (a := 31) rfl (0x5#4 ++ 0#27) b

theorem encode_rdReg (r : BitVec 4) : encode (.rdReg r) = 0x80000000 ||| r.setWidth 32 :=
  cast_append_eq_or (a := 28) rfl (0x8#4 ++ 0#24) r

theorem encode_rdFreq (c : Symbol) : encode (.rdFreq c) = 0x90000000 ||| c.setWidth 32 :=
  cast_append_eq_or (a := 24) rfl (0x9#4 ++ 0#20) c

theorem encode_rdCodelen (c : Symbol) : encode (.rdCodelen c) = 0xA0000000 ||| c.setWidth 32 :=
  cast_append_eq_or (a := 24) rfl (0xA#4 ++ 0#20) c

theorem encode_rdCodebit (c : Symbol) (k : BitVec 8) :
    encode (.rdCodebit c k) = (0xB0000000 : Word) ||| (k.setWidth 32 <<< 8) ||| c.setWidth 32 := by
  refine (cast_append_eq_or (a := 24) rfl (0xB#4 ++ 0#12 ++ k) c).trans ?_
  rw [BitVec.setWidth_append_eq_shiftLeft_setWidth_or, BitVec.shiftLeft_or_distrib]
  rfl

theorem encode_rdNodeFreq (i : NodeIx) : encode (.rdNodeFreq i) = 0xC0000000 ||| i.setWidth 32 :=
  cast_append_eq_or (a := 23) rfl (0xC#4 ++ 0#19) i

theorem encode_rdNodeLink (i : NodeIx) : encode (.rdNodeLink i) = 0xD0000000 ||| i.setWidth 32 :=
  cast_append_eq_or (a := 23) rfl (0xD#4 ++ 0#19) i

theorem encode_rdBit (i : BitVec 28) : encode (.rdBit i) = 0xE0000000 ||| i.setWidth 32 :=
  cast_append_eq_or rfl 0xE#4 i

theorem encode_rdSym (i : BitVec 28) : encode (.rdSym i) = 0xF0000000 ||| i.setWidth 32 :=
  cast_append_eq_or rfl 0xF#4 i

end Sys2Proof

namespace Sys2Proof.Machine

theorem linkWord_leaf (f : Nat) (c : Symbol) : linkWord (.leaf f c) = c.setWidth 32 := by
  refine (cast_append_eq_or (a := 23) rfl (0#2 ++ 0#5 ++ 0#9 ++ 0#7) (0#1 ++ c)).trans ?_
  rw [BitVec.setWidth_append_eq_shiftLeft_setWidth_or (b := 0#1)]
  simp

theorem linkWord_internal (f : Nat) (l r : NodeIx) :
    linkWord (.internal f l r) = (0x40000000 : Word) ||| (r.setWidth 32 <<< 16) ||| l.setWidth 32 := by
  refine (cast_append_eq_or (a := 23) rfl (1#2 ++ 0#5 ++ r ++ 0#7) l).trans ?_
  rw [BitVec.setWidth_append_append_eq_shiftLeft_setWidth_or]
  simp [BitVec.shiftLeft_or_distrib, ← BitVec.shiftLeft_add]

theorem linkWord_synth (f : Nat) (l : NodeIx) : linkWord (.synth f l) = 0x80000000 ||| l.setWidth 32 :=
  cast_append_eq_or (a := 23) rfl (2#2 ++ 0#5 ++ 0#9 ++ 0#7) l

/-- The root register of a present tree (R33). -/
theorem rootReg_of_tree {s : State} (h : s.session.treeValid = true) :
    rootReg s = 0x80000000 ||| s.session.root.setWidth 32 := by
  rw [rootReg, h]
  exact cast_append_eq_or (a := 23) rfl (treeBit true ++ 0#22) s.session.root

theorem statusReg_eq (s : State) : statusReg s = if s.session.treeValid then 1 else 0 := by
  rw [statusReg]
  cases s.session.treeValid <;> rfl

theorem lastErrReg_eq (s : State) : lastErrReg s = s.lastErr.code.setWidth 32 := by
  rw [lastErrReg]
  cases s.lastErr <;> rfl

end Sys2Proof.Machine
end

section
/-! Session control and the loads (spec/45_host_commands.md rules R185 to R191): the step of a presented word, and the whole
next state of each command. -/

namespace Sys2Proof.Machine

/-- Settles O6. -/
theorem stepRunsPresentedCommand : Obligations.StepRunsPresentedCommand := by
  intro s w i rest hhost hdecode
  rw [step_of_host_command hhost, runWord_of_decode_some hdecode]
  rfl

/-- With op 0 the word selects the row of `NOP`, whose mask leaves no bit free (R93, R186). -/
theorem decode_eq_none_of_opField_zero {w : Word} (hop : opField w = 0) (hw : w ≠ 0) : decode w = none := by
  rw [decode_eq_none_iff, hop]
  intro hsel
  have hzero : w &&& BitVec.allOnes 32 = 0 := hsel
  exact hw (by rwa [BitVec.and_allOnes] at hzero)

/-- Settles O9. -/
theorem nopChangesNothing : Obligations.NopChangesNothing :=
  fun _ => ⟨rfl, rfl, fun _ => decode_eq_none_of_opField_zero⟩

/-- Settles O10: both ways lead to `resetState`, and a session with no tree meets the guard of `DECOMPRESS`. -/
theorem resetReachesResetState : Obligations.ResetReachesResetState := by
  refine fun s rest => ⟨rfl, rfl, fun hhost => step_of_host_rst hhost, fun hses => decompressGuard s (.inl ?_)⟩
  rw [hses]
  rfl

/-- Settles O11. -/
theorem symClrEmptiesText : Obligations.SymClrEmptiesText := fun _ => ⟨rfl, rfl⟩

/-- Settles O12, by the capacity test. -/
theorem symPushAppendsSymbol : Obligations.SymPushAppendsSymbol :=
  fun _ v => ⟨fun hroom => if_neg (Nat.not_le.mpr hroom), fun hfull => if_pos hfull.ge, encode_symPush v, rfl⟩

/-- Settles O13. -/
theorem bitClrEmptiesStream : Obligations.BitClrEmptiesStream := fun _ => ⟨rfl, rfl⟩

/-- Settles O14, by the capacity test. -/
theorem bitPushAppendsBit : Obligations.BitPushAppendsBit :=
  fun _ b => ⟨fun hroom => if_neg (Nat.not_le.mpr hroom), fun hfull => if_pos hfull.ge, encode_bitPush b, rfl⟩

end Sys2Proof.Machine
end

section
/-! The session of the worked example (spec/42_code_generator.md rule R155), cell by cell. -/

namespace Sys2Proof.Machine

theorem read_freq_exampleSession (c : Symbol) : exampleSession.freq.read c =
    if c = 0x63 then 1 else if c = 0x62 then 2 else if c = 0x61 then 4 else 0 := by
  simp only [exampleSession, Table.read_write, Table.read_replicate]

theorem read_code_exampleSession (c : Symbol) : exampleSession.code.read c =
    if c = 0x63 then [0, 0] else if c = 0x62 then [0, 1] else if c = 0x61 then [1] else [] := by
  simp only [exampleSession, emptyCode, Table.read_write, Table.read_replicate]

end Sys2Proof.Machine
end

section
/-! The eight reads (spec/45_host_commands.md rules R194 to R201): what each answers, where it answers `ERR_RANGE`, and the
example of each rule. -/

namespace Sys2Proof.Machine

/-! ### The end of a read (R233) -/

theorem answer_some (d : Word) (s : State) : answer (some d) s = .next (s.answered d) := rfl

theorem answer_none (s : State) : answer none s = .next (s.failed .range) := rfl

section cell
variable {α : Type} {l : List α} {i : Nat} (f : α → Word) (s : State)

/-- A cell that holds a value is answered with it. -/
theorem answer_cell_of_lt (h : i < l.length) : answer (l[i]?.map f) s = .next (s.answered (f l[i])) := by
  rw [List.getElem?_eq_getElem h, Option.map_some, answer_some]

/-- A cell at or past the length register holds no value (R42). -/
theorem answer_cell_of_le (h : l.length ≤ i) : answer (l[i]?.map f) s = .next (s.failed .range) := by
  rw [List.getElem?_eq_none h, Option.map_none, answer_none]

end cell

/-! ### What each read looks up -/

section reads
variable (s : State)

theorem exec_rdReg (r : BitVec 4) : exec (.rdReg r) s = answer (regValue? s r) s := rfl

theorem exec_rdFreq (c : Symbol) :
    exec (.rdFreq c) s = .next (s.answered (BitVec.ofNat 32 (s.session.freq.read c))) := rfl

theorem exec_rdCodelen (c : Symbol) :
    exec (.rdCodelen c) s = .next (s.answered (BitVec.ofNat 32 (s.session.code.read c).length)) := rfl

theorem exec_rdCodebit (c : Symbol) (k : BitVec 8) :
    exec (.rdCodebit c k) s = answer ((s.session.code.read c)[k.toNat]?.map (BitVec.setWidth 32)) s := rfl

theorem exec_rdNodeFreq (i : NodeIx) :
    exec (.rdNodeFreq i) s = answer (s.session.node[i.toNat]?.map fun n => BitVec.ofNat 32 n.freq) s := rfl

theorem exec_rdNodeLink (i : NodeIx) : exec (.rdNodeLink i) s = answer (s.session.node[i.toNat]?.map linkWord) s := rfl

theorem exec_rdBit (i : BitVec 28) : exec (.rdBit i) s = answer (s.bitBuf[i.toNat]?.map (BitVec.setWidth 32)) s := rfl

theorem exec_rdSym (i : BitVec 28) : exec (.rdSym i) s = answer (s.symOut[i.toNat]?.map (BitVec.setWidth 32)) s := rfl

end reads

/-- A count that TEXT_CAP bounds fits the data word (R7). -/
theorem Config.toNat_ofNat_32 (cfg : Config) {n : Nat} (h : n ≤ cfg.textCap) : (BitVec.ofNat 32 n).toNat = n := by
  have hcap := Config.textCap_le cfg
  rw [BitVec.toNat_ofNat]
  exact Nat.mod_eq_of_lt (by omega)

/-- Settles O15: each register is looked up; with nothing built both halves of the root register are 0. -/
theorem rdRegAnswersRegister : Obligations.RdRegAnswersRegister := by
  intro s
  have hblen : exec (.rdReg 3) s = .next (s.answered (BitVec.ofNat 32 s.bitBuf.length)) := rfl
  have hnsyms : exec (.rdReg 5) s = .next (s.answered (s.session.nsyms.setWidth 32)) := rfl
  have hnnodes : exec (.rdReg 6) s = .next (s.answered (BitVec.ofNat 32 s.session.node.length)) := rfl
  have hroot (hv : s.session.treeValid = true) :
      exec (.rdReg 7) s = .next (s.answered (0x80000000 ||| s.session.root.setWidth 32)) :=
    exec_of_readValue? (congrArg some (rootReg_of_tree hv))
  have hnoroot (hv : s.session.treeValid = false) (hinv : s.Inv) : exec (.rdReg 7) s = .next (s.answered 0) := by
    refine exec_of_readValue? (congrArg some (?_ : rootReg s = 0))
    rw [rootReg, hinv.session.eq_nothing hv]
    rfl
  refine ⟨exec_of_readValue? (congrArg some (statusReg_eq s)), exec_of_readValue? (congrArg some (lastErrReg_eq s)),
    by decide, rfl, hblen, rfl, hnsyms, hnnodes, hroot, hnoroot, rfl, rfl, fun r hr => ?_, encode_rdReg,
    fun hses hbits => ⟨?_, ?_, ?_, ?_⟩⟩
  · rw [exec_rdReg, regValue?_eq_none_iff.mpr hr, answer_none]
  · rw [hroot (hses ▸ rfl), hses]
    rfl
  · rw [hnnodes, hses]
    rfl
  · rw [hnsyms, hses]
    rfl
  · rw [hblen, hbits]
    rfl

/-- Settles O16: no count exceeds TEXT_CAP, so the data word holds it. -/
theorem rdFreqAnswersCount : Obligations.RdFreqAnswersCount := by
  refine fun s c => ⟨exec_rdFreq s c, fun hinv => ?_, encode_rdFreq c, fun hses => ?_, fun hses => ⟨?_, ?_⟩⟩
  · exact Config.toNat_ofNat_32 s.cfg ((read_le_freqSum _ c).trans hinv.session.freqSum_le)
  · rw [exec_rdFreq, hses, read_freq_nothing]
    rfl
  · rw [exec_rdFreq, hses, read_freq_exampleSession]
    rfl
  · rw [exec_rdFreq, hses, read_freq_exampleSession]
    rfl

/-- Settles O17. -/
theorem rdCodelenAnswersLength : Obligations.RdCodelenAnswersLength := by
  refine fun s c => ⟨exec_rdCodelen s c, encode_rdCodelen c, fun hses => ?_, fun hses => ?_⟩
  · rw [exec_rdCodelen, hses, read_code_nothing]
    rfl
  · simp only [exec_rdCodelen, hses, read_code_exampleSession]
    exact ⟨rfl, rfl, rfl⟩

/-- Settles O18: bit `k` is a cell of the code. -/
theorem rdCodebitAnswersBit : Obligations.RdCodebitAnswersBit := by
  refine fun s c k => ⟨answer_cell_of_lt _ s, answer_cell_of_le _ s, encode_rdCodebit c k, fun hses => ?_⟩
  simp only [exec_rdCodebit, hses, read_code_exampleSession]
  exact ⟨rfl, rfl, rfl⟩

/-- Settles O19: no node weighs more than TEXT_CAP, and with no tree there is no node. -/
theorem rdNodeFreqAnswersFrequency : Obligations.RdNodeFreqAnswersFrequency := by
  intro s i
  have hrange (h : s.session.node.length ≤ i.toNat) : exec (.rdNodeFreq i) s = .next (s.failed .range) :=
    answer_cell_of_le _ s h
  refine ⟨fun h => ⟨answer_cell_of_lt _ s h, fun hinv => ?_⟩, hrange, fun hinv hv => hrange ?_, encode_rdNodeFreq i,
    fun hses => ?_⟩
  · exact Config.toNat_ofNat_32 s.cfg (hinv.session.node_freq_le (List.getElem_mem h))
  · rw [hinv.session.eq_nothing hv]
    exact Nat.zero_le _
  · simp only [exec_rdNodeFreq, hses]
    exact ⟨rfl, rfl, rfl⟩

/-- Settles O20, by the link word of each kind of record. -/
theorem rdNodeLinkAnswersLinkWord : Obligations.RdNodeLinkAnswersLinkWord := by
  refine fun s i => ⟨fun f c h => ?_, fun f l r h => ?_, fun f l h => ?_, answer_cell_of_le _ s, encode_rdNodeLink i, rfl, rfl,
    rfl, rfl, fun hses => ?_⟩
  · rw [exec_rdNodeLink, h, Option.map_some, linkWord_leaf, answer_some]
  · rw [exec_rdNodeLink, h, Option.map_some, linkWord_internal, answer_some]
  · rw [exec_rdNodeLink, h, Option.map_some, linkWord_synth, answer_some]
  · simp only [exec_rdNodeLink, hses]
    exact ⟨rfl, rfl, rfl⟩

/-- Settles O21. -/
theorem rdBitAnswersStreamBit : Obligations.RdBitAnswersStreamBit := by
  refine fun s i => ⟨answer_cell_of_lt _ s, answer_cell_of_le _ s, encode_rdBit i, fun hbits => ?_⟩
  simp only [exec_rdBit, hbits]
  exact ⟨rfl, rfl, rfl, rfl⟩

/-- Settles O22. -/
theorem rdSymAnswersDecodedSymbol : Obligations.RdSymAnswersDecodedSymbol := by
  refine fun s i => ⟨answer_cell_of_lt _ s, answer_cell_of_le _ s, encode_rdSym i, fun htext => ?_⟩
  simp only [exec_rdSym, htext]
  exact ⟨rfl, rfl, rfl⟩

end Sys2Proof.Machine
end

section
/-! `COMPRESS` of a non-empty text (spec/45_host_commands.md rule R192), and of the text of the worked example
(spec/43_encoder.md rule R165). -/

namespace Sys2Proof.Machine

/-- `COMPRESS` of a non-empty text: the greedy session, with the codes of the text where they fit (R163, R192). -/
theorem exec_compress_greedy {s : State} (hne : s.symIn ≠ []) : ∃ x : Session, x.GreedyFor s.symIn ∧
    ((codesOf x.code s.symIn).length ≤ s.cfg.bitCap → exec .compress s =
      .next (((s.withBuilt x).setBitBuf (codesOf x.code s.symIn)).answered (countWord (codesOf x.code s.symIn).length))) ∧
    (s.cfg.bitCap < (codesOf x.code s.symIn).length → exec .compress s = .next ((s.withBuilt x).failed .capacity)) := by
  obtain ⟨x, hx, hunits⟩ := compressUnits_greedy hne
  refine ⟨x, hx, fun hfit => ?_, fun hover => ?_⟩
  · rw [exec, execCompress, hunits, if_pos hfit]
    rfl
  · rw [exec, execCompress, hunits, if_neg (Nat.not_le.mpr hover)]
    rfl

/-- Settles O25. -/
theorem compressBuildsAndEncodes : Obligations.CompressBuildsAndEncodes := by
  intro s hne
  obtain ⟨x, hx, hends⟩ := exec_compress_greedy hne
  exact ⟨x, hx.builtFor, hends⟩

/-! ### The worked example -/

theorem countText_exampleText : countText exampleText = exampleSession.freq := by
  refine Table.ext_read fun c => ?_
  rw [read_countText, read_freq_exampleSession]
  split_ifs with h3 h2 h1
  · exact h3 ▸ rfl
  · exact h2 ▸ rfl
  · exact h1 ▸ rfl
  · exact List.count_eq_zero.mpr (by simpa [exampleText] using ⟨h1, h2, h3⟩)

theorem keys_exampleSession : keys exampleSession.freq = [0x61, 0x62, 0x63] := by decide +kernel

/-- The three leaves of R131. -/
theorem leavesOf_exampleSession : leavesOf exampleSession.freq = [.leaf 4 0x61, .leaf 2 0x62, .leaf 1 0x63] := by
  simp only [leavesOf, keys_exampleSession, List.map_cons, List.map_nil, read_freq_exampleSession]
  rfl

/-- The two merges of R139. -/
theorem refBuild_exampleSession : refBuild exampleSession.freq = exampleSession.node := by
  rw [refBuild, keys_exampleSession, leavesOf_exampleSession]
  rfl

theorem codesOf_exampleText : codesOf exampleSession.code exampleText = exampleStream := by
  simp only [codesOf, exampleText, List.flatMap_cons, List.flatMap_nil, read_code_exampleSession]
  rfl

/-- The session of the text "aaaabbc": its tree is evaluated, and a path of the tree to a leaf is a code (R154). -/
theorem Session.GreedyFor.eq_exampleSession {x : Session} (hx : x.GreedyFor exampleText) : x = exampleSession := by
  obtain ⟨⟨hfreq, hb⟩, hnode⟩ := hx
  rw [countText_exampleText] at hfreq
  rw [hfreq, refBuild_exampleSession] at hnode
  have hlast := hb.tree.root_last
  rw [hnode] at hlast
  have hroot : x.root = 4 := BitVec.eq_of_toNat_eq (Nat.succ_injective hlast)
  have hcode (c : Symbol) (p : List Bit) (hp : PathTo exampleSession.node 4 c p) : x.code.read c = p := by
    rw [← hnode, ← hroot] at hp
    exact codeIsTheOnlyPath x c p hb hp
  refine Session.ext_fields hfreq ?_ hnode hroot hb.valid (Table.ext_read fun c => ?_)
  · rw [hb.nsyms, hfreq, countKeys, keys_exampleSession]
    rfl
  · rw [read_code_exampleSession]
    split_ifs with h3 h2 h1
    · exact h3 ▸ hcode 0x63 [0, 0] ⟨2, 1, rfl, rfl⟩
    · exact h2 ▸ hcode 0x62 [0, 1] ⟨1, 2, rfl, rfl⟩
    · exact h1 ▸ hcode 0x61 [1] ⟨0, 4, rfl, rfl⟩
    · have hno : x.freq.read c = 0 := by rw [hfreq, read_freq_exampleSession, if_neg h3, if_neg h2, if_neg h1]
      exact (not_iff_not.mp (hb.code.entry c)).mpr hno

/-- Settles O27: the greedy session of the text is the one of the example, and its ten code bits fit. -/
theorem compressExample : Obligations.CompressExample := by
  intro s htext hcap
  obtain ⟨x, hx, hfits, _⟩ := exec_compress_greedy (s := s) (by rw [htext]; decide)
  rw [htext] at hx hfits
  obtain rfl := hx.eq_exampleSession
  rw [codesOf_exampleText] at hfits
  exact hfits hcap

end Sys2Proof.Machine
end

section
/-! The block never stops (spec/45_host_commands.md rule R230), and the statuses that each command answers (rule R231). -/

namespace Sys2Proof.Machine

/-- Settles O49: the invariant gives the session in one of its two conditions and the walk idle. -/
theorem stepNeverStops : Obligations.StepNeverStops := by
  intro s hinv
  exact step_answers hinv.session hinv.walk_eq

/-- Where the outcome is a next state, the status presented in it is one of the list. -/
def AnswersWithin (l : List Status) (o : Host.Outcome State Fault Refusal) : Prop :=
  ∀ t, o = .next t → ∃ r, t.rsp = some r ∧ r.status ∈ l

section ends
variable {l : List Status}

theorem answersWithin_respond (hok : Status.ok ∈ l) (d : Word) (s : State) : AnswersWithin l (respond d s) := by
  intro t h
  cases h
  exact ⟨_, rfl, hok⟩

theorem answersWithin_raise {e : Status} (he : e ∈ l) (s : State) : AnswersWithin l (raise e s) := by
  intro t h
  cases h
  exact ⟨_, rfl, he⟩

end ends

/-- The two ends of a read (R233). -/
theorem answersWithin_answer (v : Option Word) (s : State) : AnswersWithin [.ok, .range] (answer v s) := by
  cases v with
  | none => exact answersWithin_raise (by simp) s
  | some d => exact answersWithin_respond (by simp) d s

theorem answersWithin_symPush (v : Symbol) (s : State) : AnswersWithin [.ok, .capacity] (execSymPush v s) := by
  rcases execSymPush_cases v s with ⟨_, he⟩ | ⟨_, he⟩ <;> rw [he]
  · exact answersWithin_respond (by simp) _ _
  · exact answersWithin_raise (by simp) _

theorem answersWithin_bitPush (b : Bit) (s : State) : AnswersWithin [.ok, .capacity] (execBitPush b s) := by
  rcases execBitPush_cases b s with ⟨_, he⟩ | ⟨_, he⟩ <;> rw [he]
  · exact answersWithin_respond (by simp) _ _
  · exact answersWithin_raise (by simp) _

/-- Every symbol of the text has a code in the session built for it, so `ERR_CAPACITY` is the only error left (R162,
R163). -/
theorem answersWithin_compress (s : State) : AnswersWithin [.ok, .capacity] (execCompress s) := by
  by_cases hnil : s.symIn = []
  · rw [execCompress, compressUnits_nil hnil]
    exact answersWithin_respond (by simp) _ _
  obtain ⟨x, _, hunits⟩ := compressUnits_greedy hnil
  rw [execCompress, hunits]
  split
  · exact answersWithin_respond (by simp) _ _
  · exact answersWithin_raise (by simp) _

/-- `ERR_BAD_STREAM` is the only error of the decoder (R174, R175). -/
theorem answersWithin_decompress (s : State) : AnswersWithin [.ok, .badStream] (execDecompress s) := by
  have hfrom := decodesFrom_decompressUnits (s.setSymOut [])
  rw [execDecompress]
  cases hunits : decompressUnits (s.setSymOut []) with rw [hunits] at hfrom
  | done u => exact answersWithin_respond (by simp) _ u
  | raised e u =>
    obtain ⟨rfl, _⟩ := hfrom
    exact answersWithin_raise (by simp) u
  | fault f => exact fun t h => by cases h
  | refused r => exact fun t h => by cases h

/-- Settles O51, by the command: what it runs ends in `respond`, or in a `raise` of the one error listed for it. -/
theorem statusesOfEachCommand : Obligations.StatusesOfEachCommand := by
  intro i s
  suffices h : AnswersWithin (canAnswer i) (exec i s) from h
  cases i with
  | nop | reset | symClr | bitClr | rdFreq | rdCodelen => exact answersWithin_respond (by simp [canAnswer]) _ _
  | symPush v => exact answersWithin_symPush v s
  | bitPush b => exact answersWithin_bitPush b s
  | compress => exact answersWithin_compress s
  | decompress => exact answersWithin_decompress s
  | rdReg | rdCodebit | rdNodeFreq | rdNodeLink | rdBit | rdSym => exact answersWithin_answer _ _

end Sys2Proof.Machine
end

section
/-! No error is sticky (spec/45_host_commands.md rule R240): LAST_ERR is read by `RD_REG 1` alone. -/

namespace Sys2Proof.Machine

/-- Where `o` is a next state, `o'` is that state up to LAST_ERR. -/
def SameButLastErr (o o' : Host.Outcome State Fault Refusal) : Prop :=
  ∀ t, o = .next t → ∃ e, o' = .next (t.setLastErr e)

/-! ### The ends of a command -/

section ends
variable (s : State) (e : Status)

theorem sameButLastErr_respond (d : Word) : SameButLastErr (respond d s) (respond d (s.setLastErr e)) := by
  intro t h
  cases h
  exact ⟨e, rfl⟩

/-- An error overwrites LAST_ERR. -/
theorem sameButLastErr_raise (err : Status) : SameButLastErr (raise err s) (raise err (s.setLastErr e)) := by
  intro t h
  cases h
  exact ⟨err, rfl⟩

theorem sameButLastErr_answer (v : Option Word) : SameButLastErr (answer v s) (answer v (s.setLastErr e)) := by
  cases v with
  | none => exact sameButLastErr_raise s e .range
  | some d => exact sameButLastErr_respond s e d

end ends

/-- A test that LAST_ERR has no part in, as the capacity test of a push. -/
theorem SameButLastErr.ite {c : Prop} [Decidable c] {o o' p p' : Host.Outcome State Fault Refusal}
    (ho : SameButLastErr o o') (hp : SameButLastErr p p') :
    SameButLastErr (if c then o else p) (if c then o' else p') := by
  split_ifs
  · exact ho
  · exact hp

/-! ### The units of `DECOMPRESS` -/

/-- The end of a unit with LAST_ERR changed in its state, if it has one. -/
def UnitEnd.setLastErr (u : UnitEnd) (e : Status) : UnitEnd :=
  match u with
  | .done s => .done (s.setLastErr e)
  | .raised err s => .raised err (s.setLastErr e)
  | .fault f => .fault f
  | .refused r => .refused r

/-- LAST_ERR passes through the unit: it is not read, and no write of the unit depends on it. -/
def PassesLastErr (k : State → UnitEnd) (e : Status) : Prop :=
  ∀ s, k (s.setLastErr e) = (k s).setLastErr e

theorem UnitEnd.andThen_setLastErr {k : State → UnitEnd} {e : Status} (hk : PassesLastErr k e) (u : UnitEnd) :
    (u.setLastErr e).andThen k = (u.andThen k).setLastErr e := by
  cases u with
  | done s => exact hk s
  | raised | fault | refused => rfl

theorem UnitEnd.sameButLastErr_finish (u : UnitEnd) (e : Status) {data : State → Word}
    (hdata : ∀ s, data (s.setLastErr e) = data s) : SameButLastErr (u.finish data) ((u.setLastErr e).finish data) := by
  cases u with
  | done s =>
    rw [setLastErr, finish, finish, hdata]
    exact sameButLastErr_respond s e (data s)
  | raised err s => exact sameButLastErr_raise s e err
  | fault f => exact fun t h => by cases h
  | refused r => exact fun t h => by cases h

section units
variable (e : Status)

theorem arrive_setLastErr (w : Walk) (nxt : NodeIx) (n : Node) (s : State) :
    arrive w nxt n (s.setLastErr e) = (arrive w nxt n s).setLastErr e := by
  cases n <;> rfl

theorem passesLastErr_decBit (w : Walk) : PassesLastErr (decBit w) e := by
  intro s
  simp only [decBit, State.setLastErr_bitBuf, State.setLastErr_session, arrive_setLastErr]
  split
  · rfl
  split
  · rfl
  split
  · rfl
  · rfl
  split <;> rfl

theorem passesLastErr_decPass : PassesLastErr decPass e := by
  intro s
  simp only [decPass, State.setLastErr_walk]
  split
  · rfl
  · exact passesLastErr_decBit e _ s

theorem passesLastErr_decLoop (n : Nat) : PassesLastErr (decLoop n) e := by
  induction n with
  | zero => exact fun s => rfl
  | succ n ih =>
    intro s
    rw [decLoop, passesLastErr_decPass, UnitEnd.andThen_setLastErr ih, decLoop]

theorem passesLastErr_decEnd : PassesLastErr decEnd e := by
  intro s
  simp only [decEnd, State.setLastErr_walk]
  split
  · rfl
  split <;> rfl

theorem passesLastErr_decRun : PassesLastErr decRun e := by
  intro s
  rw [decRun, decRun, ← UnitEnd.andThen_setLastErr (passesLastErr_decEnd e), ← passesLastErr_decLoop]
  rfl

theorem passesLastErr_decompressUnits : PassesLastErr decompressUnits e := by
  intro s
  by_cases hguard : s.session.treeValid = false ∨ s.bitBuf = []
  · rw [decompressUnits_guard hguard, decompressUnits_guard (s := s.setLastErr e) hguard]
    rfl
  · obtain ⟨hv, hb⟩ := not_or.mp hguard
    have hv : s.session.treeValid = true := by simpa using hv
    rw [decompressUnits_run hv hb, decompressUnits_run (s := s.setLastErr e) hv hb]
    exact passesLastErr_decRun e s

end units

/-! ### Each command -/

section commands
variable (s : State) (e : Status)

theorem sameButLastErr_symPush (v : Symbol) : SameButLastErr (execSymPush v s) (execSymPush v (s.setLastErr e)) :=
  (sameButLastErr_raise s e .capacity).ite (sameButLastErr_respond (s.setSymIn (s.symIn ++ [v])) e _)

theorem sameButLastErr_bitPush (b : Bit) : SameButLastErr (execBitPush b s) (execBitPush b (s.setLastErr e)) :=
  (sameButLastErr_raise s e .capacity).ite (sameButLastErr_respond (s.setBitBuf (s.bitBuf ++ [b])) e _)

/-- The session that `COMPRESS` builds is the one greedy session of the text (R144), whatever LAST_ERR is. -/
theorem sameButLastErr_compress : SameButLastErr (exec .compress s) (exec .compress (s.setLastErr e)) := by
  by_cases hnil : s.symIn = []
  · rw [exec, exec, execCompress, execCompress, compressUnits_nil hnil, compressUnits_nil (s := s.setLastErr e) hnil]
    exact sameButLastErr_respond ((s.setSession Session.nothing).setBitBuf []) e _
  obtain ⟨x, hx, hfits, hover⟩ := exec_compress_greedy hnil
  obtain ⟨y, hy, hfits', hover'⟩ := exec_compress_greedy (s := s.setLastErr e) hnil
  obtain rfl : x = y := hx.unique hy
  by_cases hfit : (codesOf x.code s.symIn).length ≤ s.cfg.bitCap
  · rw [hfits hfit, hfits' hfit]
    exact sameButLastErr_respond ((s.withBuilt x).setBitBuf _) e _
  · rw [hover (Nat.lt_of_not_le hfit), hover' (Nat.lt_of_not_le hfit)]
    exact sameButLastErr_raise (s.withBuilt x) e .capacity

theorem sameButLastErr_decompress : SameButLastErr (execDecompress s) (execDecompress (s.setLastErr e)) := by
  have hunits : decompressUnits ((s.setLastErr e).setSymOut []) = (decompressUnits (s.setSymOut [])).setLastErr e :=
    passesLastErr_decompressUnits e (s.setSymOut [])
  rw [execDecompress, execDecompress, hunits]
  exact UnitEnd.sameButLastErr_finish _ e fun _ => rfl

/-- Register 1 is the only one that shows LAST_ERR (R33). -/
theorem regValue?_setLastErr {r : BitVec 4} (hr : r ≠ 1) : regValue? (s.setLastErr e) r = regValue? s r := by
  unfold regValue?
  split
  case h_2 h1 => exact absurd (BitVec.eq_of_toNat_eq h1) hr
  all_goals rfl

theorem readValue?_setLastErr {i : Instr} (hi : i ≠ .rdReg 1) : readValue? (s.setLastErr e) i = readValue? s i := by
  cases i with
  | rdReg r => exact regValue?_setLastErr s e fun hr => hi (hr ▸ rfl)
  | _ => rfl

/-- A read (R194 to R201) answers what it names, which is not LAST_ERR. -/
theorem sameButLastErr_read {i : Instr} (hread : isRead i = true) (hi : i ≠ .rdReg 1) :
    SameButLastErr (exec i s) (exec i (s.setLastErr e)) := by
  rw [exec_eq_answer hread, exec_eq_answer hread, readValue?_setLastErr s e hi]
  exact sameButLastErr_answer s e _

end commands

/-- Settles O54, by the command: it ends alike in the two runs, from states that differ in LAST_ERR only. -/
theorem errorIsNotSticky : Obligations.ErrorIsNotSticky := by
  intro i s t e hi
  suffices h : SameButLastErr (exec i s) (exec i (s.setLastErr e)) from h t
  cases i with
  | nop => exact sameButLastErr_respond s e 0
  | reset => exact sameButLastErr_respond (resetState s) .ok 0
  | symClr => exact sameButLastErr_respond (s.setSymIn []) e 0
  | symPush v => exact sameButLastErr_symPush s e v
  | bitClr => exact sameButLastErr_respond (s.setBitBuf []) e 0
  | bitPush b => exact sameButLastErr_bitPush s e b
  | compress => exact sameButLastErr_compress s e
  | decompress => exact sameButLastErr_decompress s e
  | rdReg | rdFreq | rdCodelen | rdCodebit | rdNodeFreq | rdNodeLink | rdBit | rdSym => exact sameButLastErr_read s e rfl hi

end Sys2Proof.Machine
end
